-- ==== Sys2Proof/Word.lean ====
section
/-! DEFINITION. Sys2Proof/Word.lean: the words of the block: bytes, halfwords, 32-bit words, and the 72-bit
transaction word (spec/30_encoding.md R90; spec/00_scope.md R10: bit 0 is the least significant). -/

namespace Sys2Proof

/-- A byte of the register file (10_state.md R20). -/
abbrev Byte := BitVec 8

/-- A 16-bit register value (the PLL registers, 41_clock_power.md R160). -/
abbrev Half := BitVec 16

/-- A 32-bit word: an operand, a response, a DMA word (30_encoding.md R90, R97; 10_state.md R24). -/
abbrev Word := BitVec 32

/-- The transaction word `T`: CMD = [71:64], A = [63:32], D = [31:0] (30_encoding.md R90). -/
abbrev TransactionWord := BitVec 72

end Sys2Proof
end

