-- ==== Sys2Proof/Config.lean ====
section
/-! DEFINITION. Sys2Proof/Config.lean: the implementation parameters of the block (spec/00_scope.md R8), gathered in
one record `Profile`, the spec's default profile `Profile.p0` (PRESUMED: the spec's general knowledge, log entry 1),
and the one free value of the model (log entry 10). -/

namespace Sys2Proof

/-- The access widths 8, 16 and 32 bits (20_memory.md R63). -/
inductive Width where
  | w8
  | w16
  | w32
deriving DecidableEq, Repr

/-- The number of bytes n of an access (20_memory.md R63). -/
def Width.bytes : Width → Nat
  | .w8 => 1
  | .w16 => 2
  | .w32 => 4

/-- The number of bits w = 8 n of an access (20_memory.md R63). -/
def Width.bits : Width → Nat
  | .w8 => 8
  | .w16 => 16
  | .w32 => 32

/-- The side-effect classes of a descriptor (30_encoding.md R101). -/
inductive SideEffect where
  | none
  | clock
  | power
  | rtc
  | fixed
deriving DecidableEq, Repr

/-- The class codes NONE = 0, CLOCK = 1, POWER = 2, RTC = 3, FIXED = 4 (30_encoding.md R101). -/
def SideEffect.code : SideEffect → BitVec 3
  | .none => 0
  | .clock => 1
  | .power => 2
  | .rtc => 3
  | .fixed => 4

/-- The class a code stands for; codes 5 to 7 are not classes (30_encoding.md R101). -/
def SideEffect.ofCode (c : BitVec 3) : Option SideEffect :=
  if c = 0 then some .none
  else if c = 1 then some .clock
  else if c = 2 then some .power
  else if c = 3 then some .rtc
  else if c = 4 then some .fixed
  else Option.none

/-- An entry of `DESC`: offset, width, valid-bit mask W, keep mask K and class code (30_encoding.md R100). The masks
are held in 32 bits; well-formedness bounds them by the width (R102 c). -/
structure Descriptor where
  off : Nat
  width : Width
  W : Word
  K : Word
  cls : BitVec 3
deriving DecidableEq, Repr

/-- An entry of `RESET_TABLE` (70_reset_and_hazards.md R302). -/
structure ResetEntry where
  off : Nat
  width : Width
  value : Word
deriving DecidableEq, Repr

/-- The six kinds of DMA register: five for each channel, and the channel-map entry (10_state.md R38). -/
inductive DmaKind where
  | dcsr
  | drcmr
  | ddadr
  | dsadr
  | dtadr
  | dcmd
deriving DecidableEq, Repr

/-- A DMA register: its kind, and its channel number or map index (43_dma.md R223). -/
structure DmaReg where
  kind : DmaKind
  index : Nat
deriving DecidableEq, Repr

/-- Every kind of DMA register. -/
def DmaKind.all : List DmaKind := [.dcsr, .drcmr, .ddadr, .dsadr, .dtadr, .dcmd]

/-- How many registers of a kind there are: DMA_NCH = 16 channels, DMA_NMAP = 40 map entries (00_scope.md R8). -/
def DmaKind.count : DmaKind → Nat
  | .drcmr => 40
  | _ => 16

/-- One value for each kind of DMA register: "the masks are the same for every channel" (43_dma.md R224). -/
structure DmaTable where
  dcsr : Word
  drcmr : Word
  ddadr : Word
  dsadr : Word
  dtadr : Word
  dcmd : Word
deriving DecidableEq, Repr

def DmaTable.at (t : DmaTable) : DmaKind → Word
  | .dcsr => t.dcsr
  | .drcmr => t.drcmr
  | .ddadr => t.ddadr
  | .dsadr => t.dsadr
  | .dtadr => t.dtadr
  | .dcmd => t.dcmd

/-- The layout of the DMA window: for each kind, the byte offsets of its registers in order of their index
(43_dma.md R221: the layout is a parameter). -/
structure DmaLayout where
  dcsr : List Nat
  drcmr : List Nat
  ddadr : List Nat
  dsadr : List Nat
  dtadr : List Nat
  dcmd : List Nat
deriving DecidableEq, Repr

def DmaLayout.offsets (l : DmaLayout) : DmaKind → List Nat
  | .dcsr => l.dcsr
  | .drcmr => l.drcmr
  | .ddadr => l.ddadr
  | .dsadr => l.dsadr
  | .dtadr => l.dtadr
  | .dcmd => l.dcmd

/-- The implementation parameters of 00_scope.md R8, each under the spec's name. `dmaMask.drcmr` is the normative 0xFF
(43_dma.md R224); `sdctrlWidth` is the width that 10_state.md R33 makes a parameter; `periphBase` and `dmaBase` are the
CPU core's routing parameters (20_memory.md R62). -/
structure Profile where
  periphSize : Nat
  desc : List Descriptor
  resetTable : List ResetEntry
  offPllcr : Nat
  offPllfsr : Nat
  offIdr : Nat
  offRtctime : Nat
  offDayr : Nat
  offRtcctl : Nat
  offSdctrl : Nat
  sdctrlWidth : Width
  bitPresc : Nat
  bitDispll : Nat
  bitProt : Nat
  clk32Off : Nat
  bitClk32 : Nat
  bitRtcen : Nat
  rtcctlWidth : Width
  secLo : Nat
  minLo : Nat
  hrLo : Nat
  crystalHz : Nat
  chipId : Word
  hasDma : Bool
  dmaSize : Nat
  dmaLayout : DmaLayout
  dmaMask : DmaTable
  dmaReset : DmaTable
  periphBase : Word
  dmaBase : Word
deriving DecidableEq, Repr

/-- The P0 descriptor table (30_encoding.md R103). PRESUMED, log entry 1. -/
def Profile.p0Desc : List Descriptor :=
  [ { off := 0x004, width := .w32, W := 0, K := 0, cls := SideEffect.fixed.code },
    { off := 0x004, width := .w16, W := 0, K := 0, cls := SideEffect.fixed.code },
    { off := 0x006, width := .w16, W := 0, K := 0, cls := SideEffect.fixed.code },
    { off := 0x004, width := .w8, W := 0, K := 0, cls := SideEffect.fixed.code },
    { off := 0x005, width := .w8, W := 0, K := 0, cls := SideEffect.fixed.code },
    { off := 0x006, width := .w8, W := 0, K := 0, cls := SideEffect.fixed.code },
    { off := 0x007, width := .w8, W := 0, K := 0, cls := SideEffect.fixed.code },
    { off := 0x200, width := .w16, W := 0x3FBB, K := 0, cls := SideEffect.power.code },
    { off := 0x202, width := .w16, W := 0x4FFF, K := 0x8000, cls := SideEffect.clock.code },
    { off := 0xB00, width := .w32, W := 0x1F3F003F, K := 0, cls := SideEffect.rtc.code },
    { off := 0xB0C, width := .w16, W := 0x00A0, K := 0, cls := SideEffect.none.code },
    { off := 0xB1A, width := .w16, W := 0x01FF, K := 0, cls := SideEffect.rtc.code } ]

/-- The three normative entries of `RESET_TABLE`, under P0's offsets (70_reset_and_hazards.md R302). -/
def Profile.p0ResetTable : List ResetEntry :=
  [ { off := 0x200, width := .w16, value := 0x24B3 },
    { off := 0x202, width := .w16, value := 0x0347 },
    { off := 0x004, width := .w32, value := 0x56000000 } ]

/-- The P0 layout of the DMA window (43_dma.md R221). PRESUMED, log entry 1. -/
def Profile.p0DmaLayout : DmaLayout where
  dcsr := (List.range 16).map (fun n => 0x000 + 4 * n)
  drcmr := (List.range 40).map (fun m => 0x100 + 4 * m)
  ddadr := (List.range 16).map (fun n => 0x200 + 16 * n)
  dsadr := (List.range 16).map (fun n => 0x204 + 16 * n)
  dtadr := (List.range 16).map (fun n => 0x208 + 16 * n)
  dcmd := (List.range 16).map (fun n => 0x20C + 16 * n)

/-- The spec's default profile P0 (00_scope.md R8, 20_memory.md R62, 43_dma.md R221, R224, R228). PRESUMED: general
knowledge of the MC68VZ328 and PXA26x families, which the spec itself marks so (log entry 1). -/
def Profile.p0 : Profile where
  periphSize := 0x1000
  desc := Profile.p0Desc
  resetTable := Profile.p0ResetTable
  offPllcr := 0x200
  offPllfsr := 0x202
  offIdr := 0x004
  offRtctime := 0xB00
  offDayr := 0xB1A
  offRtcctl := 0xB0C
  offSdctrl := 0xC04
  sdctrlWidth := .w16
  bitPresc := 7
  bitDispll := 3
  bitProt := 14
  clk32Off := 0x202
  bitClk32 := 15
  bitRtcen := 7
  rtcctlWidth := .w16
  secLo := 0
  minLo := 16
  hrLo := 24
  crystalHz := 32768
  chipId := 0x56000000
  hasDma := true
  dmaSize := 0x300
  dmaLayout := Profile.p0DmaLayout
  dmaMask :=
    { dcsr := 0xFFFFFFFF, drcmr := 0x000000FF, ddadr := 0xFFFFFFFF, dsadr := 0xFFFFFFFF, dtadr := 0xFFFFFFFF,
      dcmd := 0xFFFFFFFF }
  dmaReset := { dcsr := 0, drcmr := 0, ddadr := 0, dsadr := 0, dtadr := 0, dcmd := 0 }
  periphBase := 0xFFFFF000
  dmaBase := 0x40000000

/-- FREE VALUE (log entry 10). The response word for a clock value that does not fit in 32 bits: R97 says that both
values fit for `CRYSTAL_HZ` up to 596,523 and states no word for a value that does not. -/
opaque Config.oversizeWord : Nat → Word

end Sys2Proof
end

