-- ==== Sys2Proof/Syntax.lean ====
section
/-! DEFINITION. Sys2Proof/Syntax.lean: the transactions of the block, one constructor for each row of
spec/opcode_table.json (30_encoding.md R93), and the transaction as it is presented to the block (R90). -/

namespace Sys2Proof

/-- An out-of-band register-file image (30_encoding.md R90; 44_host.md R251): `size` bytes, of which `cells` lists those
that are not 0 as (index, byte). The first cell with an index gives its byte; a cell at or past `size` is no byte of
the image (log entry 13). -/
structure Image where
  size : Nat
  cells : List (Nat × Byte)
deriving DecidableEq, Repr

/-- The block's "instructions" (00_scope.md R3): the operand `a` is A = T[63:32], `d` is D = T[31:0] (30_encoding.md
R94). Operands that R93 calls ignored are no argument. RESTORE carries its out-of-band image (R90; log entry 13). -/
inductive Instr where
  /-- RD8 (40_access.md R140). -/
  | rd8 (a : Word)
  /-- RD16 (R141). -/
  | rd16 (a : Word)
  /-- RD32 (R142). -/
  | rd32 (a : Word)
  /-- WR8 (R143); only D[7:0] is used, and the meaning truncates. -/
  | wr8 (a d : Word)
  /-- WR16 (R144); only D[15:0] is used, and the meaning truncates. -/
  | wr16 (a d : Word)
  /-- WR32 (R145). -/
  | wr32 (a d : Word)
  /-- DRD32 (43_dma.md R225). -/
  | drd32 (a : Word)
  /-- DWR32 (R226). -/
  | dwr32 (a d : Word)
  /-- TICK (42_rtc.md R195). -/
  | tick
  /-- CLK32 (R198). -/
  | clk32
  /-- SETRTC (R197): days = A, hours = D[23:16], minutes = D[15:8], seconds = D[7:0]. -/
  | setrtc (days : Word) (hours minutes seconds : Byte)
  /-- RESET (70_reset_and_hazards.md R300). -/
  | reset
  /-- QPWR (41_clock_power.md R166). -/
  | qpwr
  /-- QFREQ (R167). -/
  | qfreq
  /-- RESTORE (44_host.md R251). -/
  | restore (image : Image)
deriving DecidableEq, Repr

/-- A transaction as the block receives it: the 72-bit word, and the out-of-band image that only RESTORE reads
(30_encoding.md R90). -/
structure Transaction where
  word : TransactionWord
  image : Image
deriving DecidableEq, Repr

/-- The read transaction of the peripheral window at a width (30_encoding.md R92, R93). -/
def Instr.read : Width → Word → Instr
  | .w8, a => .rd8 a
  | .w16, a => .rd16 a
  | .w32, a => .rd32 a

/-- The write transaction of the peripheral window at a width (30_encoding.md R92, R93). -/
def Instr.write : Width → Word → Word → Instr
  | .w8, a, d => .wr8 a d
  | .w16, a, d => .wr16 a d
  | .w32, a, d => .wr32 a d

end Sys2Proof
end

