-- ==== Sys2Proof/WellFormed.lean ====
section
/-! DEFINITION. Sys2Proof/WellFormed.lean: which profiles are this hardware (spec/00_scope.md R9, spec/30_encoding.md
R102, spec/70_reset_and_hazards.md R302, spec/43_dma.md R221) and which instructions are well formed. "A model refuses
an ill-formed table" (R102): the step does (log entry 7). Clauses that R9, R102 and R302 do not list themselves are
read from the named registers' own rules (log entry 8). -/

namespace Sys2Proof

/-- `r` holds of every pair of entries, the earlier one first. -/
def pairwise {α : Type} (r : α → α → Bool) : List α → Bool
  | [] => true
  | x :: xs => xs.all (fun y => r x y) && pairwise r xs

/-- Two byte ranges (first byte, length) share no byte. -/
def rangesDisjoint (x y : Nat × Nat) : Bool :=
  x.1 + x.2 ≤ y.1 || y.1 + y.2 ≤ x.1

/-- The `DESC` entry at an offset and width: exact match only (40_access.md R121). -/
def Profile.lookup (p : Profile) (off : Nat) (w : Width) : Option Descriptor :=
  p.desc.find? (fun e => e.off == off && e.width == w)

/-- R102 (a): at most one entry for each (off, width). -/
def Profile.descUnique (p : Profile) : Bool :=
  pairwise (fun e f => !(e.off == f.off && e.width == f.width)) p.desc

/-- R102 (b): every entry is width-aligned and inside the window. -/
def Profile.descInWindow (p : Profile) : Bool :=
  p.desc.all (fun e => e.off % e.width.bytes == 0 && e.off + e.width.bytes ≤ p.periphSize)

/-- R102 (c): W and K are disjoint and below 2^width. DESIGN CHOICE (log entry 21): beyond this an entry takes the K it
gives (10_state.md R36), where 40_access.md R126 and 92_eei_decisions.md D6 speak of K = 0 off the CLK32 bit. -/
def Profile.descMasks (p : Profile) : Bool :=
  p.desc.all (fun e => e.W &&& e.K == 0 && e.W.toNat < 2 ^ e.width.bits && e.K.toNat < 2 ^ e.width.bits)

/-- R101: every class code is a class. -/
def Profile.descCodes (p : Profile) : Bool :=
  p.desc.all (fun e => (SideEffect.ofCode e.cls).isSome)

/-- The class stands at each of the spots. -/
def Profile.classAt (p : Profile) (c : SideEffect) (spots : List (Nat × Width)) : Bool :=
  spots.all (fun s => p.desc.any (fun e => e.off == s.1 && e.width == s.2 && e.cls == c.code))

/-- The class stands at no entry but the spots. -/
def Profile.classOnlyAt (p : Profile) (c : SideEffect) (spots : List (Nat × Width)) : Bool :=
  p.desc.all (fun e => !(e.cls == c.code) || spots.any (fun s => e.off == s.1 && e.width == s.2))

/-- R102 (d): CLOCK appears exactly at (`OFF_PLLFSR`, 16). -/
def Profile.clockSpot (p : Profile) : Bool :=
  p.classAt .clock [(p.offPllfsr, .w16)] && p.classOnlyAt .clock [(p.offPllfsr, .w16)]

/-- R102 (e): POWER appears exactly at (`OFF_PLLCR`, 16). -/
def Profile.powerSpot (p : Profile) : Bool :=
  p.classAt .power [(p.offPllcr, .w16)] && p.classOnlyAt .power [(p.offPllcr, .w16)]

/-- R102 (f): RTC appears exactly at (`OFF_RTCTIME`, 32) and (`OFF_DAYR`, 16). -/
def Profile.rtcSpots (p : Profile) : Bool :=
  p.classAt .rtc [(p.offRtctime, .w32), (p.offDayr, .w16)] &&
    p.classOnlyAt .rtc [(p.offRtctime, .w32), (p.offDayr, .w16)]

/-- R102 (g): FIXED appears at the seven chip-ID entries of R32. -/
def Profile.fixedSpots (p : Profile) : Bool :=
  p.classAt .fixed
    [(p.offIdr, .w32), (p.offIdr, .w16), (p.offIdr + 2, .w16), (p.offIdr, .w8), (p.offIdr + 1, .w8),
     (p.offIdr + 2, .w8), (p.offIdr + 3, .w8)]

/-- The entry at (off, w) exists and satisfies `q`. -/
def Profile.entrySat (p : Profile) (off : Nat) (w : Width) (q : Descriptor → Bool) : Bool :=
  match p.lookup off w with
  | some e => q e
  | none => false

/-- R9 (c), (d), (e) and R27 for PLLCR: DISPLL is clear in 0x24B3, differs from PRESC, both lie in W, and K = 0. -/
def Profile.pllcrBits (p : Profile) : Bool :=
  !(BitVec.getLsbD (0x24B3 : Word) p.bitDispll) && !(p.bitDispll == p.bitPresc) &&
    p.entrySat p.offPllcr .w16 (fun e => e.W.getLsbD p.bitDispll && e.W.getLsbD p.bitPresc && e.K == 0)

/-- R9 (a) and (e) for PLLFSR: PROT is one of the bits 12 to 15, and bits 0 to 11 and PROT lie in W. R9 (b) follows:
0x0347 has none of the bits 12 to 15. PLLFSR's K is what the entry gives (10_state.md R28 fixes it for P0 only): DESIGN
CHOICE, log entry 21. -/
def Profile.pllfsrBits (p : Profile) : Bool :=
  12 ≤ p.bitProt && p.bitProt ≤ 15 &&
    p.entrySat p.offPllfsr .w16 (fun e => e.W.getLsbD p.bitProt && e.W &&& 0xFFF == 0xFFF)

/-- R143: no entry but the two 16-bit ones covers a PLL byte ("WR8 to a PLL byte is undocumented under any well-formed
DESC"; PLLCR and PLLFSR are documented only at width 16, 92_eei_decisions.md D10; no documented transaction clears a
stored PROT, 41_clock_power.md R170). Log entry 8. -/
def Profile.pllOnlyHalf (p : Profile) : Bool :=
  p.desc.all (fun e => (e.width == .w16 && (e.off == p.offPllcr || e.off == p.offPllfsr)) ||
    (rangesDisjoint (e.off, e.width.bytes) (p.offPllcr, 2) && rangesDisjoint (e.off, e.width.bytes) (p.offPllfsr, 2)))

/-- The named registers of the window as byte ranges (10_state.md R27 to R32). -/
def Profile.namedRanges (p : Profile) : List (Nat × Nat) :=
  [(p.offPllcr, 2), (p.offPllfsr, 2), (p.offIdr, 4), (p.offRtctime, 4), (p.offDayr, 2),
   (p.offRtcctl, p.rtcctlWidth.bytes)]

/-- DEDUCED (log entry 8): these registers share no byte. R102 lets entries of different widths overlap; the clause is
about the registers, whose rules (42_rtc.md R196 d, 70_reset_and_hazards.md R300 to R302) fail where they overlap. -/
def Profile.namedDisjoint (p : Profile) : Bool := pairwise rangesDisjoint p.namedRanges

/-- R9 (f): the CLK32 bit is not in the W of the register that hosts it and is in its K. That PLLCR and DAYR are not the
host follows from their K = 0; the host is no half of IDR, which reads as a fixed identifier (10_state.md R32; DEDUCED,
log entry 8). The host may overlap a register of another width (R102). Further bits of its K are free: DESIGN CHOICE, log
entry 21. -/
def Profile.clk32Bit (p : Profile) : Bool :=
  p.entrySat p.clk32Off .w16 (fun e => !(e.W.getLsbD p.bitClk32) && e.K.getLsbD p.bitClk32) &&
    rangesDisjoint (p.clk32Off, 2) (p.offIdr, 4)

/-- R9 (g): the three time fields have the widths of R193, lie in the 32 bits of RTCTIME and share no bit. -/
def Profile.rtcFields (p : Profile) : Bool :=
  p.secLo + 6 ≤ 32 && p.minLo + 6 ≤ 32 && p.hrLo + 5 ≤ 32 &&
    pairwise rangesDisjoint [(p.secLo, 6), (p.minLo, 6), (p.hrLo, 5)]

/-- The union of the RTCTIME field bits (10_state.md R29). -/
def Profile.rtcMask (p : Profile) : Word :=
  ((0x3F : Word) <<< p.secLo) ||| ((0x3F : Word) <<< p.minLo) ||| ((0x1F : Word) <<< p.hrLo)

/-- R29, R30: RTCTIME's W is the union of its fields, DAYR's W is 0x01FF, and both have K = 0. -/
def Profile.rtcMasks (p : Profile) : Bool :=
  p.entrySat p.offRtctime .w32 (fun e => e.W == p.rtcMask && e.K == 0) &&
    p.entrySat p.offDayr .w16 (fun e => e.W == 0x01FF && e.K == 0)

/-- R31: RTCCTL is a register of class NONE whose W contains RTCEN, with K = 0. -/
def Profile.rtcctlEntry (p : Profile) : Bool :=
  p.entrySat p.offRtcctl p.rtcctlWidth
    (fun e => e.cls == SideEffect.none.code && e.W.getLsbD p.bitRtcen && e.K == 0)

/-- R33: where SDCTRL is documented, at its own width, it is of class NONE, with W not all-ones and K = 0. Entries of
other widths at its offset are no concern of R33. -/
def Profile.sdctrlEntry (p : Profile) : Bool :=
  match p.lookup p.offSdctrl p.sdctrlWidth with
  | some e => e.cls == SideEffect.none.code && !(e.W.toNat == 2 ^ p.sdctrlWidth.bits - 1) && e.K == 0
  | none => true

/-- R302: no two entries share a byte. -/
def Profile.resetDisjoint (p : Profile) : Bool :=
  pairwise (fun e f => rangesDisjoint (e.off, e.width.bytes) (f.off, f.width.bytes)) p.resetTable

/-- R302: no entry touches a calendar byte. -/
def Profile.resetSparesCalendar (p : Profile) : Bool :=
  p.resetTable.all (fun e => rangesDisjoint (e.off, e.width.bytes) (p.offRtctime, 4) &&
    rangesDisjoint (e.off, e.width.bytes) (p.offDayr, 2))

/-- R302: each entry is width-aligned and inside the window. -/
def Profile.resetInWindow (p : Profile) : Bool :=
  p.resetTable.all (fun e => e.off % e.width.bytes == 0 && e.off + e.width.bytes ≤ p.periphSize)

/-- R302: the three normative entries. -/
def Profile.resetNormative (p : Profile) : Bool :=
  p.resetTable.contains { off := p.offPllcr, width := .w16, value := 0x24B3 } &&
    p.resetTable.contains { off := p.offPllfsr, width := .w16, value := 0x0347 } &&
    p.resetTable.contains { off := p.offIdr, width := .w32, value := p.chipId }

/-- The offsets of every DMA register. -/
def DmaLayout.all (l : DmaLayout) : List Nat :=
  l.dcsr ++ l.drcmr ++ l.ddadr ++ l.dsadr ++ l.dtadr ++ l.dcmd

/-- R8, R38: 16 registers of each channel kind and 40 map entries. -/
def Profile.dmaCounts (p : Profile) : Bool :=
  !p.hasDma || DmaKind.all.all (fun k => (p.dmaLayout.offsets k).length == k.count)

/-- R221, R222: every DMA register is an aligned word inside the window. -/
def Profile.dmaInWindow (p : Profile) : Bool :=
  !p.hasDma || p.dmaLayout.all.all (fun o => o % 4 == 0 && o + 4 ≤ p.dmaSize)

/-- No two of the offsets lie in the same word; bit `j` of `seen` says that word `j` is already taken. -/
def distinctWords : Nat → List Nat → Bool
  | _, [] => true
  | seen, o :: os => !(seen.testBit (o / 4)) && distinctWords (seen ||| 2 ^ (o / 4)) os

/-- R221: "Any layout a model chooses must be injective: no two registers share a word". -/
def Profile.dmaInjective (p : Profile) : Bool := !p.hasDma || distinctWords 0 p.dmaLayout.all

/-- R224: the channel-map mask is 0x000000FF. -/
def Profile.dmaMapMask (p : Profile) : Bool := !p.hasDma || p.dmaMask.drcmr == 0x000000FF

/-- The descriptor table is well formed (30_encoding.md R102, with R9 and the named registers' own masks). -/
def Profile.descWf (p : Profile) : Bool :=
  p.descUnique && (p.descInWindow && (p.descMasks && (p.descCodes && (p.clockSpot && (p.powerSpot && (p.rtcSpots &&
    (p.fixedSpots && (p.pllcrBits && (p.pllfsrBits && (p.pllOnlyHalf && (p.clk32Bit && (p.rtcFields && (p.rtcMasks &&
    (p.rtcctlEntry && (p.sdctrlEntry && p.namedDisjoint)))))))))))))))

/-- The reset table is well formed (70_reset_and_hazards.md R302). -/
def Profile.resetWf (p : Profile) : Bool :=
  p.resetDisjoint && (p.resetSparesCalendar && (p.resetInWindow && p.resetNormative))

/-- The DMA layout is well formed (43_dma.md R221, R224). The reset values are free, that of the channel-map entries too:
DESIGN CHOICE, log entry 22, where 43_dma.md R230 and 10_state.md R38 say that only bits [7:0] of an entry are stored. -/
def Profile.dmaWf (p : Profile) : Bool := p.dmaCounts && (p.dmaInWindow && (p.dmaInjective && p.dmaMapMask))

/-- The profile is one this hardware can have. -/
def Profile.wf (p : Profile) : Bool := p.descWf && (p.resetWf && p.dmaWf)

/-- An instruction is well formed: a RESTORE image has exactly `PERIPH_SIZE` bytes (30_encoding.md R90; one that has
not still has a meaning, the fault BadImage, 44_host.md R251). Every other operand may take every value. -/
def Instr.wf (p : Profile) : Instr → Bool
  | .rd8 _ => true
  | .rd16 _ => true
  | .rd32 _ => true
  | .wr8 _ _ => true
  | .wr16 _ _ => true
  | .wr32 _ _ => true
  | .drd32 _ => true
  | .dwr32 _ _ => true
  | .tick => true
  | .clk32 => true
  | .setrtc _ _ _ _ => true
  | .reset => true
  | .qpwr => true
  | .qfreq => true
  | .restore img => img.size == p.periphSize

end Sys2Proof
end

