-- ==== Sys2Proof/Decode.lean ====
section
/-! DEFINITION. Sys2Proof/Decode.lean: decoding a transaction word, total on all 72-bit words and rejecting by name
(spec/30_encoding.md R90 to R96), and the encoder. -/

namespace Sys2Proof

/-- CMD = T[71:64] (30_encoding.md R90). -/
def Transaction.cmd (t : Transaction) : Byte := t.word.extractLsb' 64 8

/-- A = T[63:32] (R90). -/
def Transaction.a (t : Transaction) : Word := t.word.extractLsb' 32 32

/-- D = T[31:0] (R90). -/
def Transaction.d (t : Transaction) : Word := t.word.extractLsb' 0 32

/-- OP = CMD[7:4] (R91). -/
def cmdOp (c : Byte) : Nat := (c.extractLsb' 4 4).toNat

/-- WIN = CMD[3] (R91). -/
def cmdWin (c : Byte) : Bool := c.getLsbD 3

/-- RSV = CMD[2] (R91). -/
def cmdRsv (c : Byte) : Bool := c.getLsbD 2

/-- SZ = CMD[1:0] (R91, R92). -/
def cmdSz (c : Byte) : Nat := (c.extractLsb' 0 2).toNat

/-- Why a word is no transaction, with what is recorded (30_encoding.md R95; 60_exceptions.md R271). -/
inductive DecodeError where
  /-- R95 (a), (b), (c). -/
  | illegalCommand (cmd : Byte)
  /-- R95 (d), (e). -/
  | badWidth (cmd : Byte) (a : Word)
deriving DecidableEq, Repr

/-- An access command (OP 0 or 1) with its window and size (R92, R93); SZ = 11, and any SZ but 10 in the DMA window,
is no legal width (R95 d, e). -/
def decodeAccess (t : Transaction) (write win : Bool) (sz : Nat) : Except DecodeError Instr :=
  match write, win, sz with
  | false, false, 0 => .ok (.rd8 t.a)
  | false, false, 1 => .ok (.rd16 t.a)
  | false, false, 2 => .ok (.rd32 t.a)
  | true, false, 0 => .ok (.wr8 t.a t.d)
  | true, false, 1 => .ok (.wr16 t.a t.d)
  | true, false, 2 => .ok (.wr32 t.a t.d)
  | false, true, 2 => .ok (.drd32 t.a)
  | true, true, 2 => .ok (.dwr32 t.a t.d)
  | _, _, _ => .error (.badWidth t.cmd t.a)

/-- A host command (OP 2 to 8); OP 9 to 15 are reserved (R93, R94, R95 a). -/
def decodeHost (t : Transaction) : Nat → Except DecodeError Instr
  | 2 => .ok .tick
  | 3 => .ok .clk32
  | 4 => .ok (.setrtc t.a (t.d.extractLsb' 16 8) (t.d.extractLsb' 8 8) (t.d.extractLsb' 0 8))
  | 5 => .ok .reset
  | 6 => .ok .qpwr
  | 7 => .ok .qfreq
  | 8 => .ok (.restore t.image)
  | _ => .error (.illegalCommand t.cmd)

/-- The decoder (R90 to R96), in the order of 60_exceptions.md R272: the illegal commands of R95 (a), (b), (c) come
before the illegal widths of (d), (e). -/
def decode (t : Transaction) : Except DecodeError Instr :=
  let c := t.cmd
  if cmdRsv c then .error (.illegalCommand c)
  else if cmdOp c = 0 then decodeAccess t false (cmdWin c) (cmdSz c)
  else if cmdOp c = 1 then decodeAccess t true (cmdWin c) (cmdSz c)
  else if cmdWin c || cmdSz c != 0 then .error (.illegalCommand c)
  else decodeHost t (cmdOp c)

/-- The word with the given CMD, A and D (R90). -/
def transactionWord (cmd : Byte) (a d : Word) : TransactionWord := cmd ++ a ++ d

/-- The command byte of an instruction (R93). -/
def Instr.cmd : Instr → Byte
  | .rd8 _ => 0x00
  | .rd16 _ => 0x01
  | .rd32 _ => 0x02
  | .wr8 _ _ => 0x10
  | .wr16 _ _ => 0x11
  | .wr32 _ _ => 0x12
  | .drd32 _ => 0x0A
  | .dwr32 _ _ => 0x1A
  | .tick => 0x20
  | .clk32 => 0x30
  | .setrtc _ _ _ _ => 0x40
  | .reset => 0x50
  | .qpwr => 0x60
  | .qfreq => 0x70
  | .restore _ => 0x80

/-- The image of a transaction that carries none. -/
def noImage : Image := { size := 0, cells := [] }

/-- The encoder (R93, R94): operands that R93 calls ignored are written as zeros. -/
def encode : Instr → Transaction
  | .rd8 a => { word := transactionWord 0x00 a 0, image := noImage }
  | .rd16 a => { word := transactionWord 0x01 a 0, image := noImage }
  | .rd32 a => { word := transactionWord 0x02 a 0, image := noImage }
  | .wr8 a d => { word := transactionWord 0x10 a d, image := noImage }
  | .wr16 a d => { word := transactionWord 0x11 a d, image := noImage }
  | .wr32 a d => { word := transactionWord 0x12 a d, image := noImage }
  | .drd32 a => { word := transactionWord 0x0A a 0, image := noImage }
  | .dwr32 a d => { word := transactionWord 0x1A a d, image := noImage }
  | .tick => { word := transactionWord 0x20 0 0, image := noImage }
  | .clk32 => { word := transactionWord 0x30 0 0, image := noImage }
  | .setrtc days h m s => { word := transactionWord 0x40 days ((0 : Byte) ++ h ++ m ++ s), image := noImage }
  | .reset => { word := transactionWord 0x50 0 0, image := noImage }
  | .qpwr => { word := transactionWord 0x60 0 0, image := noImage }
  | .qfreq => { word := transactionWord 0x70 0 0, image := noImage }
  | .restore img => { word := transactionWord 0x80 0 0, image := img }

/-- Byte `k` of a number whose least significant byte is byte 0. -/
def tableByte (w k : Nat) : Byte := BitVec.ofNat 8 (w / 2 ^ (8 * k))

/-- The transaction word whose bytes, in the order `CC AAAAAAAA DDDDDDDD` of R90, are bytes 0, 1, …, 8 of `w`; the
bits of `w` from `nbits` up count as 0 (log entry 5). -/
def tableWord (nbits w : Nat) : TransactionWord :=
  let v := w % 2 ^ nbits
  transactionWord (tableByte v 0)
    (tableByte v 1 ++ tableByte v 2 ++ tableByte v 3 ++ tableByte v 4)
    (tableByte v 5 ++ tableByte v 6 ++ tableByte v 7 ++ tableByte v 8)

/-- The transaction of a table word, with an image of `size` zero bytes: the operand bits that the table does not
number are 0 (log entry 5). -/
def tableTransaction (size nbits w : Nat) : Transaction :=
  { word := tableWord nbits w, image := { size := size, cells := [] } }

/-- The instruction the decoder reads from a word numbered as spec/opcode_table.json numbers it (log entry 5). -/
def decodeTableWord (nbits w : Nat) : Option Instr :=
  match decode (tableTransaction Profile.p0.periphSize nbits w) with
  | .ok i => some i
  | .error _ => none

end Sys2Proof
end

