-- ==== Sys2Proof/Machine/State.lean ====
section
/-! DEFINITION. Sys2Proof/Machine/State.lean: the whole state of the block as plain data (spec/10_state.md R20 to R42),
its output events and responses, the faults of spec/60_exceptions.md R271, and the state after reset (spec/70 R303,
R306). -/

namespace Sys2Proof.Machine

/-- A memory of `n`-bit cells: (address, value) pairs, addresses strictly rising, no value 0. An unlisted address reads
0, the zero-fill of 70_reset_and_hazards.md R300 (log entry 6). With n = 8 a pair is a `Host.Cell`. -/
abbrev Memory (n : Nat) := List (Nat × BitVec n)

/-- The window of a diagnostic record (10_state.md R40). -/
inductive Win where
  | periph
  | dma
deriving DecidableEq, Repr

/-- The direction of a diagnostic record (10_state.md R40). -/
inductive Dir where
  | read
  | write
deriving DecidableEq, Repr

/-- The output events (10_state.md R40). -/
inductive Event where
  /-- `Diag{win, off, value, width, dir}`: one for each undocumented access. -/
  | diag (win : Win) (off : Nat) (value : Word) (width : Width) (dir : Dir)
  /-- `EndTimeslice`: one for each qualifying PLLCR write. -/
  | endTimeslice
  /-- `DmaCmd{ch, value}`: one for each accepted write to a channel's command register. -/
  | dmaCmd (ch : Nat) (value : Word)
deriving DecidableEq, Repr

/-- The response of a transaction: Q0, and Q1 for QFREQ only (30_encoding.md R97; log entry 17). -/
structure Response where
  q0 : Word
  q1 : Option Word
deriving DecidableEq, Repr

/-- The state of the block. -/
structure State where
  /-- The implementation parameters (00_scope.md R8). The model's own field: no transaction writes it (log entry 1). -/
  profile : Profile
  /-- The register file RF, with every peripheral register and the calendar in it (10_state.md R20, R21). -/
  rf : Memory 8
  /-- `FREQ_HZ`, derived clock state (10_state.md R22). -/
  freqHz : Nat
  /-- `REF_CYC`, derived clock state (10_state.md R22). -/
  refCyc : Nat
  /-- The DMA window DW, indexed by word = byte offset / 4 (10_state.md R24). -/
  dw : Memory 32
  /-- The event stream, oldest first (10_state.md R40). -/
  events : List Event
  /-- The responses, oldest first (30_encoding.md R97; 44_host.md R254). -/
  responses : List Response
  /-- The transactions still to come, the next one first (10_state.md R25). The model's own field (log entry 4). -/
  input : List Transaction
deriving DecidableEq, Repr

/-- The fault outcomes, with what each records (60_exceptions.md R271). All are safe: the spec's model faults where
the real block's behaviour is undefined (R270; log entry 9). -/
inductive Fault where
  /-- Raised by the step for a command byte that is no transaction (30_encoding.md R95 a, b, c). Safe. -/
  | illegalCommand (cmd : Byte)
  /-- Raised by the step for an access of no legal width (R95 d, e; 20_memory.md R63). Safe. -/
  | badWidth (cmd : Byte) (a : Word)
  /-- Raised by DRD32 and DWR32 where `HAS_DMA` is false (43_dma.md R222). Safe. -/
  | noWindow (cmd : Byte) (a : Word)
  /-- Raised by 16- and 32-bit accesses at an offset that is not width-aligned (20_memory.md R64). Safe. -/
  | misaligned (cmd : Byte) (a : Word)
  /-- Raised by every access beyond its window (20_memory.md R65). Safe. -/
  | outOfWindow (cmd : Byte) (a : Word)
  /-- Raised by RESTORE for an image that has not `PERIPH_SIZE` bytes (44_host.md R251). Safe. -/
  | badImage (length : Nat)
deriving DecidableEq, Repr

/-- The refusals. -/
inductive Refusal where
  /-- An instruction without a meaning. No arm of this model answers it. Safe. -/
  | notModelled (mnemonic : String)
  /-- Raised by the step, and by a write whose descriptor has a reserved class code, for a profile that is not well
  formed: "A model refuses an ill-formed table" (30_encoding.md R102; log entry 7). Safe. -/
  | illFormedProfile
  /-- Raised by the step when no transaction is left: the run has ended (44_host.md R254; log entry 4). Safe. -/
  | endOfRun
deriving DecidableEq, Repr

/-- What one transaction ends in. -/
abbrev Outcome := Host.Outcome State Fault Refusal

/-- The state right after reset under P0 (70_reset_and_hazards.md R303, R306): the reset table's bytes in a zero-filled
RF, every DW word 0, the derived clock state of R168. The calendar bytes CAL0, the empty outputs and the empty input
are DESIGN CHOICES (log entries 2, 3, 4). -/
def State.reset : State where
  profile := Profile.p0
  rf := [(0x004, 0x56), (0x200, 0x24), (0x201, 0xB3), (0x202, 0x03), (0x203, 0x47)]
  freqHz := 33161216
  refCyc := 1012
  dw := []
  events := []
  responses := []
  input := []

end Sys2Proof.Machine
end

