-- ==== Sys2Proof/Machine/Ops.lean ====
section
/-! DEFINITION. Sys2Proof/Machine/Ops.lean: the operations over memory and state that every meaning is made of: one
cell of a memory, the big-endian register file (spec/20_memory.md R60), masks and truncation (spec/40_access.md R122,
R126), and the named updates of State. The block takes no exception and has no return from one (spec/60_exceptions.md
R276), so no such operation stands here; its faults end the transaction (R270). -/

namespace Sys2Proof.Machine

/-! ### One cell of a memory -/

/-- The value at an address; an unlisted address reads 0 (70_reset_and_hazards.md R300; log entry 6). -/
def Memory.read {n : Nat} : Memory n → Nat → BitVec n
  | [], _ => 0
  | (k, x) :: m, a => if k = a then x else Memory.read m a

/-- Put a value in front of a memory, unless it is what an unlisted address reads as. -/
def Memory.push {n : Nat} (a : Nat) (v : BitVec n) (m : Memory n) : Memory n :=
  if v = 0 then m else (a, v) :: m

/-- Store a value at an address, keeping the canonical form. -/
def Memory.write {n : Nat} : Memory n → Nat → BitVec n → Memory n
  | [], a, v => Memory.push a v []
  | (k, x) :: m, a, v =>
    if a < k then Memory.push a v ((k, x) :: m)
    else if a = k then Memory.push a v m
    else (k, x) :: Memory.write m a v

/-- The canonical form from an address on: addresses rise strictly, starting at `lo` or above; no value is 0. -/
def Memory.wfFrom {n : Nat} : Nat → Memory n → Bool
  | _, [] => true
  | lo, (k, x) :: m => lo ≤ k && x != 0 && Memory.wfFrom (k + 1) m

/-- The canonical form. -/
def Memory.wf {n : Nat} (m : Memory n) : Bool := Memory.wfFrom 0 m

/-- Every listed address is below `size`. -/
def Memory.below {n : Nat} (m : Memory n) (size : Nat) : Bool := m.all (fun c => c.1 < size)

/-- The memory with value `f j` at the last `count` of the addresses `j` below `size`. -/
def Memory.tabulate {n : Nat} (f : Nat → BitVec n) (size : Nat) : Nat → Memory n
  | 0 => []
  | count + 1 => Memory.push (size - (count + 1)) (f (size - (count + 1))) (Memory.tabulate f size count)

/-! ### The register file -/

/-- `MemRead(off, n)`, zero-extended to 32 bits (20_memory.md R60; 30_encoding.md R97). -/
def memRead (rf : Memory 8) (off : Nat) : Width → Word
  | .w8 => (Memory.read rf off).setWidth 32
  | .w16 => (Memory.read rf off ++ Memory.read rf (off + 1)).setWidth 32
  | .w32 => Memory.read rf off ++ Memory.read rf (off + 1) ++ Memory.read rf (off + 2) ++ Memory.read rf (off + 3)

/-- `MemWrite(off, n, v)`: the n-byte big-endian image of the low 8n bits of v (20_memory.md R60). -/
def memWrite (rf : Memory 8) (off : Nat) (w : Width) (v : Word) : Memory 8 :=
  match w with
  | .w8 => Memory.write rf off (v.extractLsb' 0 8)
  | .w16 => Memory.write (Memory.write rf off (v.extractLsb' 8 8)) (off + 1) (v.extractLsb' 0 8)
  | .w32 =>
    Memory.write
      (Memory.write
        (Memory.write (Memory.write rf off (v.extractLsb' 24 8)) (off + 1) (v.extractLsb' 16 8))
        (off + 2) (v.extractLsb' 8 8))
      (off + 3) (v.extractLsb' 0 8)

/-- `trunc_w(D)`: the low w bits of the data operand (40_access.md R122). -/
def truncTo (w : Width) (d : Word) : Word :=
  match w with
  | .w8 => (d.extractLsb' 0 8).setWidth 32
  | .w16 => (d.extractLsb' 0 16).setWidth 32
  | .w32 => d

/-- The masked store value `ms(old, v, W, K) = (v & W) | (old & K)` (40_access.md R126). -/
def ms (old v W K : Word) : Word := (v &&& W) ||| (old &&& K)

/-- Byte `i` of an image (30_encoding.md R90; log entry 13). -/
def imageByte (img : Image) (i : Nat) : Byte :=
  if i < img.size then Memory.read img.cells i else 0

/-- The register file that holds an image's bytes (44_host.md R251). -/
def imageMemory (img : Image) : Memory 8 :=
  img.cells.foldr (fun c m => if c.1 < img.size then Memory.write m c.1 c.2 else m) []

/-! ### Named updates of the state -/

def State.withRf (s : State) (rf : Memory 8) : State := { s with rf := rf }

def State.withDw (s : State) (dw : Memory 32) : State := { s with dw := dw }

def State.withClock (s : State) (freqHz refCyc : Nat) : State := { s with freqHz := freqHz, refCyc := refCyc }

def State.withInput (s : State) (input : List Transaction) : State := { s with input := input }

/-- `emit E`: append an event to the output stream (00_scope.md R11). -/
def State.emit (s : State) (e : Event) : State := { s with events := s.events ++ [e] }

/-- `return v`: give the transaction's response (00_scope.md R11; 30_encoding.md R97). -/
def State.respond (s : State) (r : Response) : State := { s with responses := s.responses ++ [r] }

/-- The response of one word (30_encoding.md R97). -/
def Response.word (v : Word) : Response := { q0 := v, q1 := none }

/-- `MemWrite` on the state's register file. -/
def State.store (s : State) (off : Nat) (w : Width) (v : Word) : State := s.withRf (memWrite s.rf off w v)

/-- `MemRead` on the state's register file. -/
def State.load (s : State) (off : Nat) (w : Width) : Word := memRead s.rf off w

/-- The masked store of a documented write (40_access.md R126). -/
def State.maskedStore (s : State) (off : Nat) (w : Width) (v : Word) (e : Descriptor) : State :=
  s.store off w (ms (s.load off w) v e.W e.K)

/-- A snapshot: RF between two transactions, as an image (44_host.md R252). -/
def State.snapshot (s : State) : Image := { size := s.profile.periphSize, cells := s.rf }

end Sys2Proof.Machine
end

