-- ==== Sys2Proof/Machine/Operands.lean ====
section
/-! DEFINITION. Sys2Proof/Machine/Operands.lean: from an address operand to what it names: the contract checks
(spec/20_memory.md R64 to R66), the decoders of both windows (spec/40_access.md R121, spec/43_dma.md R223), and the
named registers (spec/10_state.md R27 to R32, R38). -/

namespace Sys2Proof.Machine

/-- The alignment check and then the bounds check of an access of `n` bytes at `a` in a window of `size` bytes, or
no fault (20_memory.md R64 to R66). The width has been checked by the decoder (30_encoding.md R95 d, e). -/
def contractFault (cmd : Byte) (a : Word) (n size : Nat) : Option Fault :=
  if a.toNat % n ≠ 0 then some (.misaligned cmd a)
  else if size < a.toNat + n then some (.outOfWindow cmd a)
  else none

/-- The checks of a peripheral access (40_access.md R120). -/
def periphFault (p : Profile) (cmd : Byte) (a : Word) (w : Width) : Option Fault :=
  contractFault cmd a w.bytes p.periphSize

/-- The checks of a DMA-window access: presence, alignment, bounds (43_dma.md R222). -/
def dmaFault (p : Profile) (cmd : Byte) (a : Word) : Option Fault :=
  if p.hasDma then contractFault cmd a 4 p.dmaSize else some (.noWindow cmd a)

/-! ### The DMA decoder -/

/-- The index of an offset in a list of offsets, counting from `i`. -/
def indexFrom (off : Nat) : Nat → List Nat → Option Nat
  | _, [] => none
  | i, o :: os => if o = off then some i else indexFrom off (i + 1) os

/-- The register of a kind at an offset, if there is one. -/
def kindAt (l : DmaLayout) (off : Nat) (k : DmaKind) : Option DmaReg :=
  match indexFrom off 0 (l.offsets k) with
  | some i => some { kind := k, index := i }
  | none => none

/-- `ddesc(off)`: the DMA register at an offset, or none (43_dma.md R223). -/
def ddesc (p : Profile) (off : Nat) : Option DmaReg := DmaKind.all.findSome? (kindAt p.dmaLayout off)

/-- The offset of a DMA register under the layout (43_dma.md R221). -/
def dmaOffset (p : Profile) (r : DmaReg) : Option Nat := (p.dmaLayout.offsets r.kind)[r.index]?

/-- `W(kind)` (43_dma.md R224). -/
def dmaMaskOf (p : Profile) (k : DmaKind) : Word := p.dmaMask.at k

/-- `DMA_RESET(j)` for word `j`: the kind's reset value, 0 for a raw word (43_dma.md R228). -/
def dmaResetOf (p : Profile) (j : Nat) : Word :=
  match ddesc p (4 * j) with
  | some r => p.dmaReset.at r.kind
  | none => 0

/-- How many words the DMA window has: none where it is absent (10_state.md R24). -/
def dmaWords (p : Profile) : Nat := if p.hasDma then p.dmaSize / 4 else 0

/-- The word of the DMA window at a byte offset. -/
def State.dmaWord (s : State) (off : Nat) : Word := Memory.read s.dw (off / 4)

/-! ### The named registers -/

/-- PLLCR (10_state.md R27). -/
def State.pllcr (s : State) : Half := (s.load s.profile.offPllcr .w16).setWidth 16

/-- PLLFSR (R28). -/
def State.pllfsr (s : State) : Half := (s.load s.profile.offPllfsr .w16).setWidth 16

/-- RTCTIME (R29). -/
def State.rtctime (s : State) : Word := s.load s.profile.offRtctime .w32

/-- DAYR (R30). -/
def State.dayr (s : State) : Half := (s.load s.profile.offDayr .w16).setWidth 16

/-- RTCCTL, zero-extended from `W_RTCCTL_WIDTH` (R31). -/
def State.rtcctl (s : State) : Word := s.load s.profile.offRtcctl s.profile.rtcctlWidth

/-- IDR (R32). -/
def State.idr (s : State) : Word := s.load s.profile.offIdr .w32

/-- A register of the DMA window; none where the layout has no such register (R38). -/
def State.dmaReg (s : State) (r : DmaReg) : Option Word := (dmaOffset s.profile r).map s.dmaWord

/-- Byte `i` belongs to RTCTIME or DAYR: the set CAL of 70_reset_and_hazards.md R300. -/
def isCalendar (p : Profile) (i : Nat) : Bool :=
  (p.offRtctime ≤ i && i < p.offRtctime + 4) || (p.offDayr ≤ i && i < p.offDayr + 2)

/-- The CPU core's routing of an effective address: the window it falls in and its offset there; the block itself sees
only the offset (20_memory.md R62; log entry 20). -/
def route (p : Profile) (ea : Word) : Option (Win × Word) :=
  if (ea - p.periphBase).toNat < p.periphSize then some (.periph, ea - p.periphBase)
  else if p.hasDma && (ea - p.dmaBase).toNat < p.dmaSize then some (.dma, ea - p.dmaBase)
  else none

end Sys2Proof.Machine
end

