-- ==== Sys2Proof/Machine/Flags.lean ====
section
/-! DEFINITION. Sys2Proof/Machine/Flags.lean: the status bits, which are fields of registers: the block has no condition
codes (spec/10_state.md R26). -/

namespace Sys2Proof.Machine

/-- PROT, the protect bit of PLLFSR (10_state.md R28; 41_clock_power.md R163). -/
def State.prot (s : State) : Bool := s.pllfsr.getLsbD s.profile.bitProt

/-- DISPLL, the "PLL disabled" bit of PLLCR (R27; 41_clock_power.md R164, R165). -/
def State.dispLl (s : State) : Bool := s.pllcr.getLsbD s.profile.bitDispll

/-- `isPowered()` (41_clock_power.md R165). -/
def State.isPowered (s : State) : Bool := !s.dispLl

/-- RTCEN, the RTC-enable bit of RTCCTL (R31; 42_rtc.md R195). -/
def State.rtcEnabled (s : State) : Bool := s.rtcctl.getLsbD s.profile.bitRtcen

/-- The 32 kHz status bit (R28; 42_rtc.md R198). -/
def State.clk32Status (s : State) : Bool := (s.load s.profile.clk32Off .w16).getLsbD s.profile.bitClk32

end Sys2Proof.Machine
end

