-- ==== Sys2Proof/Machine/Clock.lean ====
section
/-! DEFINITION. Sys2Proof/Machine/Clock.lean: the clock model, the CLOCK and POWER handlers, and QPWR and QFREQ
(spec/41_clock_power.md). -/

namespace Sys2Proof.Machine

/-- `computeFrequency(cr, fsr)` = (FREQ_HZ, REF_CYC) for a prescaler bit and a crystal (41_clock_power.md R160, R161). -/
def computeFrequency (bitPresc crystalHz : Nat) (cr fsr : Half) : Nat × Nat :=
  let presc := if cr.getLsbD bitPresc then 2 else 1
  let p := (fsr.extractLsb' 0 8).toNat
  let q := (fsr.extractLsb' 8 4).toNat
  let ref := 2 * (14 * (p + 1) + q + 1) / presc
  (ref * crystalHz, ref)

/-- The derived clock state that the stored PLL registers give. -/
def State.derivedClock (s : State) : Nat × Nat :=
  computeFrequency s.profile.bitPresc s.profile.crystalHz s.pllcr s.pllfsr

/-- `recompute()`: from the stored registers, never from the value written (41_clock_power.md R162). -/
def recompute (s : State) : State := s.withClock s.derivedClock.1 s.derivedClock.2

/-- The CLOCK handler of a PLLFSR write: ignored entirely while PROT is set (41_clock_power.md R163). -/
def clockHandler (e : Descriptor) (v : Word) (s : State) : State :=
  if s.prot then s else recompute (s.maskedStore s.profile.offPllfsr .w16 v e)

/-- The POWER handler of a PLLCR write: store, recompute, then EndTimeslice if the stored DISPLL is set
(41_clock_power.md R164). -/
def powerHandler (e : Descriptor) (v : Word) (s : State) : State :=
  let t := recompute (s.maskedStore s.profile.offPllcr .w16 v e)
  if t.dispLl then t.emit .endTimeslice else t

/-- QPWR (41_clock_power.md R166). -/
def execQpwr (s : State) : Outcome := .next (s.respond (Response.word (if s.isPowered then 1 else 0)))

/-- A clock value as a response word; one that does not fit is a free value (30_encoding.md R97; log entry 10). -/
def clockWord (n : Nat) : Word := if n < 2 ^ 32 then BitVec.ofNat 32 n else Config.oversizeWord n

/-- QFREQ: the stored pair, not a recomputation (41_clock_power.md R167). -/
def execQfreq (s : State) : Outcome :=
  .next (s.respond { q0 := clockWord s.freqHz, q1 := some (clockWord s.refCyc) })

end Sys2Proof.Machine
end

