-- ==== Sys2Proof/Machine/Access.lean ====
section
/-! DEFINITION. Sys2Proof/Machine/Access.lean: peripheral-window accesses: the shared datapath and RD8, RD16, RD32, WR8,
WR16, WR32 (spec/40_access.md). -/

namespace Sys2Proof.Machine

/-- The side-effect mux: what a documented write does, by class (40_access.md R127 to R131). -/
def sideEffect (c : SideEffect) (e : Descriptor) (off : Nat) (w : Width) (v : Word) (s : State) : State :=
  match c with
  | .none => s.maskedStore off w v e
  | .rtc => s.maskedStore off w v e
  | .fixed => s
  | .clock => clockHandler e v s
  | .power => powerHandler e v s

/-- A read of the peripheral window, after its checks (40_access.md R123, R124). -/
def readAt (off : Nat) (w : Width) (s : State) : State :=
  let val := s.load off w
  match s.profile.lookup off w with
  | none => (s.emit (.diag .periph off val w .read)).respond (Response.word val)
  | some _ => s.respond (Response.word val)

/-- A write of the peripheral window, after its checks, with the truncated value (40_access.md R125, R127). A class code
that is no class is refused (30_encoding.md R102; log entry 7). -/
def writeAt (off : Nat) (w : Width) (v : Word) (s : State) : Outcome :=
  match s.profile.lookup off w with
  | none => .next (((s.store off w v).emit (.diag .periph off v w .write)).respond (Response.word 0))
  | some e =>
    match SideEffect.ofCode e.cls with
    | some c => .next ((sideEffect c e off w v s).respond (Response.word 0))
    | none => .refused .illFormedProfile

/-- A peripheral read with its checks (40_access.md R120). -/
def periphRead (cmd : Byte) (w : Width) (a : Word) (s : State) : Outcome :=
  match periphFault s.profile cmd a w with
  | some f => .fault f
  | none => .next (readAt a.toNat w s)

/-- A peripheral write with its checks and its truncation (40_access.md R120, R122). -/
def periphWrite (cmd : Byte) (w : Width) (a d : Word) (s : State) : Outcome :=
  match periphFault s.profile cmd a w with
  | some f => .fault f
  | none => writeAt a.toNat w (truncTo w d) s

/-- RD8 (40_access.md R140). -/
def execRd8 (a : Word) (s : State) : Outcome := periphRead 0x00 .w8 a s

/-- RD16 (R141). -/
def execRd16 (a : Word) (s : State) : Outcome := periphRead 0x01 .w16 a s

/-- RD32 (R142). -/
def execRd32 (a : Word) (s : State) : Outcome := periphRead 0x02 .w32 a s

/-- WR8 (R143). -/
def execWr8 (a d : Word) (s : State) : Outcome := periphWrite 0x10 .w8 a d s

/-- WR16 (R144). -/
def execWr16 (a d : Word) (s : State) : Outcome := periphWrite 0x11 .w16 a d s

/-- WR32 (R145). -/
def execWr32 (a d : Word) (s : State) : Outcome := periphWrite 0x12 .w32 a d s

end Sys2Proof.Machine
end

