-- ==== Sys2Proof/Machine/Dma.lean ====
section
/-! DEFINITION. Sys2Proof/Machine/Dma.lean: the DMA window: DRD32 and DWR32 (spec/43_dma.md). -/

namespace Sys2Proof.Machine

/-- A DMA-window read, after its checks (43_dma.md R225, R227). -/
def dmaReadAt (off : Nat) (s : State) : State :=
  let val := s.dmaWord off
  match ddesc s.profile off with
  | none => (s.emit (.diag .dma off val .w32 .read)).respond (Response.word val)
  | some _ => s.respond (Response.word val)

/-- A DMA-window write, after its checks (43_dma.md R226, R227). -/
def dmaWriteAt (off : Nat) (d : Word) (s : State) : State :=
  match ddesc s.profile off with
  | none => ((s.withDw (Memory.write s.dw (off / 4) d)).emit (.diag .dma off d .w32 .write)).respond (Response.word 0)
  | some r =>
    let v := d &&& dmaMaskOf s.profile r.kind
    let t := s.withDw (Memory.write s.dw (off / 4) v)
    (if r.kind = .dcmd then t.emit (.dmaCmd r.index v) else t).respond (Response.word 0)

/-- DRD32 (43_dma.md R225). -/
def execDrd32 (a : Word) (s : State) : Outcome :=
  match dmaFault s.profile 0x0A a with
  | some f => .fault f
  | none => .next (dmaReadAt a.toNat s)

/-- DWR32 (43_dma.md R226). -/
def execDwr32 (a d : Word) (s : State) : Outcome :=
  match dmaFault s.profile 0x1A a with
  | some f => .fault f
  | none => .next (dmaWriteAt a.toNat d s)

end Sys2Proof.Machine
end

