-- ==== Sys2Proof/Machine/HostEvents.lean ====
section
/-! DEFINITION. Sys2Proof/Machine/HostEvents.lean: RESET, the cold start, and RESTORE (spec/70_reset_and_hazards.md,
spec/44_host.md). -/

namespace Sys2Proof.Machine

/-- Zero-fill, calendar bytes exempt (70_reset_and_hazards.md R300, R301). -/
def zeroFill (p : Profile) (rf : Memory 8) : Memory 8 := rf.filter (fun c => isCalendar p c.1)

/-- Apply the reset table: raw stores, no mask, no handler, no Diag (R300, R302). -/
def applyTable (table : List ResetEntry) (rf : Memory 8) : Memory 8 :=
  table.foldl (fun m e => memWrite m e.off e.width e.value) rf

/-- The register file after RESET. -/
def resetRf (p : Profile) (rf : Memory 8) : Memory 8 := applyTable p.resetTable (zeroFill p rf)

/-- The DMA window after RESET: every word its reset value, only if HAS_DMA (R300; 43_dma.md R228). -/
def resetDw (p : Profile) (dw : Memory 32) : Memory 32 :=
  if p.hasDma then Memory.tabulate (dmaResetOf p) (dmaWords p) (dmaWords p) else dw

/-- `resetAll()`: RF, DW, then recompute; no event (R300, R304). -/
def resetAll (s : State) : State := recompute ((s.withRf (resetRf s.profile s.rf)).withDw (resetDw s.profile s.dw))

/-- The cold-start state: RESET applied to a register file whose calendar bytes are the draw CAL0 and whose other
bytes, like DW, are arbitrary (R306). The empty outputs and input are log entries 3 and 4. -/
def State.coldStart (p : Profile) (rf : Memory 8) (dw : Memory 32) : State :=
  resetAll { profile := p, rf := rf, freqHz := 0, refCyc := 0, dw := dw, events := [], responses := [], input := [] }

/-- RESET (R300). -/
def execReset (s : State) : Outcome := .next ((resetAll s).respond (Response.word 0))

/-- RESTORE: the image verbatim, then recompute; DW and the event stream untouched (44_host.md R251). -/
def execRestore (img : Image) (s : State) : Outcome :=
  if img.size = s.profile.periphSize then
    .next ((recompute (s.withRf (imageMemory img))).respond (Response.word 0))
  else .fault (.badImage img.size)

end Sys2Proof.Machine
end

