-- ==== Sys2Proof/Machine/Rtc.lean ====
section
/-! DEFINITION. Sys2Proof/Machine/Rtc.lean: the real-time clock: the calendar fields, TICK, SETRTC and CLK32
(spec/42_rtc.md). -/

namespace Sys2Proof.Machine

/-- The four calendar fields as naturals (42_rtc.md R190). -/
structure Calendar where
  sec : Nat
  min : Nat
  hr : Nat
  day : Nat
deriving DecidableEq, Repr

/-- Unpack the fields from RTCTIME and DAYR, each at its width (42_rtc.md R191, R193). -/
def State.calendar (s : State) : Calendar where
  sec := (s.rtctime.extractLsb' s.profile.secLo 6).toNat
  min := (s.rtctime.extractLsb' s.profile.minLo 6).toNat
  hr := (s.rtctime.extractLsb' s.profile.hrLo 5).toNat
  day := (s.dayr.extractLsb' 0 9).toNat

/-- The RTCTIME value of a calendar: non-field bits 0 (42_rtc.md R192). -/
def packTime (p : Profile) (c : Calendar) : Word :=
  (BitVec.ofNat 32 c.hr <<< p.hrLo) ||| (BitVec.ofNat 32 c.min <<< p.minLo) ||| (BitVec.ofNat 32 c.sec <<< p.secLo)

/-- `pack(h, m, s, d)` (42_rtc.md R192). -/
def State.pack (s : State) (c : Calendar) : State :=
  (s.store s.profile.offRtctime .w32 (packTime s.profile c)).store s.profile.offDayr .w16 (BitVec.ofNat 32 c.day)

/-- One second: each comparison runs on every tick, on naturals, with no wrap at a field's width (42_rtc.md R195). -/
def Calendar.advance (c : Calendar) : Calendar :=
  let s1 := c.sec + 1
  let m1 := if 60 ≤ s1 then c.min + 1 else c.min
  let h1 := if 60 ≤ m1 then c.hr + 1 else c.hr
  { sec := if 60 ≤ s1 then 0 else s1
    min := if 60 ≤ m1 then 0 else m1
    hr := if 24 ≤ h1 then 0 else h1
    day := if 24 ≤ h1 then (c.day + 1) % 512 else c.day }

/-- The calendar of an administrative set, each field masked to its width (42_rtc.md R197). -/
def Calendar.ofOperands (days : Word) (hours minutes seconds : Byte) : Calendar where
  sec := (seconds.extractLsb' 0 6).toNat
  min := (minutes.extractLsb' 0 6).toNat
  hr := (hours.extractLsb' 0 5).toNat
  day := (days.extractLsb' 0 9).toNat

/-- TICK: a no-op unless RTCEN is set (42_rtc.md R195). -/
def execTick (s : State) : Outcome :=
  if s.rtcEnabled then .next ((s.pack s.calendar.advance).respond (Response.word 0))
  else .next (s.respond (Response.word 0))

/-- SETRTC (42_rtc.md R197). -/
def execSetrtc (days : Word) (hours minutes seconds : Byte) (s : State) : Outcome :=
  .next ((s.pack (Calendar.ofOperands days hours minutes seconds)).respond (Response.word 0))

/-- CLK32: flip the 32 kHz status bit; no gate, no recompute (42_rtc.md R198). -/
def execClk32 (s : State) : Outcome :=
  let off := s.profile.clk32Off
  .next ((s.store off .w16 (s.load off .w16 ^^^ ((1 : Word) <<< s.profile.bitClk32))).respond (Response.word 0))

end Sys2Proof.Machine
end

