-- ==== Sys2Proof/Machine/Dispatch.lean ====
section
/-! DEFINITION. Sys2Proof/Machine/Dispatch.lean: each transaction to its meaning. -/

namespace Sys2Proof.Machine

def exec (i : Instr) (s : State) : Host.Outcome State Fault Refusal :=
  match i with
  | .rd8 a => Sys2Proof.Machine.execRd8 a s
  | .rd16 a => Sys2Proof.Machine.execRd16 a s
  | .rd32 a => Sys2Proof.Machine.execRd32 a s
  | .wr8 a d => Sys2Proof.Machine.execWr8 a d s
  | .wr16 a d => Sys2Proof.Machine.execWr16 a d s
  | .wr32 a d => Sys2Proof.Machine.execWr32 a d s
  | .drd32 a => Sys2Proof.Machine.execDrd32 a s
  | .dwr32 a d => Sys2Proof.Machine.execDwr32 a d s
  | .tick => Sys2Proof.Machine.execTick s
  | .clk32 => Sys2Proof.Machine.execClk32 s
  | .setrtc days h m sec => Sys2Proof.Machine.execSetrtc days h m sec s
  | .reset => Sys2Proof.Machine.execReset s
  | .qpwr => Sys2Proof.Machine.execQpwr s
  | .qfreq => Sys2Proof.Machine.execQfreq s
  | .restore img => Sys2Proof.Machine.execRestore img s

end Sys2Proof.Machine
end

