-- ==== Sys2Proof/Machine/Fetch.lean ====
section
/-! DEFINITION. Sys2Proof/Machine/Fetch.lean: taking the next transaction of the input sequence (spec/10_state.md R25,
spec/44_host.md R254; log entry 4), and the fault of a word that does not decode. -/

namespace Sys2Proof.Machine

/-- The next transaction and the state with it taken from the input, or none when the sequence has ended. -/
def fetch (s : State) : Option (Transaction × State) :=
  match s.input with
  | [] => none
  | t :: rest => some (t, s.withInput rest)

/-- The fault of a decode error (30_encoding.md R95). -/
def decodeFault : DecodeError → Fault
  | .illegalCommand cmd => .illegalCommand cmd
  | .badWidth cmd a => .badWidth cmd a

/-- Put a transaction in front of the input sequence. -/
def State.present (s : State) (t : Transaction) : State := s.withInput (t :: s.input)

end Sys2Proof.Machine
end

