-- ==== Sys2Proof/Machine/Step.lean ====
section
/-! DEFINITION. Sys2Proof/Machine/Step.lean: one step is one transaction (spec/00_scope.md R12, spec/20_memory.md R70). -/

namespace Sys2Proof.Machine

/-- One transaction: refuse an ill-formed profile (30_encoding.md R102), take the next transaction of the input
(10_state.md R25), decode it (R95), and do it. -/
def step (s : State) : Host.Outcome State Fault Refusal :=
  if s.profile.wf then
    match fetch s with
    | none => .refused .endOfRun
    | some (t, s') =>
      match decode t with
      | .error e => .fault (decodeFault e)
      | .ok i => exec i s'
  else .refused .illFormedProfile

/-- The state with the transaction of a table word as its next one. RESTORE's image operand is `PERIPH_SIZE` zero bytes
(log entries 4, 5). -/
def State.withFetchWord (s : State) (nbits w : Nat) : State :=
  s.present (tableTransaction s.profile.periphSize nbits w)

end Sys2Proof.Machine
end

