-- ==== Sys2Proof/Machine/Asm.lean ====
section
/-! DEFINITION. Sys2Proof/Machine/Asm.lean: the pseudo-instructions and the textual syntax of transactions
(spec/30_encoding.md R104, R105). A line is a list of characters; `none` says that it is no line of the syntax (log
entry 16). -/

namespace Sys2Proof.Machine

/-! ### Pseudo-instructions -/

/-- The pseudo-instructions (30_encoding.md R105). -/
inductive Pseudo where
  | tickN (n : Nat)
  | setPll (cr fsr : Word)
  | nop
deriving DecidableEq, Repr

/-- What a pseudo-instruction expands to under a profile (30_encoding.md R105). NOP is a plain QPWR, whose response stands
among the run's like any other: DESIGN CHOICE, log entry 23, where R105 says that the response is discarded. -/
def Pseudo.expand (p : Profile) : Pseudo → List Instr
  | .tickN n => List.replicate n .tick
  | .setPll cr fsr => [.wr16 (BitVec.ofNat 32 p.offPllfsr) fsr, .wr16 (BitVec.ofNat 32 p.offPllcr) cr]
  | .nop => [.qpwr]

/-! ### Numbers, register names, operands -/

/-- A space or a tab. -/
def isBlank (c : Char) : Bool := c == ' ' || c == '\t'

/-- A field without its leading and trailing blanks. -/
def trimBlanks (cs : List Char) : List Char :=
  ((cs.dropWhile isBlank).reverse.dropWhile isBlank).reverse

/-- The fields between commas. -/
def splitCommas : List Char → List (List Char)
  | [] => [[]]
  | c :: cs =>
    if c == ',' then [] :: splitCommas cs
    else
      match splitCommas cs with
      | [] => [[c]]
      | f :: fs => (c :: f) :: fs

/-- The value of a hexadecimal digit. -/
def digitValue (c : Char) : Option Nat :=
  let k := c.toNat
  if 48 ≤ k ∧ k ≤ 57 then some (k - 48)
  else if 65 ≤ k ∧ k ≤ 70 then some (k - 55)
  else if 97 ≤ k ∧ k ≤ 102 then some (k - 87)
  else none

/-- The number that digits of a base give, after the digits read so far. -/
def readDigits (base : Nat) : Nat → List Char → Option Nat
  | acc, [] => some acc
  | acc, c :: cs =>
    match digitValue c with
    | some v => if v < base then readDigits base (acc * base + v) cs else none
    | none => none

/-- A number, decimal or `0x` hex (30_encoding.md R104). -/
def readNumber : List Char → Option Nat
  | [] => none
  | '0' :: 'x' :: [] => none
  | '0' :: 'x' :: cs => readDigits 16 0 cs
  | cs => readDigits 10 0 cs

/-- A number that fits a 32-bit operand. -/
def readWord (cs : List Char) : Option Word :=
  match readNumber cs with
  | some n => if n < 2 ^ 32 then some (BitVec.ofNat 32 n) else none
  | none => none

/-- The DMA register kind of a name (30_encoding.md R104). -/
def readKind (cs : List Char) : Option DmaKind :=
  if cs = "DCSR".toList then some .dcsr
  else if cs = "DDADR".toList then some .ddadr
  else if cs = "DSADR".toList then some .dsadr
  else if cs = "DTADR".toList then some .dtadr
  else if cs = "DCMD".toList then some .dcmd
  else if cs = "DRCMR".toList then some .drcmr
  else none

/-- The offset of an indexed DMA register name `KIND[n]`. -/
def readDmaName (p : Profile) (cs : List Char) : Option Nat :=
  let rest := cs.dropWhile (fun c => c != '[')
  match readKind (cs.takeWhile (fun c => c != '[')), rest.reverse with
  | some k, ']' :: idx =>
    match readNumber (idx.reverse.drop 1) with
    | some n => dmaOffset p { kind := k, index := n }
    | none => none
  | _, _ => none

/-- The offset a symbolic register name stands for under the active profile (30_encoding.md R104). -/
def readName (p : Profile) (cs : List Char) : Option Nat :=
  if cs = "PLLCR".toList then some p.offPllcr
  else if cs = "PLLFSR".toList then some p.offPllfsr
  else if cs = "IDR".toList then some p.offIdr
  else if cs = "RTCTIME".toList then some p.offRtctime
  else if cs = "RTCCTL".toList then some p.offRtcctl
  else if cs = "DAYR".toList then some p.offDayr
  else readDmaName p cs

/-- An offset operand: a number or a register name. -/
def readOffset (p : Profile) (cs : List Char) : Option Word :=
  match readName p cs with
  | some n => if n < 2 ^ 32 then some (BitVec.ofNat 32 n) else none
  | none => readWord cs

/-! ### Lines -/

/-- A transaction with one offset operand. -/
def lineOff (p : Profile) (f : Word → Instr) : List (List Char) → Option (List Instr)
  | [o] => (readOffset p o).map (fun a => [f a])
  | _ => none

/-- A transaction with an offset and a value. -/
def lineOffValue (p : Profile) (f : Word → Word → Instr) : List (List Char) → Option (List Instr)
  | [o, v] =>
    match readOffset p o, readWord v with
    | some a, some d => some [f a d]
    | _, _ => none
  | _ => none

/-- A transaction without operands. -/
def lineBare (is : List Instr) : List (List Char) → Option (List Instr)
  | [] => some is
  | _ => none

/-- `SETRTC d, h, m, s`: d goes to A, and the low bytes of h, m and s to D (30_encoding.md R104). -/
def lineSetrtc : List (List Char) → Option (List Instr)
  | [d, h, m, s] =>
    match readWord d, readNumber h, readNumber m, readNumber s with
    | some a, some h, some m, some s => some [.setrtc a (BitVec.ofNat 8 h) (BitVec.ofNat 8 m) (BitVec.ofNat 8 s)]
    | _, _, _, _ => none
  | _ => none

/-- `TICKN n` (30_encoding.md R105). -/
def lineTickN (p : Profile) : List (List Char) → Option (List Instr)
  | [n] => (readNumber n).map (fun k => (Pseudo.tickN k).expand p)
  | _ => none

/-- `SETPLL cr, fsr` (30_encoding.md R105). -/
def lineSetPll (p : Profile) : List (List Char) → Option (List Instr)
  | [cr, fsr] =>
    match readWord cr, readWord fsr with
    | some c, some f => some ((Pseudo.setPll c f).expand p)
    | _, _ => none
  | _ => none

/-- `RESTORE <image-name>`, with the images that have names. -/
def lineRestore (images : List (List Char × Image)) : List (List Char) → Option (List Instr)
  | [name] => (images.find? (fun x => x.1 = name)).map (fun x => [.restore x.2])
  | _ => none

/-- The transactions of a mnemonic and its operand fields (30_encoding.md R104, R105). -/
def assembleFields (p : Profile) (images : List (List Char × Image)) (mn : List Char) (ops : List (List Char)) :
    Option (List Instr) :=
  if mn = "RD8".toList then lineOff p .rd8 ops
  else if mn = "RD16".toList then lineOff p .rd16 ops
  else if mn = "RD32".toList then lineOff p .rd32 ops
  else if mn = "WR8".toList then lineOffValue p .wr8 ops
  else if mn = "WR16".toList then lineOffValue p .wr16 ops
  else if mn = "WR32".toList then lineOffValue p .wr32 ops
  else if mn = "DRD32".toList then lineOff p .drd32 ops
  else if mn = "DWR32".toList then lineOffValue p .dwr32 ops
  else if mn = "TICK".toList then lineBare [.tick] ops
  else if mn = "CLK32".toList then lineBare [.clk32] ops
  else if mn = "SETRTC".toList then lineSetrtc ops
  else if mn = "RESET".toList then lineBare [.reset] ops
  else if mn = "QPWR".toList then lineBare [.qpwr] ops
  else if mn = "QFREQ".toList then lineBare [.qfreq] ops
  else if mn = "RESTORE".toList then lineRestore images ops
  else if mn = "TICKN".toList then lineTickN p ops
  else if mn = "SETPLL".toList then lineSetPll p ops
  else if mn = "NOP".toList then lineBare (Pseudo.nop.expand p) ops
  else none

/-- One line: `;` starts a comment; a line with nothing before it is no transaction (30_encoding.md R104). -/
def assembleLine (p : Profile) (images : List (List Char × Image)) (line : List Char) : Option (List Instr) :=
  let body := trimBlanks (line.takeWhile (fun c => c != ';'))
  let mn := body.takeWhile (fun c => !isBlank c)
  let rest := trimBlanks (body.dropWhile (fun c => !isBlank c))
  if mn = [] then some []
  else assembleFields p images mn (if rest = [] then [] else (splitCommas rest).map trimBlanks)

/-- A text, line by line (30_encoding.md R104). -/
def assemble (p : Profile) (images : List (List Char × Image)) : List (List Char) → Option (List Instr)
  | [] => some []
  | l :: ls =>
    match assembleLine p images l, assemble p images ls with
    | some is, some js => some (is ++ js)
    | _, _ => none

end Sys2Proof.Machine
end

