-- ==== Sys2Proof/Machine/Run.lean ====
section
/-! DEFINITION. Sys2Proof/Machine/Run.lean: a run, a finite sequence of transactions applied to an initial state, and
what is observed of it (spec/44_host.md R254). The sequence is the state's input, so a run is the step, iterated; a word
that does not decode is a transaction of a run like any other. -/

namespace Sys2Proof.Machine

/-- How a run ends (44_host.md R254). -/
inductive Ending where
  /-- After its last transaction. -/
  | completed
  /-- At a transaction that raises this fault. No later transaction is applied. -/
  | faulted (f : Fault)
  /-- At a transaction that the model refuses: an ill-formed profile, no run of the spec's (log entry 7). -/
  | refused (r : Refusal)
deriving DecidableEq, Repr

/-- What a run comes to: the last state, which a faulting transaction leaves as it found it (60_exceptions.md R270), and
the ending. -/
structure RunResult where
  final : State
  ending : Ending
deriving DecidableEq, Repr

/-- At most `n` steps, stopping at the first that gives no next state (44_host.md R254). -/
def runSteps : Nat → State → RunResult
  | 0, s => { final := s, ending := .completed }
  | n + 1, s =>
    match step s with
    | .next t => runSteps n t
    | .fault f => { final := s, ending := .faulted f }
    | .refused r => { final := s, ending := .refused r }

/-- The run of the transactions in the input: one step for each. -/
def State.run (s : State) : RunResult := runSteps s.input.length s

/-- The observation of a run: "the final RF, DW, FREQ_HZ and REF_CYC, the responses in order, and the event stream in
order", and the fault where one stopped it (44_host.md R254). -/
structure Observation where
  rf : Memory 8
  dw : Memory 32
  freqHz : Nat
  refCyc : Nat
  responses : List Response
  events : List Event
  ending : Ending
deriving DecidableEq, Repr

def RunResult.observe (r : RunResult) : Observation where
  rf := r.final.rf
  dw := r.final.dw
  freqHz := r.final.freqHz
  refCyc := r.final.refCyc
  responses := r.final.responses
  events := r.final.events
  ending := r.ending

/-- The observation of the run that applies these transactions to a state. -/
def State.observeRun (s : State) (ts : List Transaction) : Observation := (s.withInput ts).run.observe

/-- The transactions of a list of instructions in order, stopping at the first that gives no next state: a run of
instructions already decoded, such as an expanded pseudo-instruction (30_encoding.md R105). -/
def execAll : List Instr → State → Outcome
  | [], s => .next s
  | i :: is, s =>
    match exec i s with
    | .next t => execAll is t
    | .fault f => .fault f
    | .refused r => .refused r

end Sys2Proof.Machine
end

