-- ==== Sys2Proof/Safety.lean ====
section
/-! DEFINITION. Sys2Proof/Safety.lean: the invariant of the machine, and the words in which statements speak of
transactions: documented accesses, accesses within the contract, raw writes (spec/40_access.md, spec/20_memory.md). -/

namespace Sys2Proof.Machine

/-- The states of this hardware: a well-formed profile, both memories in canonical form inside their windows
(10_state.md R20, R24), and the derived clock state in its range (R22; 41_clock_power.md R161). -/
structure State.Inv (s : State) : Prop where
  profileWf : s.profile.wf = true
  rfWf : Memory.wf s.rf = true
  rfBelow : Memory.below s.rf s.profile.periphSize = true
  dwWf : Memory.wf s.dw = true
  dwBelow : Memory.below s.dw (dmaWords s.profile) = true
  refLow : 15 ≤ s.refCyc
  refHigh : s.refCyc ≤ 7200
  freq : s.freqHz = s.refCyc * s.profile.crystalHz

/-- An access of width `w` at `a` keeps the caller's contract: aligned and in the window (20_memory.md R64, R65). -/
abbrev inContract (p : Profile) (w : Width) (a : Word) : Prop :=
  a.toNat % w.bytes = 0 ∧ a.toNat + w.bytes ≤ p.periphSize

/-- A DMA-window access at `a` keeps the caller's contract (43_dma.md R222). -/
abbrev dmaInContract (p : Profile) (a : Word) : Prop :=
  p.hasDma = true ∧ a.toNat % 4 = 0 ∧ a.toNat + 4 ≤ p.dmaSize

/-- An access is documented when the decoder finds an entry (40_access.md R121). -/
abbrev documented (p : Profile) (w : Width) (a : Word) : Prop := (p.lookup a.toNat w).isSome = true

/-- Address `i` is one of the bytes an access of width `w` at `a` covers. -/
abbrev covers (w : Width) (a : Word) (i : Nat) : Prop := a.toNat ≤ i ∧ i < a.toNat + w.bytes

/-- The event is a diagnostic record. -/
def isDiag : Event → Bool
  | .diag _ _ _ _ _ => true
  | .endTimeslice => false
  | .dmaCmd _ _ => false

end Sys2Proof.Machine
end

