-- ==== Sys2Proof/Certificates/Slice0/Obligations.lean ====
section
/-! DEFINITION. Sys2Proof/Certificates/Slice0/Obligations.lean: the statements for the provers, from the numbered rules
of spec/. A statement about an arbitrary state holds for every profile the state may carry, so for every choice of the
spec's parameters (spec/00_scope.md R8). -/

open Sys2Proof Sys2Proof.Machine

/-! ### Decoding -/

/-- A step does the transaction that the next word decodes to, with that word taken from the input; a word that does not
decode ends it in the decoder's fault (00_scope.md R12, 10_state.md R25, 30_encoding.md R95). That the sequence is a
list in State is the model's choice (log entry 4). -/
def Obligations.StepRunsTheDecodedTransaction : Prop :=
  ∀ (s : State) (t : Transaction) (rest : List Transaction),
    s.profile.wf = true → s.input = t :: rest →
      (∀ i, decode t = .ok i → step s = exec i (s.withInput rest)) ∧
      (∀ cmd, decode t = .error (.illegalCommand cmd) → step s = .fault (.illegalCommand cmd)) ∧
      (∀ cmd a, decode t = .error (.badWidth cmd a) → step s = .fault (.badWidth cmd a))

/-- The model's own two stops: an ill-formed profile (30_encoding.md R102) and a run that has ended (44_host.md R254).
Both stops are the model's choice (log entries 4 and 7). -/
def Obligations.StepRefusesIllFormedProfileAndEndedRun : Prop :=
  ∀ s : State,
    (s.profile.wf = false → step s = .refused .illFormedProfile) ∧
    (s.profile.wf = true → s.input = [] → step s = .refused .endOfRun)

/-- Words written out from 30_encoding.md R93 and the encodings of 95_test_vectors.md section 2. The encoding is the
spec's own decision D30. -/
def Obligations.TableWordsDecode : Prop :=
  decode { word := 0x010000020000000000, image := noImage } = .ok (.rd16 0x200) ∧
  decode { word := 0x1000000005000000FF, image := noImage } = .ok (.wr8 0x005 0xFF) ∧
  decode { word := 0x1A0000020C80001234, image := noImage } = .ok (.dwr32 0x20C 0x80001234) ∧
  decode { word := 0x400000025800193D46, image := noImage } = .ok (.setrtc 600 25 61 70) ∧
  decode { word := 0x20123456789ABCDEF0, image := noImage } = .ok .tick ∧
  decode { word := 0x700000000000000000, image := noImage } = .ok .qfreq ∧
  decode { word := 0x900000000000000000, image := noImage } = .error (.illegalCommand 0x90) ∧
  decode { word := 0x130000020100000000, image := noImage } = .error (.badWidth 0x13 0x201)

/-- How A and D become operands, for each of the fifteen commands (30_encoding.md R93, R94). The encoding is the spec's
own decision D30. -/
def Obligations.OperandsComeFromTheirFields : Prop :=
  ∀ (a d : Word) (img : Image),
    decode { word := transactionWord 0x00 a d, image := img } = .ok (.rd8 a) ∧
    decode { word := transactionWord 0x01 a d, image := img } = .ok (.rd16 a) ∧
    decode { word := transactionWord 0x02 a d, image := img } = .ok (.rd32 a) ∧
    decode { word := transactionWord 0x10 a d, image := img } = .ok (.wr8 a d) ∧
    decode { word := transactionWord 0x11 a d, image := img } = .ok (.wr16 a d) ∧
    decode { word := transactionWord 0x12 a d, image := img } = .ok (.wr32 a d) ∧
    decode { word := transactionWord 0x0A a d, image := img } = .ok (.drd32 a) ∧
    decode { word := transactionWord 0x1A a d, image := img } = .ok (.dwr32 a d) ∧
    decode { word := transactionWord 0x20 a d, image := img } = .ok .tick ∧
    decode { word := transactionWord 0x30 a d, image := img } = .ok .clk32 ∧
    decode { word := transactionWord 0x40 a d, image := img } =
      .ok (.setrtc a (BitVec.ofNat 8 (d.toNat / 65536)) (BitVec.ofNat 8 (d.toNat / 256)) (BitVec.ofNat 8 d.toNat)) ∧
    decode { word := transactionWord 0x50 a d, image := img } = .ok .reset ∧
    decode { word := transactionWord 0x60 a d, image := img } = .ok .qpwr ∧
    decode { word := transactionWord 0x70 a d, image := img } = .ok .qfreq ∧
    decode { word := transactionWord 0x80 a d, image := img } = .ok (.restore img)

/-- A word decodes exactly when its command byte is one of the fifteen of 30_encoding.md R93. The encoding is the spec's
own decision D30. -/
def Obligations.LegalCommandBytesAreTheTable : Prop :=
  ∀ t : Transaction,
    (∃ i, decode t = .ok i) ↔
      t.cmd ∈ ([0x00, 0x01, 0x02, 0x10, 0x11, 0x12, 0x0A, 0x1A, 0x20, 0x30, 0x40, 0x50, 0x60, 0x70, 0x80] : List Byte)

/-- Decoding the encoding of any instruction gives it back, operands and image included (30_encoding.md section 2). -/
def Obligations.DecodeOfEncodeIsTheInstruction : Prop := ∀ i : Instr, decode (encode i) = .ok i

/-- Which fault a transaction ends in, in the spec's order, and that it runs when no condition holds (60_exceptions.md
R272, with the conditions of 30_encoding.md R95 and 20_memory.md R64 to R66). RESTORE's image check is stated in
`RestoreLoadsTheImage`. The fault outcomes are the spec's own decisions D4 and D30. -/
def Obligations.FaultsComeInTheSpecsOrder : Prop :=
  ∀ (s : State) (t : Transaction) (rest : List Transaction),
    s.profile.wf = true → s.input = t :: rest →
      let c := t.cmd
      let access := cmdOp c ≤ 1
      let n := if cmdSz c = 0 then 1 else if cmdSz c = 1 then 2 else 4
      let size := if cmdWin c then s.profile.dmaSize else s.profile.periphSize
      let illegal := 9 ≤ cmdOp c ∨ cmdRsv c = true ∨ (2 ≤ cmdOp c ∧ (cmdWin c = true ∨ cmdSz c ≠ 0))
      let badWidth := access ∧ (cmdSz c = 3 ∨ (cmdWin c = true ∧ cmdSz c ≠ 2))
      let noWindow := access ∧ cmdWin c = true ∧ s.profile.hasDma = false
      let misaligned := access ∧ t.a.toNat % n ≠ 0
      let outside := access ∧ size < t.a.toNat + n
      (illegal → step s = .fault (.illegalCommand c)) ∧
      (¬illegal → badWidth → step s = .fault (.badWidth c t.a)) ∧
      (¬illegal → ¬badWidth → noWindow → step s = .fault (.noWindow c t.a)) ∧
      (¬illegal → ¬badWidth → ¬noWindow → misaligned → step s = .fault (.misaligned c t.a)) ∧
      (¬illegal → ¬badWidth → ¬noWindow → ¬misaligned → outside → step s = .fault (.outOfWindow c t.a)) ∧
      (¬illegal → ¬badWidth → ¬noWindow → ¬misaligned → ¬outside → cmdOp c ≠ 8 → ∃ u, step s = .next u)

/-! ### The register file -/

/-- Big-endian reads and writes at every width (20_memory.md R60). -/
def Obligations.RegisterFileIsBigEndian : Prop :=
  (∀ (rf : Memory 8) (off : Nat),
    (memRead rf off .w8).toNat = (Memory.read rf off).toNat ∧
    (memRead rf off .w16).toNat = (Memory.read rf off).toNat * 2 ^ 8 + (Memory.read rf (off + 1)).toNat ∧
    (memRead rf off .w32).toNat =
      (Memory.read rf off).toNat * 2 ^ 24 + (Memory.read rf (off + 1)).toNat * 2 ^ 16 +
        (Memory.read rf (off + 2)).toNat * 2 ^ 8 + (Memory.read rf (off + 3)).toNat) ∧
  (∀ (rf : Memory 8) (off : Nat) (w : Width) (v : Word), Memory.wf rf = true →
    (∀ i, i < w.bytes →
      (Memory.read (memWrite rf off w v) (off + i)).toNat =
        (v.toNat % 2 ^ w.bits) / 2 ^ (8 * (w.bytes - 1 - i)) % 2 ^ 8) ∧
    (∀ a, ¬(off ≤ a ∧ a < off + w.bytes) → Memory.read (memWrite rf off w v) a = Memory.read rf a))

/-- Accesses of different widths see the same bytes (20_memory.md R61, its example included). The spec marks R61 as
derived from R60. -/
def Obligations.MixedWidthsSeeTheSameBytes : Prop :=
  (∀ (rf : Memory 8) (o : Nat),
    (o % 2 = 0 → Memory.read rf o = (memRead rf o .w16).extractLsb' 8 8) ∧
    (o % 4 = 0 → Memory.read rf o = (memRead rf o .w32).extractLsb' 24 8) ∧
    memRead rf (o + 2) .w16 = ((memRead rf o .w32).extractLsb' 0 16).setWidth 32) ∧
  (∀ rf : Memory 8, Memory.wf rf = true →
    let rf' := memWrite rf 0x200 .w16 0x24B3
    memRead rf' 0x200 .w8 = 0x24 ∧ memRead rf' 0x201 .w8 = 0xB3 ∧
      memRead rf' 0x200 .w32 = 0x24B30000 ||| memRead rf' 0x202 .w16)

/-- Memories in canonical form are equal data when every read agrees, and a write changes one cell only. The canonical
form is the model's (log entry 6). -/
def Obligations.CanonicalMemoriesAreDeterminedByTheirReads : Prop :=
  (∀ (n : Nat) (m m' : Memory n), Memory.wf m = true → Memory.wf m' = true →
    (∀ a, Memory.read m a = Memory.read m' a) → m = m') ∧
  (∀ (n : Nat) (m : Memory n) (a b : Nat) (v : BitVec n), Memory.wf m = true →
    Memory.wf (Memory.write m a v) = true ∧
      Memory.read (Memory.write m a v) b = if b = a then v else Memory.read m b)

/-! ### Reads and writes of the peripheral window -/

/-- RD8, RD16, RD32: the stored bytes as response; one Diag where the access is undocumented, nothing else changed
(40_access.md R123, R124). That a documented read has no side effect (R124) is the spec's own decision D7 (log entry
12). -/
def Obligations.ReadsReturnTheStoredBytes : Prop :=
  ∀ (s : State) (w : Width) (a : Word), inContract s.profile w a →
    (documented s.profile w a →
      exec (Instr.read w a) s = .next (s.respond { q0 := memRead s.rf a.toNat w, q1 := none })) ∧
    (¬documented s.profile w a →
      exec (Instr.read w a) s =
        .next ((s.emit (.diag .periph a.toNat (memRead s.rf a.toNat w) w .read)).respond
          { q0 := memRead s.rf a.toNat w, q1 := none }))

/-- RD8, RD16, RD32, DRD32, QPWR, QFREQ change no storage: every byte of RF, every word of DW and the clock state are as
before, and only an undocumented read adds an event, one Diag (20_memory.md R68; 41_clock_power.md R166, R167). That no
read has a side effect is the spec's own decision D7 (log entry 12). -/
def Obligations.ReadsAndQueriesChangeNoStorage : Prop :=
  ∀ (s t : State) (i : Instr) (w : Width) (a : Word),
    (i = Instr.read w a ∨ i = .drd32 a ∨ i = .qpwr ∨ i = .qfreq) → exec i s = .next t →
      t.rf = s.rf ∧ t.dw = s.dw ∧ t.freqHz = s.freqHz ∧ t.refCyc = s.refCyc ∧ t.profile = s.profile ∧
      t.input = s.input ∧
      (i = Instr.read w a → documented s.profile w a → t.events = s.events) ∧
      (i = Instr.read w a → ¬documented s.profile w a → ∃ e, isDiag e = true ∧ t.events = s.events ++ [e]) ∧
      (i = .drd32 a → (ddesc s.profile a.toNat).isSome = true → t.events = s.events) ∧
      (i = .drd32 a → ddesc s.profile a.toNat = none → ∃ e, isDiag e = true ∧ t.events = s.events ++ [e]) ∧
      (i = .qpwr ∨ i = .qfreq → t.events = s.events)

/-- WR8, WR16, WR32 at an undocumented offset and width store the truncated value raw and emit one Diag (40_access.md
R122, R125). That bits of D above the width are ignored (R122) is the spec's own decision D8. -/
def Obligations.UndocumentedWritesAreRaw : Prop :=
  ∀ (s : State) (w : Width) (a d : Word), inContract s.profile w a → ¬documented s.profile w a →
    exec (Instr.write w a d) s =
      .next (((s.withRf (memWrite s.rf a.toNat w d)).emit
        (.diag .periph a.toNat (BitVec.ofNat 32 (d.toNat % 2 ^ w.bits)) w .write)).respond { q0 := 0, q1 := none })

/-- WR8, WR16, WR32 at a documented register, by class (40_access.md R126 to R132). For NONE and RTC the masked store is
the whole effect, FIXED discards the write, CLOCK is ignored while PROT is set, and POWER signals when the stored DISPLL
is set. The keep mask K of the masked store (R126) is the spec's own decision D6. -/
def Obligations.DocumentedWritesFollowTheMux : Prop :=
  ∀ (s : State) (w : Width) (a d : Word) (e : Descriptor),
    s.profile.wf = true → inContract s.profile w a → s.profile.lookup a.toNat w = some e →
      let old := memRead s.rf a.toNat w
      let v := BitVec.ofNat 32 (d.toNat % 2 ^ w.bits)
      let stored := s.withRf (memWrite s.rf a.toNat w ((v &&& e.W) ||| (old &&& e.K)))
      let f := computeFrequency s.profile.bitPresc s.profile.crystalHz stored.pllcr stored.pllfsr
      let clocked := stored.withClock f.1 f.2
      let ok : Response := { q0 := 0, q1 := none }
      (e.cls = 0 → exec (Instr.write w a d) s = .next (stored.respond ok)) ∧
      (e.cls = 3 → exec (Instr.write w a d) s = .next (stored.respond ok)) ∧
      (e.cls = 4 → exec (Instr.write w a d) s = .next (s.respond ok)) ∧
      (e.cls = 1 → s.prot = true → exec (Instr.write w a d) s = .next (s.respond ok)) ∧
      (e.cls = 1 → s.prot = false → exec (Instr.write w a d) s = .next (clocked.respond ok)) ∧
      (e.cls = 2 → stored.dispLl = true →
        exec (Instr.write w a d) s = .next ((clocked.emit .endTimeslice).respond ok)) ∧
      (e.cls = 2 → stored.dispLl = false → exec (Instr.write w a d) s = .next (clocked.respond ok)) ∧
      (e.cls = 0 ∨ e.cls = 1 ∨ e.cls = 2 ∨ e.cls = 3 ∨ e.cls = 4)

/-- A transaction emits a Diag exactly when it is an undocumented access, and then one (40_access.md R133; the DMA
window's raw words as well, 43_dma.md R227). That the rule holds of raw words of the DMA window too (R227) is the spec's
own decision D29. -/
def Obligations.OnlyUndocumentedAccessesEmitDiag : Prop :=
  ∀ (s t : State) (i : Instr), exec i s = .next t →
    ∃ evs, t.events = s.events ++ evs ∧ (evs.filter isDiag).length ≤ 1 ∧
      ((evs.filter isDiag).length = 1 ↔
        (∃ w a, i = Instr.read w a ∧ ¬documented s.profile w a) ∨
        (∃ w a d, i = Instr.write w a d ∧ ¬documented s.profile w a) ∨
        (∃ a, i = .drd32 a ∧ ddesc s.profile a.toNat = none) ∨
        (∃ a d, i = .dwr32 a d ∧ ddesc s.profile a.toNat = none))

/-- Bits of D above the width reach nothing (40_access.md R122). R122 is the spec's own decision D8. -/
def Obligations.HighDataBitsAreIgnored : Prop :=
  ∀ (s : State) (w : Width) (a d d' : Word),
    d.toNat % 2 ^ w.bits = d'.toNat % 2 ^ w.bits →
      exec (Instr.write w a d) s = exec (Instr.write w a d') s

/-- The frame of WR8, WR16, WR32: only the bytes at the offset can change; the clock state only for CLOCK and POWER. -/
def Obligations.WriteFrame : Prop :=
  ∀ (s t : State) (w : Width) (a d : Word), s.Inv → exec (Instr.write w a d) s = .next t →
    (∀ i, ¬covers w a i → Memory.read t.rf i = Memory.read s.rf i) ∧
    t.dw = s.dw ∧ t.profile = s.profile ∧ t.input = s.input ∧
    t.responses = s.responses ++ [{ q0 := 0, q1 := none }] ∧
    ((∀ e, s.profile.lookup a.toNat w = some e → e.cls ≠ 1 ∧ e.cls ≠ 2) →
      t.freqHz = s.freqHz ∧ t.refCyc = s.refCyc)

/-- All-ones written and read back (40_access.md R134): the mask and the kept bits, or the unchanged stored value. The
spec marks R134 as derived from its rules. -/
def Obligations.AllOnesReadback : Prop :=
  ∀ (s : State) (w : Width) (a : Word) (e : Descriptor),
    s.Inv → inContract s.profile w a → s.profile.lookup a.toNat w = some e →
      let old := memRead s.rf a.toNat w
      let ones := BitVec.ofNat 32 (2 ^ w.bits - 1)
      ∃ t, execAll [Instr.write w a ones, Instr.read w a] s = .next t ∧
        ((e.cls = 0 ∨ e.cls = 3 ∨ e.cls = 2 ∨ (e.cls = 1 ∧ s.prot = false)) →
          t.responses = s.responses ++ [{ q0 := 0, q1 := none }, { q0 := e.W ||| (old &&& e.K), q1 := none }]) ∧
        ((e.cls = 4 ∨ (e.cls = 1 ∧ s.prot = true)) →
          t.responses = s.responses ++ [{ q0 := 0, q1 := none }, { q0 := old, q1 := none }])

/-- The CLK32 status bit survives every WR16 to its register at its documented width (00_scope.md R9 f, 40_access.md
R126): the write keeps K. The keep mask is the spec's own decision D6. -/
def Obligations.WritesKeepTheClk32Bit : Prop :=
  ∀ (s t : State) (a d : Word), s.Inv → a.toNat = s.profile.clk32Off → exec (.wr16 a d) s = .next t →
    t.clk32Status = s.clk32Status

/-- Only RESTORE, and RESET, can change the chip identifier; RESET sets it to CHIP_ID (10_state.md R32, 40_access.md
R130). That IDR is read only at every width is the spec's own decision D19 and a condition of Profile.wf (log entry 8).
-/
def Obligations.ChipIdChangesOnlyByRestoreAndReset : Prop :=
  ∀ (s t : State) (i : Instr), s.Inv → exec i s = .next t →
    (i = .reset → t.idr = s.profile.chipId) ∧
    (i ≠ .reset → (∀ img, i ≠ .restore img) → t.idr = s.idr)

/-! ### Clock and power -/

/-- The frequency formula, its range, what it does not depend on, and that the division is exact (41_clock_power.md
R161, R169). The spec marks R169 as derived from R161. -/
def Obligations.FrequencyFormula : Prop :=
  ∀ (bitPresc crystalHz : Nat) (cr fsr : Half),
    let r := computeFrequency bitPresc crystalHz cr fsr
    let presc := if cr.toNat / 2 ^ bitPresc % 2 = 1 then 2 else 1
    let num := 2 * (14 * (fsr.toNat % 2 ^ 8 + 1) + fsr.toNat / 2 ^ 8 % 2 ^ 4 + 1)
    r.2 = num / presc ∧ r.1 = r.2 * crystalHz ∧ r.2 * presc = num ∧
    (presc = 1 → 30 ≤ r.2 ∧ r.2 ≤ 7200) ∧ (presc = 2 → 15 ≤ r.2 ∧ r.2 ≤ 3600) ∧
    (∀ cr' fsr' : Half, cr'.getLsbD bitPresc = cr.getLsbD bitPresc → fsr'.toNat % 2 ^ 12 = fsr.toNat % 2 ^ 12 →
      computeFrequency bitPresc crystalHz cr' fsr' = r)

/-- The pair at the reset defaults, under P0 and with the designated bit clear (41_clock_power.md R168). The values of
BIT_PRESC and CRYSTAL_HZ are P0's (log entry 1). -/
def Obligations.ResetDefaultsGiveTheOraclePair : Prop :=
  computeFrequency 7 32768 0x24B3 0x0347 = (33161216, 1012) ∧
  computeFrequency 7 32768 0x2433 0x0347 = (66322432, 2024)

/-- `recompute` runs on its four occasions and on no other, from the stored registers (41_clock_power.md R162). -/
def Obligations.ClockStateIsRecomputedOnItsFourOccasions : Prop :=
  ∀ (s t : State) (i : Instr), s.profile.wf = true → exec i s = .next t →
    let occasion :=
      (∃ a d, i = .wr16 a d ∧ a.toNat = s.profile.offPllfsr ∧ s.prot = false) ∨
      (∃ a d, i = .wr16 a d ∧ a.toNat = s.profile.offPllcr) ∨ i = .reset ∨ (∃ img, i = .restore img)
    (occasion →
      (t.freqHz, t.refCyc) = computeFrequency t.profile.bitPresc t.profile.crystalHz t.pllcr t.pllfsr) ∧
    (¬occasion → t.freqHz = s.freqHz ∧ t.refCyc = s.refCyc)

/-- WR16 to PLLFSR (41_clock_power.md R163): ignored entirely while PROT is set; else the masked store, the new clock
state, and no event; the 32 kHz status bit, where PLLFSR holds it as under P0, keeps its phase. -/
def Obligations.PllfsrWrite : Prop :=
  ∀ (s : State) (a d : Word), s.Inv → a.toNat = s.profile.offPllfsr →
    (s.prot = true → exec (.wr16 a d) s = .next (s.respond { q0 := 0, q1 := none })) ∧
    (s.prot = false → ∃ t e, exec (.wr16 a d) s = .next t ∧ s.profile.lookup a.toNat .w16 = some e ∧
      t.pllfsr = (d.setWidth 16 &&& e.W.setWidth 16) ||| (s.pllfsr &&& e.K.setWidth 16) ∧ t.pllcr = s.pllcr ∧
      t.prot = d.getLsbD s.profile.bitProt ∧
      (s.profile.clk32Off = s.profile.offPllfsr → t.clk32Status = s.clk32Status) ∧
      (t.freqHz, t.refCyc) = computeFrequency s.profile.bitPresc s.profile.crystalHz t.pllcr t.pllfsr ∧
      t.events = s.events ∧ t.responses = s.responses ++ [{ q0 := 0, q1 := none }] ∧
      (∀ i, ¬covers .w16 a i → Memory.read t.rf i = Memory.read s.rf i) ∧
      t.dw = s.dw ∧ t.profile = s.profile ∧ t.input = s.input)

/-- WR16 to PLLCR (41_clock_power.md R164): whatever PROT is, the masked store, the new clock state from the frozen p and
q and the new prescaler, and one EndTimeslice exactly when the stored DISPLL, which is D's, is set. -/
def Obligations.PllcrWrite : Prop :=
  ∀ (s : State) (a d : Word), s.Inv → a.toNat = s.profile.offPllcr →
    ∃ t e, exec (.wr16 a d) s = .next t ∧ s.profile.lookup a.toNat .w16 = some e ∧
      t.pllcr = d.setWidth 16 &&& e.W.setWidth 16 ∧ t.pllfsr = s.pllfsr ∧
      t.dispLl = d.getLsbD s.profile.bitDispll ∧
      (t.freqHz, t.refCyc) = computeFrequency s.profile.bitPresc s.profile.crystalHz t.pllcr t.pllfsr ∧
      (d.getLsbD s.profile.bitDispll = true → t.events = s.events ++ [.endTimeslice]) ∧
      (d.getLsbD s.profile.bitDispll = false → t.events = s.events) ∧
      t.responses = s.responses ++ [{ q0 := 0, q1 := none }] ∧
      (∀ i, ¬covers .w16 a i → Memory.read t.rf i = Memory.read s.rf i) ∧
      t.dw = s.dw ∧ t.profile = s.profile ∧ t.input = s.input

/-- PROT is cleared only by RESET, by RESTORE, or by an undocumented write covering the byte that holds it, and while it
stays set nothing else changes p and q (41_clock_power.md R170; 70_reset_and_hazards.md R312). The spec marks R170 and
R312 as derived from its rules. -/
def Obligations.ProtIsSticky : Prop :=
  ∀ (s t : State) (i : Instr), s.Inv → s.prot = true → exec i s = .next t →
    (t.prot = false →
      i = .reset ∨ (∃ img, i = .restore img) ∨
      (∃ w a d, i = Instr.write w a d ∧ ¬documented s.profile w a ∧ covers w a s.profile.offPllfsr)) ∧
    (t.pllfsr.toNat % 2 ^ 12 ≠ s.pllfsr.toNat % 2 ^ 12 →
      i = .reset ∨ (∃ img, i = .restore img) ∨
      (∃ w a d, i = Instr.write w a d ∧ ¬documented s.profile w a ∧
        (covers w a s.profile.offPllfsr ∨ covers w a (s.profile.offPllfsr + 1))))

/-- EndTimeslice comes from a WR16 to PLLCR that stores DISPLL and from nothing else, one each time (60_exceptions.md
R274, 41_clock_power.md R165, R171). -/
def Obligations.OnlyPllcrWritesEndTheTimeslice : Prop :=
  ∀ (s t : State) (i : Instr), s.profile.wf = true → exec i s = .next t →
    ∃ evs, t.events = s.events ++ evs ∧
      (.endTimeslice ∈ evs →
        evs = [.endTimeslice] ∧ t.isPowered = false ∧ ∃ a d, i = .wr16 a d ∧ a.toNat = s.profile.offPllcr)

/-- QPWR answers 1 exactly when the stored PLLCR has DISPLL clear (41_clock_power.md R165, R166). -/
def Obligations.QpwrSamplesThePowerLevel : Prop :=
  ∀ s : State,
    exec .qpwr s =
      .next (s.respond
        { q0 := if (memRead s.rf s.profile.offPllcr .w16).getLsbD s.profile.bitDispll = false then 1 else 0
          q1 := none })

/-- QFREQ answers the stored pair (41_clock_power.md R167); it runs in every state, and where a number does not fit in 32
bits its word is free (log entry 10). -/
def Obligations.QfreqSamplesTheClockState : Prop :=
  ∀ s : State, ∃ q0 q1 : Word,
    exec .qfreq s = .next (s.respond { q0 := q0, q1 := some q1 }) ∧
    (s.freqHz < 2 ^ 32 → q0.toNat = s.freqHz) ∧ (s.refCyc < 2 ^ 32 → q1.toNat = s.refCyc)

/-! ### Real-time clock -/

/-- TICK (42_rtc.md R195): a no-op while RTCEN is clear; else the calendar advances by the three comparisons, which run
on every tick, the non-field bits of RTCTIME and DAYR become 0, and nothing else changes. -/
def Obligations.TickAdvancesTheCalendar : Prop :=
  (∀ (a d : Word) (img : Image), decode { word := transactionWord 0x20 a d, image := img } = .ok .tick) ∧
  (∀ s : State, s.Inv →
      (s.rtcEnabled = false → exec .tick s = .next (s.respond { q0 := 0, q1 := none })) ∧
      (s.rtcEnabled = true →
        let c := s.calendar
        let m1 := if c.sec + 1 ≥ 60 then c.min + 1 else c.min
        let h1 := if m1 ≥ 60 then c.hr + 1 else c.hr
        ∃ t, exec .tick s = .next t ∧
          t.calendar.sec = (if c.sec + 1 ≥ 60 then 0 else c.sec + 1) ∧
          t.calendar.min = (if m1 ≥ 60 then 0 else m1) ∧
          t.calendar.hr = (if h1 ≥ 24 then 0 else h1) ∧
          t.calendar.day = (if h1 ≥ 24 then (c.day + 1) % 512 else c.day) ∧
          t.rtctime &&& ~~~s.profile.rtcMask = 0 ∧ t.dayr.toNat < 512 ∧
          (∀ i, isCalendar s.profile i = false → Memory.read t.rf i = Memory.read s.rf i) ∧
          t.dw = s.dw ∧ t.freqHz = s.freqHz ∧ t.refCyc = s.refCyc ∧ t.events = s.events ∧
          t.responses = s.responses ++ [{ q0 := 0, q1 := none }] ∧ t.profile = s.profile ∧ t.input = s.input))

/-- What an enabled TICK does to fields in and out of range (42_rtc.md R196 a, b, c): every field comes into range, each
increments at most once, and an out-of-range field goes to 0 and carries. The spec marks R196 as derived from R195. -/
def Obligations.TickNormalisesEveryField : Prop :=
  ∀ s t : State, s.Inv → s.rtcEnabled = true → exec .tick s = .next t →
    let c := s.calendar
    let u := t.calendar
    (u.sec < 60 ∧ u.min < 60 ∧ u.hr < 24 ∧ u.day < 512) ∧
    ((u.sec = c.sec + 1 ∨ u.sec = 0) ∧ (u.min = c.min ∨ u.min = c.min + 1 ∨ u.min = 0) ∧
      (u.hr = c.hr ∨ u.hr = c.hr + 1 ∨ u.hr = 0) ∧ (u.day = c.day ∨ u.day = (c.day + 1) % 512)) ∧
    (c.sec ≥ 59 → u.sec = 0 ∧ (u.min = c.min + 1 ∨ u.min = 0)) ∧
    (c.min ≥ 60 → u.min = 0 ∧ (u.hr = c.hr + 1 ∨ u.hr = 0)) ∧
    (c.hr ≥ 24 → u.hr = 0 ∧ u.day = (c.day + 1) % 512)

/-- From 0:0:0:0, n ticks with RTCEN set count the calendar out (42_rtc.md R196 d): the run of `TICKN n`. The spec marks
R196 as derived from R195. -/
def Obligations.TicksFromZeroCountTheCalendar : Prop :=
  ∀ (s : State) (n : Nat), s.Inv → s.rtcEnabled = true →
    s.calendar = { sec := 0, min := 0, hr := 0, day := 0 } →
    ∃ t, execAll ((Pseudo.tickN n).expand s.profile) s = .next t ∧
      t.calendar = { sec := n % 60, min := n / 60 % 60, hr := n / 3600 % 24, day := n / 86400 % 512 }

/-- SETRTC (42_rtc.md R197): its operands are fields of A and D; each is masked to its width, whatever RTCEN is;
non-field bits become 0; nothing else changes. R197 is the spec's own decision D18. -/
def Obligations.SetrtcSetsTheCalendar : Prop :=
  (∀ (a d : Word) (img : Image), decode { word := transactionWord 0x40 a d, image := img } =
    .ok (.setrtc a (d.extractLsb' 16 8) (d.extractLsb' 8 8) (d.extractLsb' 0 8))) ∧
  (∀ (s : State) (days : Word) (hours minutes seconds : Byte), s.Inv →
      ∃ t, exec (.setrtc days hours minutes seconds) s = .next t ∧
        t.calendar = { sec := seconds.toNat % 64, min := minutes.toNat % 64, hr := hours.toNat % 32,
                       day := days.toNat % 512 } ∧
        t.rtctime &&& ~~~s.profile.rtcMask = 0 ∧ t.dayr.toNat < 512 ∧
        (∀ i, isCalendar s.profile i = false → Memory.read t.rf i = Memory.read s.rf i) ∧
        t.dw = s.dw ∧ t.freqHz = s.freqHz ∧ t.refCyc = s.refCyc ∧ t.events = s.events ∧
        t.responses = s.responses ++ [{ q0 := 0, q1 := none }] ∧ t.profile = s.profile ∧ t.input = s.input)

/-- CLK32 (42_rtc.md R198): one bit of RF flips, whatever RTCEN, power and PROT are, and nothing else changes; two of
them restore it. R198 is the spec's own decision D11. -/
def Obligations.Clk32FlipsOneBit : Prop :=
  (∀ (a d : Word) (img : Image), decode { word := transactionWord 0x30 a d, image := img } = .ok .clk32) ∧
  (∀ s : State, s.Inv →
      ∃ t, exec .clk32 s = .next t ∧
        t.clk32Status = !s.clk32Status ∧
        (∀ k, k < 16 → k ≠ s.profile.bitClk32 →
          (memRead t.rf s.profile.clk32Off .w16).getLsbD k = (memRead s.rf s.profile.clk32Off .w16).getLsbD k) ∧
        (∀ i, i ≠ s.profile.clk32Off → i ≠ s.profile.clk32Off + 1 → Memory.read t.rf i = Memory.read s.rf i) ∧
        t.dw = s.dw ∧ t.freqHz = s.freqHz ∧ t.refCyc = s.refCyc ∧ t.derivedClock = s.derivedClock ∧
        t.events = s.events ∧ t.responses = s.responses ++ [{ q0 := 0, q1 := none }] ∧ t.profile = s.profile ∧
        t.input = s.input ∧
        ∃ u, exec .clk32 t = .next u ∧ u.rf = s.rf)

/-! ### The DMA window -/

/-- DRD32 (43_dma.md R222, R225): the stored word; one Diag at an offset with no register; a channel-map entry reads
below 2^8 after any DWR32, and after RESET where its reset value is (P0: 0); the faults of R222 in their order. The
checks of R222 are the spec's own decision D25, and raw words (R227) its D29. -/
def Obligations.DmaReadReturnsTheStoredWord : Prop :=
  (∀ (a d : Word) (img : Image), decode { word := transactionWord 0x0A a d, image := img } = .ok (.drd32 a)) ∧
  (∀ (s : State) (a : Word), dmaInContract s.profile a →
      let v := Memory.read s.dw (a.toNat / 4)
      (∀ r, ddesc s.profile a.toNat = some r → exec (.drd32 a) s = .next (s.respond { q0 := v, q1 := none })) ∧
      (ddesc s.profile a.toNat = none →
        exec (.drd32 a) s = .next ((s.emit (.diag .dma a.toNat v .w32 .read)).respond { q0 := v, q1 := none }))) ∧
  (∀ (s : State) (a d : Word) (r : DmaReg), s.Inv → dmaInContract s.profile a →
      ddesc s.profile a.toNat = some r → r.kind = .drcmr →
      let ok : Response := { q0 := 0, q1 := none }
      (∃ t q, execAll [.dwr32 a d, .drd32 a] s = .next t ∧
        t.responses = s.responses ++ [ok, { q0 := q, q1 := none }] ∧ q.toNat < 2 ^ 8) ∧
      (s.profile.dmaReset.drcmr.toNat < 2 ^ 8 → ∃ t q, execAll [.reset, .drd32 a] s = .next t ∧
        t.responses = s.responses ++ [ok, { q0 := q, q1 := none }] ∧ q.toNat < 2 ^ 8)) ∧
  (∀ (s : State) (a : Word),
      (s.profile.hasDma = false → exec (.drd32 a) s = .fault (.noWindow 0x0A a)) ∧
      (s.profile.hasDma = true → a.toNat % 4 ≠ 0 → exec (.drd32 a) s = .fault (.misaligned 0x0A a)) ∧
      (s.profile.hasDma = true → a.toNat % 4 = 0 → s.profile.dmaSize < a.toNat + 4 →
        exec (.drd32 a) s = .fault (.outOfWindow 0x0A a)))

/-- DWR32 (43_dma.md R222, R224, R226): the masked word of a register, with one DmaCmd for DCMD; the raw word and one
Diag at an offset with no register; every other word, RF and the clock state unchanged; the faults of R222 in their
order. R222, R224, R226 and R227 are the spec's own decisions D25, D26, D28 and D29. -/
def Obligations.DmaWriteStoresTheMaskedWord : Prop :=
  (∀ (a d : Word) (img : Image), decode { word := transactionWord 0x1A a d, image := img } = .ok (.dwr32 a d)) ∧
  (∀ (s : State) (a d : Word), s.Inv → dmaInContract s.profile a →
      ∃ t, exec (.dwr32 a d) s = .next t ∧
        (∀ r, ddesc s.profile a.toNat = some r →
          Memory.read t.dw (a.toNat / 4) = d &&& s.profile.dmaMask.at r.kind ∧
          (r.kind = .drcmr → Memory.read t.dw (a.toNat / 4) = d &&& 0xFF) ∧
          (r.kind = .dcmd → t.events = s.events ++ [.dmaCmd r.index (d &&& s.profile.dmaMask.dcmd)]) ∧
          (r.kind ≠ .dcmd → t.events = s.events)) ∧
        (ddesc s.profile a.toNat = none →
          Memory.read t.dw (a.toNat / 4) = d ∧ t.events = s.events ++ [.diag .dma a.toNat d .w32 .write]) ∧
        (∀ j, j ≠ a.toNat / 4 → Memory.read t.dw j = Memory.read s.dw j) ∧
        t.rf = s.rf ∧ t.freqHz = s.freqHz ∧ t.refCyc = s.refCyc ∧
        t.responses = s.responses ++ [{ q0 := 0, q1 := none }] ∧ t.profile = s.profile ∧ t.input = s.input) ∧
  (∀ (s : State) (a d : Word),
      (s.profile.hasDma = false → exec (.dwr32 a d) s = .fault (.noWindow 0x1A a)) ∧
      (s.profile.hasDma = true → a.toNat % 4 ≠ 0 → exec (.dwr32 a d) s = .fault (.misaligned 0x1A a)) ∧
      (s.profile.hasDma = true → a.toNat % 4 = 0 → s.profile.dmaSize < a.toNat + 4 →
        exec (.dwr32 a d) s = .fault (.outOfWindow 0x1A a)))

/-- The two windows do not alias (10_state.md R24): DW changes by DWR32 and RESET only (43_dma.md R228, R229), and RF
never by a DMA-window transaction. That the external engine writes nothing is the spec's own decision D28 (log entry
11). -/
def Obligations.WindowsDoNotAlias : Prop :=
  ∀ (s t : State) (i : Instr), exec i s = .next t →
    ((∀ a d, i ≠ .dwr32 a d) → i ≠ .reset → t.dw = s.dw) ∧
    (∀ a d, (i = .drd32 a ∨ i = .dwr32 a d) → t.rf = s.rf)

/-- The DMA decoder inverts the layout, and no two registers share a word (43_dma.md R221, R223; 10_state.md R38). The
conditions on the layout are the spec's own decision D24, read in log entry 8. -/
def Obligations.DmaLayoutIsInjective : Prop :=
  ∀ p : Profile, p.wf = true → p.hasDma = true →
    (∀ r : DmaReg, r.index < r.kind.count →
      ∃ o, dmaOffset p r = some o ∧ o % 4 = 0 ∧ o + 4 ≤ p.dmaSize ∧ ddesc p o = some r) ∧
    (∀ o r, ddesc p o = some r → r.index < r.kind.count ∧ dmaOffset p r = some o) ∧
    (∀ r r' o o', dmaOffset p r = some o → dmaOffset p r' = some o' → o / 4 = o' / 4 → r = r')

/-- The words of the channel-map entries stay below 2^8: once they are, and their reset value is, every step keeps them
so (43_dma.md R224, R225 corner case, R228). That the premise on DMA_RESET holds under P0 rests on log entry 1, and that
a profile may break it on log entry 22. -/
def Obligations.ChannelMapEntriesStayBytes : Prop :=
  ∀ s t : State, s.Inv → s.profile.hasDma = true → s.profile.dmaReset.drcmr.toNat < 2 ^ 8 →
    (∀ m v, s.dmaReg { kind := .drcmr, index := m } = some v → v.toNat < 2 ^ 8) → step s = .next t →
      ∀ m v, t.dmaReg { kind := .drcmr, index := m } = some v → v.toNat < 2 ^ 8

/-! ### Reset and restore -/

/-- RESET (70_reset_and_hazards.md R300, R301): the calendar bytes kept, the reset table's bytes, 0 elsewhere, DW at its
reset values, the clock recomputed, no event; so PROT is clear, and under P0 the 32 kHz status bit and RTCCTL as well.
The DMA reset values (R228) are the spec's own decision D27. -/
def Obligations.ResetRestoresTheDefaults : Prop :=
  (∀ (a d : Word) (img : Image), decode { word := transactionWord 0x50 a d, image := img } = .ok .reset) ∧
  (∀ s : State, s.Inv →
      ∃ t, exec .reset s = .next t ∧
        (∀ i, isCalendar s.profile i = true → Memory.read t.rf i = Memory.read s.rf i) ∧
        (∀ e ∈ s.profile.resetTable, memRead t.rf e.off e.width = truncTo e.width e.value) ∧
        (∀ i, isCalendar s.profile i = false →
          (∀ e ∈ s.profile.resetTable, ¬(e.off ≤ i ∧ i < e.off + e.width.bytes)) → Memory.read t.rf i = 0) ∧
        (s.profile.hasDma = true → ∀ j, j < s.profile.dmaSize / 4 →
          (∀ r, ddesc s.profile (4 * j) = some r → Memory.read t.dw j = s.profile.dmaReset.at r.kind) ∧
          (ddesc s.profile (4 * j) = none → Memory.read t.dw j = 0)) ∧
        (s.profile.hasDma = false → t.dw = s.dw) ∧
        (t.freqHz, t.refCyc) = computeFrequency s.profile.bitPresc s.profile.crystalHz t.pllcr t.pllfsr ∧
        t.events = s.events ∧ t.responses = s.responses ++ [{ q0 := 0, q1 := none }] ∧
        t.profile = s.profile ∧ t.input = s.input ∧
        t.prot = false ∧ (s.profile = Profile.p0 → t.clk32Status = false ∧ t.rtcctl = 0))

/-- The named registers after RESET (70_reset_and_hazards.md R302, R303): the normative values, the calendar registers
unchanged, PROT clear, the chip powered. The reset table (R302) is the spec's own decision D21, and the spec marks R303
as derived. -/
def Obligations.NamedRegistersAfterReset : Prop :=
  ∀ s t : State, s.Inv → exec .reset s = .next t →
    t.pllcr = 0x24B3 ∧ t.pllfsr = 0x0347 ∧ t.idr = s.profile.chipId ∧ t.rtctime = s.rtctime ∧ t.dayr = s.dayr ∧
    t.prot = false ∧ t.isPowered = true

/-- RESET is idempotent, and RF after it is a function of the calendar bytes alone (70_reset_and_hazards.md R305). The
spec marks R305 as derived from R300 and R301. -/
def Obligations.ResetIsIdempotentAndDeterministic : Prop :=
  (∀ s t u : State, s.Inv → exec .reset s = .next t → exec .reset t = .next u →
    u.rf = t.rf ∧ u.dw = t.dw ∧ u.freqHz = t.freqHz ∧ u.refCyc = t.refCyc ∧ u.events = s.events) ∧
  (∀ s s' t t' : State, s.Inv → s'.Inv → s.profile = s'.profile →
    (∀ i, isCalendar s.profile i = true → Memory.read s.rf i = Memory.read s'.rf i) →
    exec .reset s = .next t → exec .reset s' = .next t' → t.rf = t'.rf)

/-- RESTORE (44_host.md R251): a wrong length faults; else RF is the image byte for byte, the clock is recomputed, and
DW and the event stream stay. R251 is the spec's own decision D23. -/
def Obligations.RestoreLoadsTheImage : Prop :=
  (∀ (a d : Word) (img : Image), decode { word := transactionWord 0x80 a d, image := img } = .ok (.restore img)) ∧
  (∀ (s : State) (img : Image),
      (img.size ≠ s.profile.periphSize → exec (.restore img) s = .fault (.badImage img.size)) ∧
      (img.size = s.profile.periphSize →
        ∃ t, exec (.restore img) s = .next t ∧
          (∀ i, i < s.profile.periphSize → Memory.read t.rf i = Memory.read img.cells i) ∧
          (∀ i, s.profile.periphSize ≤ i → Memory.read t.rf i = 0) ∧ Memory.wf t.rf = true ∧
          (t.freqHz, t.refCyc) = computeFrequency s.profile.bitPresc s.profile.crystalHz t.pllcr t.pllfsr ∧
          t.dw = s.dw ∧ t.events = s.events ∧ t.responses = s.responses ++ [{ q0 := 0, q1 := none }] ∧
          t.profile = s.profile ∧ t.input = s.input))

/-- A snapshot of any state, restored, gives that state's register file, the clock state its registers give, and the DMA
window as it was; a snapshot taken after RESET gives the same clock state too (44_host.md R251, R252). R251 is the
spec's own decision D23. -/
def Obligations.RestoredSnapshotIsTheState : Prop :=
  (∀ s u : State, s.Inv → u.profile = s.profile →
    ∃ t, exec (.restore s.snapshot) u = .next t ∧ t.rf = s.rf ∧ (t.freqHz, t.refCyc) = s.derivedClock ∧ t.dw = u.dw) ∧
  (∀ s s' u t : State, s.Inv → exec .reset s = .next s' → u.profile = s.profile →
    exec (.restore s'.snapshot) u = .next t →
      t.rf = s'.rf ∧ t.freqHz = s'.freqHz ∧ t.refCyc = s'.refCyc ∧ t.dw = u.dw)

/-! ### The whole machine -/

/-- Every transaction that completes gives one response, of one word but for QFREQ, appends its events, and changes
neither the profile nor the input; every response but those of reads and queries is 0 (30_encoding.md R97, 10_state.md
R40). That the outputs are fields of State is the model's choice (log entry 3). -/
def Obligations.OutputsAreAppendOnly : Prop :=
  ∀ (s t : State) (i : Instr), exec i s = .next t →
    t.profile = s.profile ∧ t.input = s.input ∧
    (∃ evs, t.events = s.events ++ evs ∧ evs.length ≤ 1) ∧
    (∃ r, t.responses = s.responses ++ [r] ∧
      (i ≠ .qfreq → r.q1 = none) ∧ (i = .qfreq → r.q1 ≠ none) ∧
      (i = .qpwr → r.q0 = 0 ∨ r.q0 = 1) ∧
      ((∀ w a, i ≠ Instr.read w a) → (∀ a, i ≠ .drd32 a) → i ≠ .qpwr → i ≠ .qfreq → r.q0 = 0))

/-- A run of instructions does them in order, each as `exec` does it, and stops at the first one that faults or is
refused (44_host.md R254). R254 is the spec's own decision D32. -/
def Obligations.RunsGoInOrderAndStopAtTheFirstFault : Prop :=
  (∀ s : State, execAll [] s = .next s) ∧
  (∀ (i : Instr) (s : State), execAll [i] s = exec i s) ∧
  (∀ (before after : List Instr) (s : State),
    (∀ t, execAll before s = .next t → execAll (before ++ after) s = execAll after t) ∧
    (∀ f, execAll before s = .fault f → execAll (before ++ after) s = .fault f) ∧
    (∀ r, execAll before s = .refused r → execAll (before ++ after) s = .refused r))

/-- The observation of a run (44_host.md R254, 60_exceptions.md R270): an empty run shows the state; a transaction that
completes hands over to the rest; one that faults, in the decoder or in `exec`, shows the state it found, with the fault,
and no later transaction is applied. R254 and R270 are the spec's own decisions D32 and D4. -/
def Obligations.RunsAreObservedToTheirEnd : Prop :=
  ∀ s : State,
    let seen (e : Ending) : Observation :=
      { rf := s.rf, dw := s.dw, freqHz := s.freqHz, refCyc := s.refCyc, responses := s.responses, events := s.events
        ending := e }
    s.observeRun [] = seen .completed ∧
    (∀ t ts u, step (s.withInput (t :: ts)) = .next u → s.observeRun (t :: ts) = u.observeRun ts) ∧
    (∀ t ts f, step (s.withInput (t :: ts)) = .fault f → s.observeRun (t :: ts) = seen (.faulted f)) ∧
    (∀ before after, (s.observeRun before).ending = .completed →
      s.observeRun (before ++ after) = (s.withInput before).run.final.observeRun after) ∧
    (∀ before after, (s.observeRun before).ending ≠ .completed →
      s.observeRun (before ++ after) = s.observeRun before)

/-- The run of the encodings of a list of instructions is what `execAll` does with the list (30_encoding.md R93, R105;
44_host.md R254). The encoding is the spec's own decision D30. -/
def Obligations.RunsOfEncodingsAreTheirExecutions : Prop :=
  ∀ (s : State) (is : List Instr), s.profile.wf = true →
    (∀ t, execAll is s = .next t →
      s.observeRun (is.map encode) =
        { rf := t.rf, dw := t.dw, freqHz := t.freqHz, refCyc := t.refCyc, responses := t.responses, events := t.events
          ending := .completed }) ∧
    (∀ f, execAll is s = .fault f → (s.observeRun (is.map encode)).ending = .faulted f) ∧
    (∀ r, execAll is s = .refused r → (s.observeRun (is.map encode)).ending = .refused r)

/-- RESET followed by any sequence of transactions, faults included, reproduces the same register file, DMA window, clock
state, ending, responses and events from any two states with equal calendar bytes (44_host.md R252). The spec marks R252
as derived from its rules. -/
def Obligations.RunsAfterResetAreReproducible : Prop :=
  ∀ (s s' : State) (ts : List Transaction), s.Inv → s'.Inv → s.profile = s'.profile →
    (∀ i, isCalendar s.profile i = true → Memory.read s.rf i = Memory.read s'.rf i) →
      let o := s.observeRun (encode .reset :: ts)
      let o' := s'.observeRun (encode .reset :: ts)
      o.rf = o'.rf ∧ o.dw = o'.dw ∧ o.freqHz = o'.freqHz ∧ o.refCyc = o'.refCyc ∧ o.ending = o'.ending ∧
      (∃ rs, o.responses = s.responses ++ rs ∧ o'.responses = s'.responses ++ rs) ∧
      (∃ es, o.events = s.events ++ es ∧ o'.events = s'.events ++ es)

/-- The invariant is kept by every step (10_state.md R20, R22, R24; 41_clock_power.md R161). -/
def Obligations.StepKeepsTheInvariant : Prop :=
  ∀ s t : State, s.Inv → step s = .next t → t.Inv

/-- The state after reset meets the invariant. State.reset carries P0 (log entry 1) and CAL0 = 0 (log entry 2), both the
model's choice. -/
def Obligations.ResetStateMeetsTheInvariant : Prop := State.reset.Inv

/-- Every cold start meets the invariant, whatever the calendar bytes CAL0, the other bytes and DW were
(70_reset_and_hazards.md R306). Where the DMA window is absent there is no word to start with. R306 is the spec's own
decision D22. -/
def Obligations.EveryColdStartMeetsTheInvariant : Prop :=
  ∀ (p : Profile) (rf : Memory 8) (dw : Memory 32),
    p.wf = true → Memory.wf rf = true → Memory.below rf p.periphSize = true → (p.hasDma = false → dw = []) →
      (State.coldStart p rf dw).Inv

/-- State.reset is the cold start of P0 with CAL0 = 0, the model's choice of the draw (log entry 2). That draw of CAL0
is the model's choice. -/
def Obligations.ResetStateIsAColdStart : Prop := State.coldStart Profile.p0 [] [] = State.reset
end

