-- ==== Sys2Proof/Laws/Decode.lean ====
section
/-! SUPPORT. Sys2Proof/Laws/Decode.lean: the fields of a transaction word that was put together from CMD, A and D, and of
a command byte. -/

namespace Sys2Proof

theorem transactionWord_toNat (c : Byte) (a d : Word) :
    (transactionWord c a d).toNat = c.toNat * 2 ^ 64 + a.toNat * 2 ^ 32 + d.toNat := by
  have h1 : (transactionWord c a d).toNat = ((c ++ a) ++ d : BitVec (8 + 32 + 32)).toNat := rfl
  have ha := a.isLt
  have hd := d.isLt
  rw [h1, BitVec.toNat_append, BitVec.toNat_append, ← Nat.shiftLeft_add_eq_or_of_lt hd,
    ← Nat.shiftLeft_add_eq_or_of_lt ha, Nat.shiftLeft_eq, Nat.shiftLeft_eq]
  omega

/-- CMD of a word put together from its fields. -/
@[simp] theorem cmd_transactionWord (c : Byte) (a d : Word) (img : Image) :
    Transaction.cmd { word := transactionWord c a d, image := img } = c := by
  apply BitVec.eq_of_toNat_eq
  have hc := c.isLt
  have ha := a.isLt
  have hd := d.isLt
  simp only [Transaction.cmd, BitVec.extractLsb'_toNat, transactionWord_toNat, Nat.shiftRight_eq_div_pow]
  omega

/-- A of a word put together from its fields. -/
@[simp] theorem a_transactionWord (c : Byte) (a d : Word) (img : Image) :
    Transaction.a { word := transactionWord c a d, image := img } = a := by
  apply BitVec.eq_of_toNat_eq
  have ha := a.isLt
  have hd := d.isLt
  simp only [Transaction.a, BitVec.extractLsb'_toNat, transactionWord_toNat, Nat.shiftRight_eq_div_pow]
  omega

/-- D of a word put together from its fields. -/
@[simp] theorem d_transactionWord (c : Byte) (a d : Word) (img : Image) :
    Transaction.d { word := transactionWord c a d, image := img } = d := by
  apply BitVec.eq_of_toNat_eq
  have hd := d.isLt
  simp only [Transaction.d, BitVec.extractLsb'_toNat, transactionWord_toNat, Nat.shiftRight_eq_div_pow]
  omega

theorem cmdOp_eq (c : Byte) : cmdOp c = c.toNat / 16 := by
  have := c.isLt
  simp only [cmdOp, BitVec.extractLsb'_toNat, Nat.shiftRight_eq_div_pow]
  omega

theorem cmdSz_eq (c : Byte) : cmdSz c = c.toNat % 4 := by
  simp only [cmdSz, BitVec.extractLsb'_toNat, Nat.shiftRight_eq_div_pow]
  omega

/-- The data word of SETRTC holds its three bytes (30_encoding.md R94). -/
theorem setrtc_data (h m s : Byte) :
    ((0 : Byte) ++ h ++ m ++ s : Word).extractLsb' 16 8 = h ∧ ((0 : Byte) ++ h ++ m ++ s : Word).extractLsb' 8 8 = m ∧
      ((0 : Byte) ++ h ++ m ++ s : Word).extractLsb' 0 8 = s := by
  have hn : ((0 : Byte) ++ h ++ m ++ s : Word).toNat = h.toNat * 2 ^ 16 + m.toNat * 2 ^ 8 + s.toNat := by
    have h1 : ((0 : Byte) ++ h ++ m ++ s : Word).toNat =
        ((((0 : Byte) ++ h) ++ m) ++ s : BitVec (8 + 8 + 8 + 8)).toNat := rfl
    have hh := h.isLt
    have hm := m.isLt
    have hs := s.isLt
    rw [h1, BitVec.toNat_append, BitVec.toNat_append, BitVec.toNat_append, ← Nat.shiftLeft_add_eq_or_of_lt hs,
      ← Nat.shiftLeft_add_eq_or_of_lt hm, ← Nat.shiftLeft_add_eq_or_of_lt hh]
    have h0 : (0 : Byte).toNat = 0 := rfl
    simp only [Nat.shiftLeft_eq, h0]
    omega
  have hh := h.isLt
  have hm := m.isLt
  have hs := s.isLt
  refine ⟨?_, ?_, ?_⟩ <;> apply BitVec.eq_of_toNat_eq <;>
    simp only [BitVec.extractLsb'_toNat, hn, Nat.shiftRight_eq_div_pow] <;> omega

/-- When an access command has a legal width (30_encoding.md R92, R95 d, e). -/
theorem decodeAccess_ok_iff (t : Transaction) (wr win : Bool) (sz : Nat) :
    (∃ i, decodeAccess t wr win sz = .ok i) ↔ sz = 2 ∨ (win = false ∧ sz < 2) := by
  match sz with
  | 0 => cases wr <;> cases win <;> simp [decodeAccess]
  | 1 => cases wr <;> cases win <;> simp [decodeAccess]
  | 2 => cases wr <;> cases win <;> simp [decodeAccess]
  | n + 3 => cases wr <;> cases win <;> simp [decodeAccess]

theorem decodeAccess_error {t : Transaction} {wr win : Bool} {sz : Nat} (h : ¬(sz = 2 ∨ (win = false ∧ sz < 2))) :
    decodeAccess t wr win sz = .error (.badWidth t.cmd t.a) := by
  match sz with
  | 0 => cases wr <;> cases win <;> simp_all [decodeAccess]
  | 1 => cases wr <;> cases win <;> simp_all [decodeAccess]
  | 2 => simp at h
  | n + 3 => cases wr <;> cases win <;> simp [decodeAccess]

/-- When a host command is one (30_encoding.md R93, R95 a). -/
theorem decodeHost_ok_iff (t : Transaction) (op : Nat) : (∃ i, decodeHost t op = .ok i) ↔ 2 ≤ op ∧ op ≤ 8 := by
  match op with
  | 0 => simp [decodeHost]
  | 1 => simp [decodeHost]
  | 2 => simp [decodeHost]
  | 3 => simp [decodeHost]
  | 4 => simp [decodeHost]
  | 5 => simp [decodeHost]
  | 6 => simp [decodeHost]
  | 7 => simp [decodeHost]
  | 8 => simp [decodeHost]
  | n + 9 => simp [decodeHost]

theorem decodeHost_error {t : Transaction} {op : Nat} (h : 9 ≤ op) :
    decodeHost t op = .error (.illegalCommand t.cmd) := by
  obtain ⟨n, rfl⟩ := Nat.exists_eq_add_of_le h
  rw [Nat.add_comm]; rfl

/-- When a word decodes, in the fields of its command byte. -/
theorem decode_ok_iff (t : Transaction) :
    (∃ i, decode t = .ok i) ↔
      cmdRsv t.cmd = false ∧
        ((cmdOp t.cmd ≤ 1 ∧ (cmdSz t.cmd = 2 ∨ (cmdWin t.cmd = false ∧ cmdSz t.cmd < 2))) ∨
          (2 ≤ cmdOp t.cmd ∧ cmdOp t.cmd ≤ 8 ∧ cmdWin t.cmd = false ∧ cmdSz t.cmd = 0)) := by
  unfold decode
  dsimp only
  split <;> rename_i h1
  · simp [h1]
  · split <;> rename_i h2
    · rw [decodeAccess_ok_iff]; simp [h1, h2]
    · split <;> rename_i h3
      · rw [decodeAccess_ok_iff]; simp [h1, h3]
      · split <;> rename_i h4
        · simp only [Bool.or_eq_true, bne_iff_ne, ne_eq] at h4
          constructor
          · rintro ⟨_, h⟩; cases h
          · rintro ⟨-, h | ⟨-, -, h5, h6⟩⟩
            · omega
            · rcases h4 with h4 | h4
              · rw [h5] at h4; cases h4
              · exact absurd h6 h4
        · rw [decodeHost_ok_iff]
          simp only [Bool.or_eq_true, bne_iff_ne, ne_eq, not_or, Bool.not_eq_true, Decidable.not_not] at h4
          simp only [Bool.not_eq_true] at h1
          constructor
          · rintro ⟨h5, h6⟩; exact ⟨h1, .inr ⟨h5, h6, h4⟩⟩
          · rintro ⟨-, h | ⟨h5, h6, -⟩⟩
            · omega
            · exact ⟨h5, h6⟩

end Sys2Proof
end

