-- ==== Sys2Proof/Laws/Memory.lean ====
section
/-! SUPPORT. Sys2Proof/Laws/Memory.lean: the laws of a memory in canonical form: what a read after each operation gives,
that each operation keeps the form, and that memories in that form with equal reads are equal. -/

namespace Sys2Proof.Machine

variable {n : Nat}

@[simp] theorem Memory.read_nil (a : Nat) : Memory.read ([] : Memory n) a = 0 := rfl

theorem Memory.read_cons (k : Nat) (x : BitVec n) (m : Memory n) (a : Nat) :
    Memory.read ((k, x) :: m) a = if k = a then x else Memory.read m a := rfl

@[simp] theorem Memory.wfFrom_nil (lo : Nat) : Memory.wfFrom lo ([] : Memory n) = true := rfl

theorem Memory.wfFrom_cons (lo k : Nat) (x : BitVec n) (m : Memory n) :
    Memory.wfFrom lo ((k, x) :: m) = true ↔ lo ≤ k ∧ x ≠ 0 ∧ Memory.wfFrom (k + 1) m = true := by
  simp [Memory.wfFrom, and_assoc]

theorem Memory.wfFrom_mono {lo lo' : Nat} (h : lo' ≤ lo) {m : Memory n} (hm : Memory.wfFrom lo m = true) :
    Memory.wfFrom lo' m = true := by
  cases m with
  | nil => rfl
  | cons c m =>
    obtain ⟨k, x⟩ := c
    rw [Memory.wfFrom_cons] at hm ⊢
    exact ⟨h.trans hm.1, hm.2⟩

/-- Nothing is listed below the first address. -/
theorem Memory.read_eq_zero_of_lt {lo a : Nat} {m : Memory n} (hm : Memory.wfFrom lo m = true) (h : a < lo) :
    Memory.read m a = 0 := by
  induction m generalizing lo with
  | nil => rfl
  | cons c m ih =>
    obtain ⟨k, x⟩ := c
    rw [Memory.wfFrom_cons] at hm
    rw [Memory.read_cons, if_neg (by omega)]
    exact ih hm.2.2 (by omega)

theorem Memory.read_push {a : Nat} {v : BitVec n} {m : Memory n} (hm : Memory.wfFrom (a + 1) m = true) (b : Nat) :
    Memory.read (Memory.push a v m) b = if b = a then v else Memory.read m b := by
  unfold Memory.push
  split <;> rename_i hv
  · split <;> rename_i hb
    · subst hb hv; exact Memory.read_eq_zero_of_lt hm (by omega)
    · rfl
  · rw [Memory.read_cons]
    simp [eq_comm]

theorem Memory.wfFrom_push {lo a : Nat} {v : BitVec n} {m : Memory n} (h : lo ≤ a)
    (hm : Memory.wfFrom (a + 1) m = true) : Memory.wfFrom lo (Memory.push a v m) = true := by
  unfold Memory.push
  split
  · exact Memory.wfFrom_mono (by omega) hm
  · rw [Memory.wfFrom_cons]; exact ⟨h, by assumption, hm⟩

theorem Memory.below_push {size a : Nat} {v : BitVec n} {m : Memory n} (ha : a < size)
    (hm : Memory.below m size = true) : Memory.below (Memory.push a v m) size = true := by
  unfold Memory.push
  split
  · exact hm
  · simpa [Memory.below, ha] using hm

theorem Memory.wfFrom_write {lo a : Nat} {m : Memory n} (h : lo ≤ a) (hm : Memory.wfFrom lo m = true) (v : BitVec n) :
    Memory.wfFrom lo (Memory.write m a v) = true := by
  induction m generalizing lo with
  | nil => exact Memory.wfFrom_push h rfl
  | cons c m ih =>
    obtain ⟨k, x⟩ := c
    have hc := (Memory.wfFrom_cons lo k x m).1 hm
    unfold Memory.write
    split
    · exact Memory.wfFrom_push h ((Memory.wfFrom_cons _ _ _ _).2 ⟨by omega, hc.2⟩)
    · split
      · exact Memory.wfFrom_push h (by subst_vars; exact hc.2.2)
      · exact (Memory.wfFrom_cons _ _ _ _).2 ⟨hc.1, hc.2.1, ih (by omega) hc.2.2⟩

theorem Memory.read_write_from {lo a : Nat} {m : Memory n} (hm : Memory.wfFrom lo m = true) (v : BitVec n) (b : Nat) :
    Memory.read (Memory.write m a v) b = if b = a then v else Memory.read m b := by
  induction m generalizing lo with
  | nil => exact Memory.read_push rfl b
  | cons c m ih =>
    obtain ⟨k, x⟩ := c
    have hc := (Memory.wfFrom_cons lo k x m).1 hm
    unfold Memory.write
    split <;> rename_i h1
    · exact Memory.read_push ((Memory.wfFrom_cons _ _ _ _).2 ⟨by omega, hc.2⟩) b
    · split <;> rename_i h2
      · subst h2
        rw [Memory.read_push hc.2.2, Memory.read_cons]
        by_cases hb : b = a
        · simp [hb]
        · rw [if_neg hb, if_neg hb, if_neg (Ne.symm hb)]
      · rw [Memory.read_cons, Memory.read_cons, ih hc.2.2]
        by_cases hk : k = b
        · subst hk; simp [Ne.symm h2]
        · simp [hk]

/-- A read after a write: the value at the address written, and what was there everywhere else. -/
theorem Memory.read_write {m : Memory n} (hm : Memory.wf m = true) (a : Nat) (v : BitVec n) (b : Nat) :
    Memory.read (Memory.write m a v) b = if b = a then v else Memory.read m b := Memory.read_write_from hm v b

theorem Memory.read_write_same {m : Memory n} (hm : Memory.wf m = true) (a : Nat) (v : BitVec n) :
    Memory.read (Memory.write m a v) a = v := by rw [Memory.read_write hm, if_pos rfl]

theorem Memory.read_write_ne {m : Memory n} (hm : Memory.wf m = true) {a b : Nat} (h : b ≠ a) (v : BitVec n) :
    Memory.read (Memory.write m a v) b = Memory.read m b := by rw [Memory.read_write hm, if_neg h]

/-- A write keeps the canonical form. -/
theorem Memory.wf_write {m : Memory n} (hm : Memory.wf m = true) (a : Nat) (v : BitVec n) :
    Memory.wf (Memory.write m a v) = true := Memory.wfFrom_write (Nat.zero_le _) hm v

theorem Memory.below_write {m : Memory n} {size a : Nat} (hm : Memory.below m size = true) (ha : a < size)
    (v : BitVec n) : Memory.below (Memory.write m a v) size = true := by
  induction m with
  | nil => exact Memory.below_push ha rfl
  | cons c m ih =>
    obtain ⟨k, x⟩ := c
    have hc : k < size ∧ Memory.below m size = true := by simpa [Memory.below] using hm
    unfold Memory.write
    split
    · exact Memory.below_push ha hm
    · split
      · exact Memory.below_push ha hc.2
      · simpa [Memory.below, hc.1] using ih hc.2

/-- Nothing is listed at or above the bound. -/
theorem Memory.read_eq_zero_of_below {m : Memory n} {size a : Nat} (hm : Memory.below m size = true) (ha : size ≤ a) :
    Memory.read m a = 0 := by
  induction m with
  | nil => rfl
  | cons c m ih =>
    obtain ⟨k, x⟩ := c
    have hc : k < size ∧ Memory.below m size = true := by simpa [Memory.below] using hm
    rw [Memory.read_cons, if_neg (by omega)]
    exact ih hc.2

theorem Memory.ext_from {lo : Nat} {m m' : Memory n} (hm : Memory.wfFrom lo m = true) (hm' : Memory.wfFrom lo m' = true)
    (h : ∀ a, Memory.read m a = Memory.read m' a) : m = m' := by
  induction m generalizing lo m' with
  | nil =>
    cases m' with
    | nil => rfl
    | cons c m' =>
      obtain ⟨k, x⟩ := c
      have hc := (Memory.wfFrom_cons _ _ _ _).1 hm'
      exact absurd (by simpa [Memory.read_cons] using (h k).symm) hc.2.1
  | cons c m ih =>
    obtain ⟨k, x⟩ := c
    have hc := (Memory.wfFrom_cons _ _ _ _).1 hm
    cases m' with
    | nil => exact absurd (by simpa [Memory.read_cons] using h k) hc.2.1
    | cons c' m' =>
      obtain ⟨k', x'⟩ := c'
      have hc' := (Memory.wfFrom_cons _ _ _ _).1 hm'
      have hk : k = k' := by
        rcases Nat.lt_trichotomy k k' with hlt | heq | hgt
        · have := h k
          rw [Memory.read_cons, if_pos rfl, Memory.read_cons, if_neg (by omega),
            Memory.read_eq_zero_of_lt hc'.2.2 (by omega)] at this
          exact absurd this hc.2.1
        · exact heq
        · have := h k'
          rw [Memory.read_cons, if_neg (by omega), Memory.read_eq_zero_of_lt hc.2.2 (by omega), Memory.read_cons,
            if_pos rfl] at this
          exact absurd this.symm hc'.2.1
      subst hk
      have hx : x = x' := by simpa [Memory.read_cons] using h k
      subst hx
      have hrest : m = m' := by
        refine ih hc.2.2 hc'.2.2 (fun a => ?_)
        by_cases ha : k = a
        · subst ha
          rw [Memory.read_eq_zero_of_lt hc.2.2 (by omega), Memory.read_eq_zero_of_lt hc'.2.2 (by omega)]
        · simpa [Memory.read_cons, ha] using h a
      rw [hrest]

/-- Two memories in canonical form with equal reads are equal data. -/
theorem Memory.ext {m m' : Memory n} (hm : Memory.wf m = true) (hm' : Memory.wf m' = true)
    (h : ∀ a, Memory.read m a = Memory.read m' a) : m = m' := Memory.ext_from hm hm' h

/-! ### Filtering by address -/

theorem Memory.wfFrom_filter {lo : Nat} {m : Memory n} (hm : Memory.wfFrom lo m = true) (q : Nat → Bool) :
    Memory.wfFrom lo (m.filter (fun c => q c.1)) = true := by
  induction m generalizing lo with
  | nil => rfl
  | cons c m ih =>
    obtain ⟨k, x⟩ := c
    have hc := (Memory.wfFrom_cons _ _ _ _).1 hm
    by_cases hq : q k = true
    · rw [List.filter_cons_of_pos (p := fun c : Nat × BitVec n => q c.1) (a := (k, x)) hq, Memory.wfFrom_cons]
      exact ⟨hc.1, hc.2.1, ih hc.2.2⟩
    · rw [List.filter_cons_of_neg (p := fun c : Nat × BitVec n => q c.1) (a := (k, x)) hq]
      exact Memory.wfFrom_mono (by omega) (ih hc.2.2)

theorem Memory.wf_filter {m : Memory n} (hm : Memory.wf m = true) (q : Nat → Bool) :
    Memory.wf (m.filter (fun c => q c.1)) = true := Memory.wfFrom_filter hm q

theorem Memory.read_filter (m : Memory n) (q : Nat → Bool) (a : Nat) :
    Memory.read (m.filter (fun c => q c.1)) a = if q a then Memory.read m a else 0 := by
  induction m with
  | nil => simp
  | cons c m ih =>
    obtain ⟨k, x⟩ := c
    by_cases hq : q k = true
    · rw [List.filter_cons_of_pos (p := fun c : Nat × BitVec n => q c.1) (a := (k, x)) hq, Memory.read_cons, Memory.read_cons, ih]
      by_cases hk : k = a
      · subst hk; simp [hq]
      · simp [hk]
    · rw [List.filter_cons_of_neg (p := fun c : Nat × BitVec n => q c.1) (a := (k, x)) hq, ih, Memory.read_cons]
      by_cases hk : k = a
      · subst hk; simp [hq]
      · simp [hk]

theorem Memory.below_filter {m : Memory n} {size : Nat} (hm : Memory.below m size = true) (q : Nat → Bool) :
    Memory.below (m.filter (fun c => q c.1)) size = true := by
  simp only [Memory.below, List.all_eq_true] at hm ⊢
  intro c hc
  exact hm c (List.mem_of_mem_filter hc)

/-! ### Tabulating -/

theorem Memory.tabulate_spec (f : Nat → BitVec n) (size count : Nat) (h : count ≤ size) :
    Memory.wfFrom (size - count) (Memory.tabulate f size count) = true ∧
      Memory.below (Memory.tabulate f size count) size = true ∧
      ∀ a, Memory.read (Memory.tabulate f size count) a = if size - count ≤ a ∧ a < size then f a else 0 := by
  induction count with
  | zero =>
    refine ⟨rfl, rfl, fun a => ?_⟩
    rw [if_neg (by omega)]; rfl
  | succ c ih =>
    obtain ⟨h1, h2, h3⟩ := ih (by omega)
    have h1' : Memory.wfFrom (size - (c + 1) + 1) (Memory.tabulate f size c) = true := by
      have : size - (c + 1) + 1 = size - c := by omega
      rwa [this]
    refine ⟨Memory.wfFrom_push le_rfl h1', Memory.below_push (by omega) h2, fun a => ?_⟩
    rw [Memory.tabulate, Memory.read_push h1', h3]
    by_cases ha : a = size - (c + 1)
    · rw [if_pos ha, if_pos (by omega), ha]
    · rw [if_neg ha]
      by_cases hb : size - c ≤ a ∧ a < size
      · rw [if_pos hb, if_pos (by omega)]
      · rw [if_neg hb, if_neg (by omega)]

theorem Memory.wf_tabulate (f : Nat → BitVec n) (size : Nat) : Memory.wf (Memory.tabulate f size size) = true :=
  Memory.wfFrom_mono (Nat.zero_le _) (Memory.tabulate_spec f size size le_rfl).1

theorem Memory.below_tabulate (f : Nat → BitVec n) (size : Nat) :
    Memory.below (Memory.tabulate f size size) size = true := (Memory.tabulate_spec f size size le_rfl).2.1

theorem Memory.read_tabulate (f : Nat → BitVec n) (size a : Nat) :
    Memory.read (Memory.tabulate f size size) a = if a < size then f a else 0 := by
  rw [(Memory.tabulate_spec f size size le_rfl).2.2]; simp

/-! ### Images -/

theorem imageMemory_spec (img : Image) :
    Memory.wf (imageMemory img) = true ∧ Memory.below (imageMemory img) img.size = true ∧
      ∀ i, Memory.read (imageMemory img) i = imageByte img i := by
  obtain ⟨size, cells⟩ := img
  induction cells with
  | nil => exact ⟨rfl, rfl, fun i => by simp [imageMemory, imageByte]⟩
  | cons c cells ih =>
    obtain ⟨k, x⟩ := c
    obtain ⟨h1, h2, h3⟩ := ih
    have hstep : imageMemory ⟨size, (k, x) :: cells⟩ =
        if k < size then Memory.write (imageMemory ⟨size, cells⟩) k x else imageMemory ⟨size, cells⟩ := rfl
    rw [hstep]
    split <;> rename_i hk
    · refine ⟨Memory.wf_write h1 k x, Memory.below_write h2 hk x, fun i => ?_⟩
      rw [Memory.read_write h1, h3]
      simp only [imageByte, Memory.read_cons]
      by_cases hi : i = k
      · subst hi; simp [hk]
      · simp [hi, Ne.symm hi]
    · refine ⟨h1, h2, fun i => ?_⟩
      rw [h3]
      simp only [imageByte, Memory.read_cons]
      by_cases hi : i < size
      · have : k ≠ i := by omega
        simp [this]
      · simp [hi]

/-- The image of a memory in canonical form inside the window gives that memory back. -/
theorem imageMemory_of_wf {m : Memory 8} {size : Nat} (hm : Memory.wf m = true) (hb : Memory.below m size = true) :
    imageMemory { size := size, cells := m } = m := by
  obtain ⟨h1, -, h3⟩ := imageMemory_spec { size := size, cells := m }
  refine Memory.ext h1 hm (fun i => ?_)
  rw [h3, imageByte]
  split <;> rename_i hi
  · rfl
  · exact (Memory.read_eq_zero_of_below hb (not_lt.1 hi)).symm

/-! ### The big-endian register file -/

/-- The byte that a write of `v` at width `w` puts at its `j`-th address. -/
def imageByteOf (w : Width) (v : Word) (j : Nat) : Byte := v.extractLsb' (8 * (w.bytes - 1 - j)) 8

theorem wf_memWrite {rf : Memory 8} (h : Memory.wf rf = true) (off : Nat) (w : Width) (v : Word) :
    Memory.wf (memWrite rf off w v) = true := by
  cases w <;> simp only [memWrite] <;> repeat' apply Memory.wf_write
  all_goals exact h

theorem below_memWrite {rf : Memory 8} {size off : Nat} {w : Width} (h : Memory.below rf size = true)
    (ho : off + w.bytes ≤ size) (v : Word) : Memory.below (memWrite rf off w v) size = true := by
  cases w <;> simp only [memWrite, Width.bytes] at ho ⊢ <;>
    repeat' first
      | exact h
      | (apply Memory.below_write _ (by omega))

/-- A byte after a `MemWrite`: byte `a - off` of the big-endian image inside the range, what was there outside it. -/
theorem read_memWrite {rf : Memory 8} (h : Memory.wf rf = true) (off : Nat) (w : Width) (v : Word) (a : Nat) :
    Memory.read (memWrite rf off w v) a =
      if off ≤ a ∧ a < off + w.bytes then imageByteOf w v (a - off) else Memory.read rf a := by
  have h8 : Width.w8.bytes = 1 := rfl
  have h16 : Width.w16.bytes = 2 := rfl
  have h32 : Width.w32.bytes = 4 := rfl
  cases w
  · simp only [memWrite]
    rw [Memory.read_write h]
    by_cases h0 : a = off
    · subst h0; simp [imageByteOf, h8]
    · rw [if_neg h0, if_neg (by omega)]
  · simp only [memWrite]
    rw [Memory.read_write (Memory.wf_write h _ _), Memory.read_write h]
    by_cases h1 : a = off + 1
    · subst h1; simp [imageByteOf, h16]
    · by_cases h0 : a = off
      · subst h0; simp [imageByteOf, h16]
      · rw [if_neg h1, if_neg h0, if_neg (by omega)]
  · simp only [memWrite]
    rw [Memory.read_write (Memory.wf_write (Memory.wf_write (Memory.wf_write h _ _) _ _) _ _),
      Memory.read_write (Memory.wf_write (Memory.wf_write h _ _) _ _), Memory.read_write (Memory.wf_write h _ _),
      Memory.read_write h]
    by_cases h3 : a = off + 3
    · subst h3; simp [imageByteOf, h32]
    · by_cases h2 : a = off + 2
      · subst h2; simp [imageByteOf, h32]
      · by_cases h1 : a = off + 1
        · subst h1; simp [imageByteOf, h32]
        · by_cases h0 : a = off
          · subst h0; simp [imageByteOf, h32]
          · rw [if_neg h3, if_neg h2, if_neg h1, if_neg h0, if_neg (by omega)]

/-- Two register files that agree on the bytes of an access read the same there. -/
theorem memRead_congr {rf rf' : Memory 8} {off : Nat} {w : Width}
    (h : ∀ a, off ≤ a → a < off + w.bytes → Memory.read rf a = Memory.read rf' a) :
    memRead rf off w = memRead rf' off w := by
  cases w <;> simp only [Width.bytes] at h
  · simp only [memRead, h off (by omega) (by omega)]
  · simp only [memRead, h off (by omega) (by omega), h (off + 1) (by omega) (by omega)]
  · simp only [memRead, h off (by omega) (by omega), h (off + 1) (by omega) (by omega),
      h (off + 2) (by omega) (by omega), h (off + 3) (by omega) (by omega)]

/-- The two bytes of a halfword, put together again. -/
theorem append_bytes16 (v : Word) : v.extractLsb' 8 8 ++ v.extractLsb' 0 8 = v.extractLsb' 0 16 := by
  rw [BitVec.extractLsb'_append_extractLsb'_eq_extractLsb' (by rfl)]

/-- The four bytes of a word, put together again. -/
theorem append_bytes32 (v : Word) :
    v.extractLsb' 24 8 ++ v.extractLsb' 16 8 ++ v.extractLsb' 8 8 ++ v.extractLsb' 0 8 = v := by
  ext i hi
  simp only [BitVec.getElem_append, BitVec.getElem_extractLsb']
  repeat' split
  all_goals (rw [← BitVec.getLsbD_eq_getElem]; congr 1; omega)

/-- A read after a write of the same bytes gives the value, truncated to the width. -/
theorem memRead_memWrite_same {rf : Memory 8} (h : Memory.wf rf = true) (off : Nat) (w : Width) (v : Word) :
    memRead (memWrite rf off w v) off w = truncTo w v := by
  cases w
  · simp [memRead, read_memWrite h, truncTo, Width.bytes, imageByteOf]
  · simp [memRead, read_memWrite h, truncTo, Width.bytes, imageByteOf, append_bytes16]
  · simp [memRead, read_memWrite h, truncTo, Width.bytes, imageByteOf, append_bytes32]

/-- A read of bytes that a write does not touch. -/
theorem memRead_memWrite_disjoint {rf : Memory 8} (h : Memory.wf rf = true) {off off' : Nat} {w w' : Width}
    (hd : off' + w'.bytes ≤ off ∨ off + w.bytes ≤ off') (v : Word) :
    memRead (memWrite rf off w v) off' w' = memRead rf off' w' := by
  refine memRead_congr (fun a h1 h2 => ?_)
  rw [read_memWrite h, if_neg (by omega)]

/-- The low bits of a zero-extended value are the value. -/
theorem setWidth_extractLsb'_setWidth {k : Nat} (x : BitVec k) (hk : k ≤ 32) :
    ((x.setWidth 32 : Word).extractLsb' 0 k).setWidth 32 = x.setWidth 32 := by
  congr 1
  ext i hi
  simp [show i < 32 by omega, BitVec.getLsbD_eq_getElem hi]

/-- Truncation keeps the value modulo 2^w (40_access.md R122). -/
theorem truncTo_toNat (w : Width) (d : Word) : (truncTo w d).toNat = d.toNat % 2 ^ w.bits := by
  have := d.isLt
  cases w
  · simp [truncTo, Width.bits, BitVec.extractLsb'_toNat]; omega
  · simp [truncTo, Width.bits, BitVec.extractLsb'_toNat]; omega
  · simp only [truncTo, Width.bits]; omega

theorem truncTo_eq_ofNat (w : Width) (d : Word) : truncTo w d = BitVec.ofNat 32 (d.toNat % 2 ^ w.bits) := by
  apply BitVec.eq_of_toNat_eq
  have := d.isLt
  have := Nat.mod_le d.toNat (2 ^ w.bits)
  rw [truncTo_toNat, BitVec.toNat_ofNat, Nat.mod_eq_of_lt (a := d.toNat % 2 ^ w.bits) (by omega)]

/-- Which bits truncation keeps. -/
theorem getLsbD_truncTo (w : Width) (d : Word) (i : Nat) :
    (truncTo w d).getLsbD i = (decide (i < w.bits) && d.getLsbD i) := by
  rw [BitVec.getLsbD, truncTo_toNat, Nat.testBit_mod_two_pow, BitVec.getLsbD]

/-- A value below 2^w is its own truncation. -/
theorem truncTo_of_lt {w : Width} {d : Word} (h : d.toNat < 2 ^ w.bits) : truncTo w d = d := by
  apply BitVec.eq_of_toNat_eq
  rw [truncTo_toNat, Nat.mod_eq_of_lt h]

theorem truncTo_truncTo (w : Width) (d : Word) : truncTo w (truncTo w d) = truncTo w d := by
  apply BitVec.eq_of_toNat_eq
  rw [truncTo_toNat, truncTo_toNat, Nat.mod_mod]

/-- A byte of the big-endian image as a number (20_memory.md R60). -/
theorem imageByteOf_toNat (w : Width) (v : Word) (j : Nat) (hj : j < w.bytes) :
    (imageByteOf w v j).toNat = v.toNat % 2 ^ w.bits / 2 ^ (8 * (w.bytes - 1 - j)) % 2 ^ 8 := by
  have := v.isLt
  cases w <;> simp only [Width.bytes] at hj
  · obtain rfl : j = 0 := by omega
    simp [imageByteOf, Width.bytes, Width.bits, BitVec.extractLsb'_toNat]
  · rcases (by omega : j = 0 ∨ j = 1) with rfl | rfl <;>
      simp [imageByteOf, Width.bytes, Width.bits, BitVec.extractLsb'_toNat, Nat.shiftRight_eq_div_pow] <;> omega
  · rcases (by omega : j = 0 ∨ j = 1 ∨ j = 2 ∨ j = 3) with rfl | rfl | rfl | rfl <;>
      simp [imageByteOf, Width.bytes, Width.bits, BitVec.extractLsb'_toNat, Nat.shiftRight_eq_div_pow] <;> omega

/-- A write stores only the low bits of its value. -/
theorem memWrite_truncTo (rf : Memory 8) (off : Nat) (w : Width) (v : Word) :
    memWrite rf off w (truncTo w v) = memWrite rf off w v := by
  have h := truncTo_toNat w v
  have hx : ∀ k, 8 * k + 8 ≤ w.bits → (truncTo w v).extractLsb' (8 * k) 8 = v.extractLsb' (8 * k) 8 := by
    intro k hk
    apply BitVec.eq_of_getLsbD_eq
    intro i hi
    rw [BitVec.getLsbD_extractLsb', BitVec.getLsbD_extractLsb', getLsbD_truncTo,
      decide_eq_true (show 8 * k + i < w.bits by omega), Bool.true_and]
  cases w
  · have := hx 0 (by simp [Width.bits])
    simp only [memWrite]; simp only [Nat.mul_zero] at this; rw [this]
  · have h0 := hx 0 (by simp [Width.bits])
    have h1 := hx 1 (by simp [Width.bits])
    simp only [memWrite]; simp only [Nat.mul_zero, Nat.mul_one] at h0 h1; rw [h0, h1]
  · rfl

/-- The three reads as numbers (20_memory.md R60). -/
theorem memRead_toNat (rf : Memory 8) (off : Nat) :
    (memRead rf off .w8).toNat = (Memory.read rf off).toNat ∧
    (memRead rf off .w16).toNat = (Memory.read rf off).toNat * 2 ^ 8 + (Memory.read rf (off + 1)).toNat ∧
    (memRead rf off .w32).toNat =
      (Memory.read rf off).toNat * 2 ^ 24 + (Memory.read rf (off + 1)).toNat * 2 ^ 16 +
        (Memory.read rf (off + 2)).toNat * 2 ^ 8 + (Memory.read rf (off + 3)).toNat := by
  have h0 := (Memory.read rf off).isLt
  have h1 := (Memory.read rf (off + 1)).isLt
  have h2 := (Memory.read rf (off + 2)).isLt
  have h3 := (Memory.read rf (off + 3)).isLt
  refine ⟨?_, ?_, ?_⟩
  · simp only [memRead, BitVec.toNat_setWidth]; omega
  · simp only [memRead, BitVec.toNat_setWidth, BitVec.toNat_append]
    rw [← Nat.shiftLeft_add_eq_or_of_lt h1, Nat.shiftLeft_eq]; omega
  · have hw : (memRead rf off .w32).toNat =
        (((Memory.read rf off ++ Memory.read rf (off + 1)) ++ Memory.read rf (off + 2)) ++
          Memory.read rf (off + 3) : BitVec (8 + 8 + 8 + 8)).toNat := rfl
    rw [hw, BitVec.toNat_append, BitVec.toNat_append, BitVec.toNat_append, ← Nat.shiftLeft_add_eq_or_of_lt h3,
      ← Nat.shiftLeft_add_eq_or_of_lt h2, ← Nat.shiftLeft_add_eq_or_of_lt h1]
    simp only [Nat.shiftLeft_eq]; omega

/-- A value read at a width fits the width. -/
theorem truncTo_memRead (rf : Memory 8) (off : Nat) (w : Width) : truncTo w (memRead rf off w) = memRead rf off w := by
  cases w
  · exact setWidth_extractLsb'_setWidth _ (by decide)
  · exact setWidth_extractLsb'_setWidth _ (by decide)
  · rfl

end Sys2Proof.Machine
end

