-- ==== Sys2Proof/Laws/Profile.lean ====
section
/-! SUPPORT. Sys2Proof/Laws/Profile.lean: what a well-formed profile gives: each clause of `Profile.wf` by name, the
decoder's look-up, the spots of the side-effect classes, the masks of the named registers, and the DMA layout. -/

namespace Sys2Proof

open Machine

theorem pairwise_iff {α : Type} (r : α → α → Bool) (l : List α) :
    pairwise r l = true ↔ l.Pairwise (fun x y => r x y = true) := by
  induction l with
  | nil => simp [pairwise]
  | cons x xs ih => simp [pairwise, ih]

theorem rangesDisjoint_iff (x y : Nat × Nat) :
    rangesDisjoint x y = true ↔ x.1 + x.2 ≤ y.1 ∨ y.1 + y.2 ≤ x.1 := by simp [rangesDisjoint]

theorem SideEffect.ofCode_code (c : SideEffect) : SideEffect.ofCode c.code = some c := by cases c <;> rfl

theorem SideEffect.code_of_ofCode {k : BitVec 3} {c : SideEffect} (h : SideEffect.ofCode k = some c) : k = c.code := by
  revert h; revert k; cases c <;> decide

variable {p : Profile}

/-! ### The clauses of well-formedness -/

theorem Profile.wf_parts (h : p.wf = true) : p.descWf = true ∧ p.resetWf = true ∧ p.dmaWf = true := by
  simpa [Profile.wf, and_assoc] using h

theorem Profile.descWf_parts (h : p.wf = true) :
    p.descUnique = true ∧ p.descInWindow = true ∧ p.descMasks = true ∧ p.descCodes = true ∧ p.clockSpot = true ∧
      p.powerSpot = true ∧ p.rtcSpots = true ∧ p.fixedSpots = true ∧ p.pllcrBits = true ∧ p.pllfsrBits = true ∧
      p.pllOnlyHalf = true ∧ p.clk32Bit = true ∧ p.rtcFields = true ∧ p.rtcMasks = true ∧ p.rtcctlEntry = true ∧
      p.sdctrlEntry = true ∧ p.namedDisjoint = true := by
  simpa [Profile.descWf, and_assoc] using (Profile.wf_parts h).1

theorem Profile.resetWf_parts (h : p.wf = true) :
    p.resetDisjoint = true ∧ p.resetSparesCalendar = true ∧ p.resetInWindow = true ∧ p.resetNormative = true := by
  simpa [Profile.resetWf, and_assoc] using (Profile.wf_parts h).2.1

theorem Profile.dmaWf_parts (h : p.wf = true) :
    p.dmaCounts = true ∧ p.dmaInWindow = true ∧ p.dmaInjective = true ∧ p.dmaMapMask = true := by
  simpa [Profile.dmaWf, and_assoc] using (Profile.wf_parts h).2.2

/-! ### The decoder -/

theorem Profile.lookup_some {off : Nat} {w : Width} {e : Descriptor} (h : p.lookup off w = some e) :
    e ∈ p.desc ∧ e.off = off ∧ e.width = w := by
  have h1 := List.mem_of_find?_eq_some h
  have h2 := List.find?_some h
  simp only [Bool.and_eq_true, beq_iff_eq] at h2
  exact ⟨h1, h2⟩

theorem find?_of_unique {α : Type} {r : α → Bool} {l : List α} (hu : l.Pairwise (fun x y => ¬(r x = true ∧ r y = true)))
    {x : α} (hx : x ∈ l) (hr : r x = true) : l.find? r = some x := by
  induction l with
  | nil => cases hx
  | cons y l ih =>
    rw [List.pairwise_cons] at hu
    by_cases hy : r y = true
    · rw [List.find?_cons_of_pos hy]
      rcases List.mem_cons.1 hx with rfl | hm
      · rfl
      · exact absurd ⟨hy, hr⟩ (hu.1 x hm)
    · rw [List.find?_cons_of_neg hy]
      rcases List.mem_cons.1 hx with rfl | hm
      · exact absurd hr hy
      · exact ih hu.2 hm

/-- Every entry is what the decoder finds at its own offset and width. -/
theorem Profile.lookup_of_mem (h : p.wf = true) {e : Descriptor} (he : e ∈ p.desc) :
    p.lookup e.off e.width = some e := by
  have hu := (pairwise_iff _ _).1 (Profile.descWf_parts h).1
  refine find?_of_unique (hu.imp ?_) he (by simp)
  intro x y hxy
  simp only [Bool.not_eq_true', Bool.and_eq_false_iff, beq_eq_false_iff_ne, ne_eq, Bool.and_eq_true, beq_iff_eq] at hxy ⊢
  rintro ⟨⟨h1, h2⟩, h3, h4⟩
  rcases hxy with hxy | hxy
  · exact hxy (h1.trans h3.symm)
  · exact hxy (h2.trans h4.symm)

theorem Profile.lookup_inWindow (h : p.wf = true) {off : Nat} {w : Width} {e : Descriptor}
    (he : p.lookup off w = some e) : off % w.bytes = 0 ∧ off + w.bytes ≤ p.periphSize := by
  obtain ⟨hm, rfl, rfl⟩ := Profile.lookup_some he
  have := List.all_eq_true.1 (Profile.descWf_parts h).2.1 e hm
  simpa using this

theorem Profile.lookup_masks (h : p.wf = true) {off : Nat} {w : Width} {e : Descriptor}
    (he : p.lookup off w = some e) : e.W &&& e.K = 0 ∧ e.W.toNat < 2 ^ w.bits ∧ e.K.toNat < 2 ^ w.bits := by
  obtain ⟨hm, rfl, rfl⟩ := Profile.lookup_some he
  have := List.all_eq_true.1 (Profile.descWf_parts h).2.2.1 e hm
  simpa [and_assoc] using this

theorem Profile.lookup_class (h : p.wf = true) {off : Nat} {w : Width} {e : Descriptor}
    (he : p.lookup off w = some e) : ∃ c, SideEffect.ofCode e.cls = some c ∧ e.cls = c.code := by
  have := List.all_eq_true.1 (Profile.descWf_parts h).2.2.2.1 e (Profile.lookup_some he).1
  obtain ⟨c, hc⟩ := Option.isSome_iff_exists.1 this
  exact ⟨c, hc, SideEffect.code_of_ofCode hc⟩

theorem Profile.lookup_of_classAt (h : p.wf = true) {c : SideEffect} {spots : List (Nat × Width)}
    (hc : p.classAt c spots = true) {off : Nat} {w : Width} (hs : (off, w) ∈ spots) :
    ∃ e, p.lookup off w = some e ∧ e.cls = c.code := by
  have := List.all_eq_true.1 hc _ hs
  obtain ⟨e, he, h1⟩ := List.any_eq_true.1 this
  simp only [Bool.and_eq_true, beq_iff_eq] at h1
  obtain ⟨⟨rfl, rfl⟩, h3⟩ := h1
  exact ⟨e, Profile.lookup_of_mem h he, h3⟩

theorem Profile.spot_of_classOnlyAt {c : SideEffect} {spots : List (Nat × Width)} (hc : p.classOnlyAt c spots = true)
    {off : Nat} {w : Width} {e : Descriptor} (he : p.lookup off w = some e) (hcls : e.cls = c.code) :
    (off, w) ∈ spots := by
  obtain ⟨hm, rfl, rfl⟩ := Profile.lookup_some he
  have := List.all_eq_true.1 hc e hm
  simp only [hcls, beq_self_eq_true, Bool.not_true, Bool.false_or, List.any_eq_true, Bool.and_eq_true, beq_iff_eq] at this
  obtain ⟨⟨o, w⟩, hs, h1, h2⟩ := this
  simp only at h1 h2
  rw [h1, h2]; exact hs

theorem Profile.lookup_of_entrySat {off : Nat} {w : Width} {q : Descriptor → Bool} (h : p.entrySat off w q = true) :
    ∃ e, p.lookup off w = some e ∧ q e = true := by
  unfold Profile.entrySat at h
  cases hl : p.lookup off w with
  | none => rw [hl] at h; cases h
  | some e => rw [hl] at h; exact ⟨e, rfl, h⟩

/-! ### The named registers -/

/-- CLOCK stands at (OFF_PLLFSR, 16) and nowhere else. -/
theorem Profile.clock_iff (h : p.wf = true) {off : Nat} {w : Width} {e : Descriptor} (he : p.lookup off w = some e) :
    e.cls = SideEffect.clock.code ↔ off = p.offPllfsr ∧ w = .w16 := by
  have hs : p.classAt .clock [(p.offPllfsr, .w16)] = true ∧ p.classOnlyAt .clock [(p.offPllfsr, .w16)] = true := by
    simpa [Profile.clockSpot] using (Profile.descWf_parts h).2.2.2.2.1
  constructor
  · intro hc
    simpa using Profile.spot_of_classOnlyAt hs.2 he hc
  · rintro ⟨rfl, rfl⟩
    obtain ⟨e', he', hc⟩ := Profile.lookup_of_classAt h hs.1 (List.mem_singleton.2 rfl)
    rw [he] at he'; cases he'; exact hc

/-- POWER stands at (OFF_PLLCR, 16) and nowhere else. -/
theorem Profile.power_iff (h : p.wf = true) {off : Nat} {w : Width} {e : Descriptor} (he : p.lookup off w = some e) :
    e.cls = SideEffect.power.code ↔ off = p.offPllcr ∧ w = .w16 := by
  have hs : p.classAt .power [(p.offPllcr, .w16)] = true ∧ p.classOnlyAt .power [(p.offPllcr, .w16)] = true := by
    simpa [Profile.powerSpot] using (Profile.descWf_parts h).2.2.2.2.2.1
  constructor
  · intro hc
    simpa using Profile.spot_of_classOnlyAt hs.2 he hc
  · rintro ⟨rfl, rfl⟩
    obtain ⟨e', he', hc⟩ := Profile.lookup_of_classAt h hs.1 (List.mem_singleton.2 rfl)
    rw [he] at he'; cases he'; exact hc

/-- The PLLCR entry: class POWER, DISPLL and PRESC in W, K = 0. -/
theorem Profile.pllcr_entry (h : p.wf = true) :
    ∃ e, p.lookup p.offPllcr .w16 = some e ∧ e.cls = SideEffect.power.code ∧ e.W.getLsbD p.bitDispll = true ∧
      e.W.getLsbD p.bitPresc = true ∧ e.K = 0 := by
  have hb := (Profile.descWf_parts h).2.2.2.2.2.2.2.2.1
  simp only [Profile.pllcrBits, Bool.and_eq_true] at hb
  obtain ⟨e, he, hq⟩ := Profile.lookup_of_entrySat hb.2
  simp only [Bool.and_eq_true, beq_iff_eq] at hq
  exact ⟨e, he, (Profile.power_iff h he).2 ⟨rfl, rfl⟩, hq.1.1, hq.1.2, hq.2⟩

/-- DISPLL is clear in the reset value of PLLCR. -/
theorem Profile.dispLl_reset (h : p.wf = true) : (0x24B3 : Word).getLsbD p.bitDispll = false := by
  have hb := (Profile.descWf_parts h).2.2.2.2.2.2.2.2.1
  simp only [Profile.pllcrBits, Bool.and_eq_true, Bool.not_eq_true'] at hb
  exact hb.1.1

/-- The PLLFSR entry: class CLOCK, PROT one of the bits 12 to 15, bits 0 to 11 and PROT in W. -/
theorem Profile.pllfsr_entry (h : p.wf = true) :
    ∃ e, p.lookup p.offPllfsr .w16 = some e ∧ e.cls = SideEffect.clock.code ∧ e.W.getLsbD p.bitProt = true ∧
      e.W &&& 0xFFF = 0xFFF ∧ 12 ≤ p.bitProt ∧ p.bitProt ≤ 15 := by
  have hb := (Profile.descWf_parts h).2.2.2.2.2.2.2.2.2.1
  simp only [Profile.pllfsrBits, Bool.and_eq_true, decide_eq_true_eq] at hb
  obtain ⟨e, he, hq⟩ := Profile.lookup_of_entrySat hb.2
  simp only [Bool.and_eq_true, beq_iff_eq] at hq
  exact ⟨e, he, (Profile.clock_iff h he).2 ⟨rfl, rfl⟩, hq.1, hq.2, hb.1.1, hb.1.2⟩

/-- An entry is one of the two PLL entries or covers no PLL byte. -/
theorem Profile.pll_or_disjoint (h : p.wf = true) {off : Nat} {w : Width} {e : Descriptor}
    (he : p.lookup off w = some e) :
    (w = .w16 ∧ (off = p.offPllcr ∨ off = p.offPllfsr)) ∨
      ((off + w.bytes ≤ p.offPllcr ∨ p.offPllcr + 2 ≤ off) ∧ (off + w.bytes ≤ p.offPllfsr ∨ p.offPllfsr + 2 ≤ off)) := by
  obtain ⟨hm, rfl, rfl⟩ := Profile.lookup_some he
  have := List.all_eq_true.1 (Profile.descWf_parts h).2.2.2.2.2.2.2.2.2.2.1 e hm
  simpa [rangesDisjoint] using this

/-- The CLK32 bit: hosted at width 16, out of W, in K, one of 16 bits. -/
theorem Profile.clk32_entry (h : p.wf = true) :
    ∃ e, p.lookup p.clk32Off .w16 = some e ∧ e.W.getLsbD p.bitClk32 = false ∧ e.K.getLsbD p.bitClk32 = true ∧
      p.bitClk32 < 16 := by
  have hb := (Profile.descWf_parts h).2.2.2.2.2.2.2.2.2.2.2.1
  simp only [Profile.clk32Bit, Bool.and_eq_true] at hb
  obtain ⟨e, he, hq⟩ := Profile.lookup_of_entrySat hb.1
  simp only [Bool.and_eq_true, Bool.not_eq_true'] at hq
  refine ⟨e, he, hq.1, hq.2, ?_⟩
  by_contra hge
  have hlt := (Profile.lookup_masks h he).2.2
  have : e.K.toNat < 2 ^ p.bitClk32 :=
    lt_of_lt_of_le hlt (Nat.pow_le_pow_right (by decide) (by simpa [Width.bits] using hge))
  have hk := hq.2
  rw [BitVec.getLsbD, Nat.testBit_lt_two_pow this] at hk
  exact absurd hk (by decide)

/-- The named registers share no byte (log entry 8). -/
theorem Profile.named_disjoint (h : p.wf = true) : p.namedRanges.Pairwise (fun x y => rangesDisjoint x y = true) :=
  (pairwise_iff _ _).1 (Profile.descWf_parts h).2.2.2.2.2.2.2.2.2.2.2.2.2.2.2.2

/-- The CLK32 register is PLLFSR or shares no byte with the PLL registers, and shares none with IDR. -/
theorem Profile.clk32_host (h : p.wf = true) :
    (p.clk32Off = p.offPllfsr ∨
      ((p.clk32Off + 2 ≤ p.offPllcr ∨ p.offPllcr + 2 ≤ p.clk32Off) ∧
        (p.clk32Off + 2 ≤ p.offPllfsr ∨ p.offPllfsr + 2 ≤ p.clk32Off))) ∧
      (p.clk32Off + 2 ≤ p.offIdr ∨ p.offIdr + 4 ≤ p.clk32Off) := by
  have hb := (Profile.descWf_parts h).2.2.2.2.2.2.2.2.2.2.2.1
  simp only [Profile.clk32Bit, Bool.and_eq_true, rangesDisjoint_iff] at hb
  refine ⟨?_, hb.2⟩
  obtain ⟨e, he, -, hK, -⟩ := Profile.clk32_entry h
  rcases Profile.pll_or_disjoint h he with ⟨-, hcr | hfsr⟩ | hd
  · obtain ⟨e', he', -, -, -, hK'⟩ := Profile.pllcr_entry h
    rw [hcr, he'] at he
    cases he
    rw [hK'] at hK
    simp at hK
  · exact .inl hfsr
  · exact .inr hd

/-- The pairs of named registers, spelled out for arithmetic. -/
theorem Profile.named_apart (h : p.wf = true) :
    (p.offPllcr + 2 ≤ p.offPllfsr ∨ p.offPllfsr + 2 ≤ p.offPllcr) ∧
    (p.offPllcr + 2 ≤ p.offIdr ∨ p.offIdr + 4 ≤ p.offPllcr) ∧
    (p.offPllcr + 2 ≤ p.offRtctime ∨ p.offRtctime + 4 ≤ p.offPllcr) ∧
    (p.offPllcr + 2 ≤ p.offDayr ∨ p.offDayr + 2 ≤ p.offPllcr) ∧
    (p.offPllfsr + 2 ≤ p.offIdr ∨ p.offIdr + 4 ≤ p.offPllfsr) ∧
    (p.offPllfsr + 2 ≤ p.offRtctime ∨ p.offRtctime + 4 ≤ p.offPllfsr) ∧
    (p.offPllfsr + 2 ≤ p.offDayr ∨ p.offDayr + 2 ≤ p.offPllfsr) ∧
    (p.offIdr + 4 ≤ p.offRtctime ∨ p.offRtctime + 4 ≤ p.offIdr) ∧
    (p.offIdr + 4 ≤ p.offDayr ∨ p.offDayr + 2 ≤ p.offIdr) ∧
    (p.offRtctime + 4 ≤ p.offDayr ∨ p.offDayr + 2 ≤ p.offRtctime) ∧
    (p.offRtctime + 4 ≤ p.offRtcctl ∨ p.offRtcctl + p.rtcctlWidth.bytes ≤ p.offRtctime) ∧
    (p.offDayr + 2 ≤ p.offRtcctl ∨ p.offRtcctl + p.rtcctlWidth.bytes ≤ p.offDayr) := by
  have hd := Profile.named_disjoint h
  simp only [Profile.namedRanges, List.pairwise_cons, List.mem_cons, List.not_mem_nil, or_false, forall_eq_or_imp,
    forall_eq, rangesDisjoint_iff] at hd
  obtain ⟨⟨a1, a2, a3, a4, -⟩, ⟨b1, b2, b3, -⟩, ⟨c1, c2, -⟩, ⟨d1, d2⟩, e1, -⟩ := hd
  exact ⟨a1, a2, a3, a4, b1, b2, b3, c1, c2, d1, d2, e1⟩

/-- RTCTIME and DAYR: class RTC, W the union of the fields and 0x01FF, K = 0. -/
theorem Profile.rtc_entries (h : p.wf = true) :
    (∃ e, p.lookup p.offRtctime .w32 = some e ∧ e.cls = SideEffect.rtc.code ∧ e.W = p.rtcMask ∧ e.K = 0) ∧
      (∃ e, p.lookup p.offDayr .w16 = some e ∧ e.cls = SideEffect.rtc.code ∧ e.W = 0x01FF ∧ e.K = 0) := by
  have hc := (Profile.descWf_parts h).2.2.2.2.2.2.1
  simp only [Profile.rtcSpots, Bool.and_eq_true] at hc
  have hm := (Profile.descWf_parts h).2.2.2.2.2.2.2.2.2.2.2.2.2.1
  simp only [Profile.rtcMasks, Bool.and_eq_true] at hm
  obtain ⟨e1, he1, hq1⟩ := Profile.lookup_of_entrySat hm.1
  obtain ⟨e2, he2, hq2⟩ := Profile.lookup_of_entrySat hm.2
  obtain ⟨f1, hf1, hg1⟩ := Profile.lookup_of_classAt h hc.1 (off := p.offRtctime) (w := .w32) (by simp)
  obtain ⟨f2, hf2, hg2⟩ := Profile.lookup_of_classAt h hc.1 (off := p.offDayr) (w := .w16) (by simp)
  rw [he1] at hf1; cases hf1
  rw [he2] at hf2; cases hf2
  simp only [Bool.and_eq_true, beq_iff_eq] at hq1 hq2
  exact ⟨⟨e1, he1, hg1, hq1⟩, e2, he2, hg2, hq2⟩

/-- The field positions of RTCTIME (R193). -/
theorem Profile.rtc_fields (h : p.wf = true) :
    p.secLo + 6 ≤ 32 ∧ p.minLo + 6 ≤ 32 ∧ p.hrLo + 5 ≤ 32 ∧
      (p.secLo + 6 ≤ p.minLo ∨ p.minLo + 6 ≤ p.secLo) ∧ (p.secLo + 6 ≤ p.hrLo ∨ p.hrLo + 5 ≤ p.secLo) ∧
      (p.minLo + 6 ≤ p.hrLo ∨ p.hrLo + 5 ≤ p.minLo) := by
  have hb := (Profile.descWf_parts h).2.2.2.2.2.2.2.2.2.2.2.2.1
  simp only [Profile.rtcFields, Bool.and_eq_true, decide_eq_true_eq, pairwise_iff, List.pairwise_cons, List.mem_cons,
    List.not_mem_nil, or_false, forall_eq_or_imp, forall_eq, rangesDisjoint_iff] at hb
  tauto

/-- RTCCTL lies in the window. -/
theorem Profile.rtcctl_entry (h : p.wf = true) :
    ∃ e, p.lookup p.offRtcctl p.rtcctlWidth = some e ∧ e.cls = SideEffect.none.code ∧
      e.W.getLsbD p.bitRtcen = true ∧ e.K = 0 := by
  have hb := (Profile.descWf_parts h).2.2.2.2.2.2.2.2.2.2.2.2.2.2.1
  obtain ⟨e, he, hq⟩ := Profile.lookup_of_entrySat hb
  simp only [Bool.and_eq_true, beq_iff_eq] at hq
  exact ⟨e, he, hq.1.1, hq.1.2, hq.2⟩

/-- The chip identifier is word-aligned and in the window, and every aligned access that covers one of its bytes finds a
FIXED entry inside it (10_state.md R32). -/
theorem Profile.idr_fixed (h : p.wf = true) :
    p.offIdr % 4 = 0 ∧ p.offIdr + 4 ≤ p.periphSize ∧
      ∀ (off : Nat) (w : Width), off % w.bytes = 0 → ¬(off + w.bytes ≤ p.offIdr) → ¬(p.offIdr + 4 ≤ off) →
        ∃ e, p.lookup off w = some e ∧ e.cls = SideEffect.fixed.code := by
  have hc := (Profile.descWf_parts h).2.2.2.2.2.2.2.1
  simp only [Profile.fixedSpots] at hc
  have h32 := Profile.lookup_of_classAt h hc (off := p.offIdr) (w := .w32) (by simp)
  obtain ⟨e0, he0, -⟩ := h32
  have hw := Profile.lookup_inWindow h he0
  simp only [Width.bytes] at hw
  refine ⟨hw.1, hw.2, ?_⟩
  intro off w ha h1 h2
  cases w <;> simp only [Width.bytes] at ha h1
  · have : off = p.offIdr ∨ off = p.offIdr + 1 ∨ off = p.offIdr + 2 ∨ off = p.offIdr + 3 := by omega
    rcases this with rfl | rfl | rfl | rfl <;> exact Profile.lookup_of_classAt h hc (by simp)
  · have : off = p.offIdr ∨ off = p.offIdr + 2 := by omega
    rcases this with rfl | rfl <;> exact Profile.lookup_of_classAt h hc (by simp)
  · have : off = p.offIdr := by omega
    subst this; exact Profile.lookup_of_classAt h hc (by simp)

/-! ### The reset table -/

theorem Profile.resetTable_facts (h : p.wf = true) {e : ResetEntry} (he : e ∈ p.resetTable) :
    (e.off + e.width.bytes ≤ p.offRtctime ∨ p.offRtctime + 4 ≤ e.off) ∧
      (e.off + e.width.bytes ≤ p.offDayr ∨ p.offDayr + 2 ≤ e.off) ∧
      e.off % e.width.bytes = 0 ∧ e.off + e.width.bytes ≤ p.periphSize := by
  have h1 := List.all_eq_true.1 (Profile.resetWf_parts h).2.1 e he
  have h2 := List.all_eq_true.1 (Profile.resetWf_parts h).2.2.1 e he
  simp only [Bool.and_eq_true, rangesDisjoint_iff, beq_iff_eq, decide_eq_true_eq] at h1 h2
  exact ⟨h1.1, h1.2, h2⟩

theorem Profile.resetTable_disjoint (h : p.wf = true) :
    p.resetTable.Pairwise
      (fun e f => e.off + e.width.bytes ≤ f.off ∨ f.off + f.width.bytes ≤ e.off) := by
  have := (pairwise_iff _ _).1 (Profile.resetWf_parts h).1
  exact this.imp (fun hxy => (rangesDisjoint_iff _ _).1 hxy)

theorem Profile.resetTable_normative (h : p.wf = true) :
    ({ off := p.offPllcr, width := .w16, value := 0x24B3 } : ResetEntry) ∈ p.resetTable ∧
      ({ off := p.offPllfsr, width := .w16, value := 0x0347 } : ResetEntry) ∈ p.resetTable ∧
      ({ off := p.offIdr, width := .w32, value := p.chipId } : ResetEntry) ∈ p.resetTable := by
  have := (Profile.resetWf_parts h).2.2.2
  simpa [Profile.resetNormative, and_assoc] using this

/-! ### The DMA layout -/

theorem distinctWords_iff (seen : Nat) (l : List Nat) :
    distinctWords seen l = true ↔
      (∀ o ∈ l, seen.testBit (o / 4) = false) ∧ l.Pairwise (fun x y => x / 4 ≠ y / 4) := by
  induction l generalizing seen with
  | nil => simp [distinctWords]
  | cons o os ih =>
    simp only [distinctWords, Bool.and_eq_true, Bool.not_eq_true', ih, Nat.testBit_lor, Nat.testBit_two_pow,
      Bool.or_eq_false_iff, decide_eq_false_iff_not, List.mem_cons, forall_eq_or_imp, List.pairwise_cons]
    constructor
    · rintro ⟨h1, h2, h3⟩
      exact ⟨⟨h1, fun a ha => (h2 a ha).1⟩, fun a ha => (h2 a ha).2, h3⟩
    · rintro ⟨⟨h1, h2⟩, h3, h4⟩
      exact ⟨h1, fun a ha => ⟨h2 a ha, h3 a ha⟩, h4⟩

/-- The DMA layout's words are distinct, in the window and aligned, and each kind has its count of registers. -/
theorem Profile.dma_facts (h : p.wf = true) (hd : p.hasDma = true) :
    p.dmaLayout.all.Pairwise (fun x y => x / 4 ≠ y / 4) ∧
      (∀ o ∈ p.dmaLayout.all, o % 4 = 0 ∧ o + 4 ≤ p.dmaSize) ∧
      (∀ k, (p.dmaLayout.offsets k).length = k.count) ∧ p.dmaMask.drcmr = 0x000000FF := by
  obtain ⟨h1, h2, h3, h4⟩ := Profile.dmaWf_parts h
  simp only [Profile.dmaCounts, Profile.dmaInWindow, Profile.dmaInjective, Profile.dmaMapMask, hd, Bool.not_true,
    Bool.false_or] at h1 h2 h3 h4
  refine ⟨((distinctWords_iff _ _).1 h3).2, ?_, ?_, by simpa using h4⟩
  · intro o ho
    simpa using List.all_eq_true.1 h2 o ho
  · intro k
    have := List.all_eq_true.1 h1 k (by cases k <;> simp [DmaKind.all])
    simpa using this

end Sys2Proof
end

