-- ==== Sys2Proof/Laws/State.lean ====
section
/-! SUPPORT. Sys2Proof/Laws/State.lean: what each named update of the state leaves in each field. -/

namespace Sys2Proof.Machine

@[simp] theorem State.withRf_profile (s : State) (m : Memory 8) :
    (s.withRf m).profile = s.profile := rfl

@[simp] theorem State.withRf_rf (s : State) (m : Memory 8) :
    (s.withRf m).rf = m := rfl

@[simp] theorem State.withRf_freqHz (s : State) (m : Memory 8) :
    (s.withRf m).freqHz = s.freqHz := rfl

@[simp] theorem State.withRf_refCyc (s : State) (m : Memory 8) :
    (s.withRf m).refCyc = s.refCyc := rfl

@[simp] theorem State.withRf_dw (s : State) (m : Memory 8) :
    (s.withRf m).dw = s.dw := rfl

@[simp] theorem State.withRf_events (s : State) (m : Memory 8) :
    (s.withRf m).events = s.events := rfl

@[simp] theorem State.withRf_responses (s : State) (m : Memory 8) :
    (s.withRf m).responses = s.responses := rfl

@[simp] theorem State.withRf_input (s : State) (m : Memory 8) :
    (s.withRf m).input = s.input := rfl

@[simp] theorem State.withDw_profile (s : State) (m : Memory 32) :
    (s.withDw m).profile = s.profile := rfl

@[simp] theorem State.withDw_rf (s : State) (m : Memory 32) :
    (s.withDw m).rf = s.rf := rfl

@[simp] theorem State.withDw_freqHz (s : State) (m : Memory 32) :
    (s.withDw m).freqHz = s.freqHz := rfl

@[simp] theorem State.withDw_refCyc (s : State) (m : Memory 32) :
    (s.withDw m).refCyc = s.refCyc := rfl

@[simp] theorem State.withDw_dw (s : State) (m : Memory 32) :
    (s.withDw m).dw = m := rfl

@[simp] theorem State.withDw_events (s : State) (m : Memory 32) :
    (s.withDw m).events = s.events := rfl

@[simp] theorem State.withDw_responses (s : State) (m : Memory 32) :
    (s.withDw m).responses = s.responses := rfl

@[simp] theorem State.withDw_input (s : State) (m : Memory 32) :
    (s.withDw m).input = s.input := rfl

@[simp] theorem State.withClock_profile (s : State) (f r : Nat) :
    (s.withClock f r).profile = s.profile := rfl

@[simp] theorem State.withClock_rf (s : State) (f r : Nat) :
    (s.withClock f r).rf = s.rf := rfl

@[simp] theorem State.withClock_freqHz (s : State) (f r : Nat) :
    (s.withClock f r).freqHz = f := rfl

@[simp] theorem State.withClock_refCyc (s : State) (f r : Nat) :
    (s.withClock f r).refCyc = r := rfl

@[simp] theorem State.withClock_dw (s : State) (f r : Nat) :
    (s.withClock f r).dw = s.dw := rfl

@[simp] theorem State.withClock_events (s : State) (f r : Nat) :
    (s.withClock f r).events = s.events := rfl

@[simp] theorem State.withClock_responses (s : State) (f r : Nat) :
    (s.withClock f r).responses = s.responses := rfl

@[simp] theorem State.withClock_input (s : State) (f r : Nat) :
    (s.withClock f r).input = s.input := rfl

@[simp] theorem State.withInput_profile (s : State) (l : List Transaction) :
    (s.withInput l).profile = s.profile := rfl

@[simp] theorem State.withInput_rf (s : State) (l : List Transaction) :
    (s.withInput l).rf = s.rf := rfl

@[simp] theorem State.withInput_freqHz (s : State) (l : List Transaction) :
    (s.withInput l).freqHz = s.freqHz := rfl

@[simp] theorem State.withInput_refCyc (s : State) (l : List Transaction) :
    (s.withInput l).refCyc = s.refCyc := rfl

@[simp] theorem State.withInput_dw (s : State) (l : List Transaction) :
    (s.withInput l).dw = s.dw := rfl

@[simp] theorem State.withInput_events (s : State) (l : List Transaction) :
    (s.withInput l).events = s.events := rfl

@[simp] theorem State.withInput_responses (s : State) (l : List Transaction) :
    (s.withInput l).responses = s.responses := rfl

@[simp] theorem State.withInput_input (s : State) (l : List Transaction) :
    (s.withInput l).input = l := rfl

@[simp] theorem State.emit_profile (s : State) (e : Event) :
    (s.emit e).profile = s.profile := rfl

@[simp] theorem State.emit_rf (s : State) (e : Event) :
    (s.emit e).rf = s.rf := rfl

@[simp] theorem State.emit_freqHz (s : State) (e : Event) :
    (s.emit e).freqHz = s.freqHz := rfl

@[simp] theorem State.emit_refCyc (s : State) (e : Event) :
    (s.emit e).refCyc = s.refCyc := rfl

@[simp] theorem State.emit_dw (s : State) (e : Event) :
    (s.emit e).dw = s.dw := rfl

@[simp] theorem State.emit_events (s : State) (e : Event) :
    (s.emit e).events = s.events ++ [e] := rfl

@[simp] theorem State.emit_responses (s : State) (e : Event) :
    (s.emit e).responses = s.responses := rfl

@[simp] theorem State.emit_input (s : State) (e : Event) :
    (s.emit e).input = s.input := rfl

@[simp] theorem State.respond_profile (s : State) (r : Response) :
    (s.respond r).profile = s.profile := rfl

@[simp] theorem State.respond_rf (s : State) (r : Response) :
    (s.respond r).rf = s.rf := rfl

@[simp] theorem State.respond_freqHz (s : State) (r : Response) :
    (s.respond r).freqHz = s.freqHz := rfl

@[simp] theorem State.respond_refCyc (s : State) (r : Response) :
    (s.respond r).refCyc = s.refCyc := rfl

@[simp] theorem State.respond_dw (s : State) (r : Response) :
    (s.respond r).dw = s.dw := rfl

@[simp] theorem State.respond_events (s : State) (r : Response) :
    (s.respond r).events = s.events := rfl

@[simp] theorem State.respond_responses (s : State) (r : Response) :
    (s.respond r).responses = s.responses ++ [r] := rfl

@[simp] theorem State.respond_input (s : State) (r : Response) :
    (s.respond r).input = s.input := rfl

@[simp] theorem State.store_profile (s : State) (off : Nat) (w : Width) (v : Word) :
    (s.store off w v).profile = s.profile := rfl

@[simp] theorem State.store_rf (s : State) (off : Nat) (w : Width) (v : Word) :
    (s.store off w v).rf = memWrite s.rf off w v := rfl

@[simp] theorem State.store_freqHz (s : State) (off : Nat) (w : Width) (v : Word) :
    (s.store off w v).freqHz = s.freqHz := rfl

@[simp] theorem State.store_refCyc (s : State) (off : Nat) (w : Width) (v : Word) :
    (s.store off w v).refCyc = s.refCyc := rfl

@[simp] theorem State.store_dw (s : State) (off : Nat) (w : Width) (v : Word) :
    (s.store off w v).dw = s.dw := rfl

@[simp] theorem State.store_events (s : State) (off : Nat) (w : Width) (v : Word) :
    (s.store off w v).events = s.events := rfl

@[simp] theorem State.store_responses (s : State) (off : Nat) (w : Width) (v : Word) :
    (s.store off w v).responses = s.responses := rfl

@[simp] theorem State.store_input (s : State) (off : Nat) (w : Width) (v : Word) :
    (s.store off w v).input = s.input := rfl

@[simp] theorem State.maskedStore_profile (s : State) (off : Nat) (w : Width) (v : Word) (e : Descriptor) :
    (s.maskedStore off w v e).profile = s.profile := rfl

@[simp] theorem State.maskedStore_rf (s : State) (off : Nat) (w : Width) (v : Word) (e : Descriptor) :
    (s.maskedStore off w v e).rf = memWrite s.rf off w (ms (memRead s.rf off w) v e.W e.K) := rfl

@[simp] theorem State.maskedStore_freqHz (s : State) (off : Nat) (w : Width) (v : Word) (e : Descriptor) :
    (s.maskedStore off w v e).freqHz = s.freqHz := rfl

@[simp] theorem State.maskedStore_refCyc (s : State) (off : Nat) (w : Width) (v : Word) (e : Descriptor) :
    (s.maskedStore off w v e).refCyc = s.refCyc := rfl

@[simp] theorem State.maskedStore_dw (s : State) (off : Nat) (w : Width) (v : Word) (e : Descriptor) :
    (s.maskedStore off w v e).dw = s.dw := rfl

@[simp] theorem State.maskedStore_events (s : State) (off : Nat) (w : Width) (v : Word) (e : Descriptor) :
    (s.maskedStore off w v e).events = s.events := rfl

@[simp] theorem State.maskedStore_responses (s : State) (off : Nat) (w : Width) (v : Word) (e : Descriptor) :
    (s.maskedStore off w v e).responses = s.responses := rfl

@[simp] theorem State.maskedStore_input (s : State) (off : Nat) (w : Width) (v : Word) (e : Descriptor) :
    (s.maskedStore off w v e).input = s.input := rfl

@[simp] theorem State.pack_profile (s : State) (c : Calendar) :
    (s.pack c).profile = s.profile := rfl

@[simp] theorem State.pack_rf (s : State) (c : Calendar) :
    (s.pack c).rf = memWrite (memWrite s.rf s.profile.offRtctime .w32 (packTime s.profile c)) s.profile.offDayr .w16
        (BitVec.ofNat 32 c.day) := rfl

@[simp] theorem State.pack_freqHz (s : State) (c : Calendar) :
    (s.pack c).freqHz = s.freqHz := rfl

@[simp] theorem State.pack_refCyc (s : State) (c : Calendar) :
    (s.pack c).refCyc = s.refCyc := rfl

@[simp] theorem State.pack_dw (s : State) (c : Calendar) :
    (s.pack c).dw = s.dw := rfl

@[simp] theorem State.pack_events (s : State) (c : Calendar) :
    (s.pack c).events = s.events := rfl

@[simp] theorem State.pack_responses (s : State) (c : Calendar) :
    (s.pack c).responses = s.responses := rfl

@[simp] theorem State.pack_input (s : State) (c : Calendar) :
    (s.pack c).input = s.input := rfl

@[simp] theorem recompute_profile (s : State) : (recompute s).profile = s.profile := rfl

@[simp] theorem recompute_rf (s : State) : (recompute s).rf = s.rf := rfl

@[simp] theorem recompute_freqHz (s : State) : (recompute s).freqHz = s.derivedClock.1 := rfl

@[simp] theorem recompute_refCyc (s : State) : (recompute s).refCyc = s.derivedClock.2 := rfl

@[simp] theorem recompute_dw (s : State) : (recompute s).dw = s.dw := rfl

@[simp] theorem recompute_events (s : State) : (recompute s).events = s.events := rfl

@[simp] theorem recompute_responses (s : State) : (recompute s).responses = s.responses := rfl

@[simp] theorem recompute_input (s : State) : (recompute s).input = s.input := rfl

@[simp] theorem resetAll_profile (s : State) :
    (resetAll s).profile = s.profile := rfl

@[simp] theorem resetAll_rf (s : State) :
    (resetAll s).rf = resetRf s.profile s.rf := rfl

@[simp] theorem resetAll_freqHz (s : State) :
    (resetAll s).freqHz = ((s.withRf (resetRf s.profile s.rf)).withDw (resetDw s.profile s.dw)).derivedClock.1 := rfl

@[simp] theorem resetAll_refCyc (s : State) :
    (resetAll s).refCyc = ((s.withRf (resetRf s.profile s.rf)).withDw (resetDw s.profile s.dw)).derivedClock.2 := rfl

@[simp] theorem resetAll_dw (s : State) :
    (resetAll s).dw = resetDw s.profile s.dw := rfl

@[simp] theorem resetAll_events (s : State) :
    (resetAll s).events = s.events := rfl

@[simp] theorem resetAll_responses (s : State) :
    (resetAll s).responses = s.responses := rfl

@[simp] theorem resetAll_input (s : State) :
    (resetAll s).input = s.input := rfl

end Sys2Proof.Machine
end

