-- ==== Sys2Proof/Laws/Exec.lean ====
section
/-! SUPPORT. Sys2Proof/Laws/Exec.lean: what a transaction can do, said once: `Does s i t` lists every way in which `exec i
s` can answer `t`, and `does_of_exec` is the inversion that every later proof starts from. -/

namespace Sys2Proof.Machine

/-! ### Checks -/

theorem contractFault_none_iff {cmd : Byte} {a : Word} {n size : Nat} :
    contractFault cmd a n size = none ↔ a.toNat % n = 0 ∧ a.toNat + n ≤ size := by
  unfold contractFault
  split <;> rename_i h1
  · simp [h1]
  · split <;> rename_i h2 <;> simp <;> omega

theorem periphFault_none_iff {p : Profile} {cmd : Byte} {a : Word} {w : Width} :
    periphFault p cmd a w = none ↔ inContract p w a := contractFault_none_iff

theorem dmaFault_none_iff {p : Profile} {cmd : Byte} {a : Word} : dmaFault p cmd a = none ↔ dmaInContract p a := by
  unfold dmaFault dmaInContract
  by_cases h : p.hasDma = true
  · rw [if_pos h, contractFault_none_iff]; simp [h]
  · rw [if_neg h]; simp [h]

/-! ### The meanings by width -/

theorem exec_read (w : Width) (a : Word) (s : State) :
    exec (Instr.read w a) s = periphRead (Instr.read w a).cmd w a s := by cases w <;> rfl

theorem exec_write (w : Width) (a d : Word) (s : State) :
    exec (Instr.write w a d) s = periphWrite (Instr.write w a d).cmd w a d s := by cases w <;> rfl

theorem exec_read_next {s : State} {w : Width} {a : Word} (h : inContract s.profile w a) :
    exec (Instr.read w a) s = .next (readAt a.toNat w s) := by
  rw [exec_read, periphRead, periphFault_none_iff.2 h]

theorem exec_write_next {s : State} {w : Width} {a : Word} (h : inContract s.profile w a) (d : Word) :
    exec (Instr.write w a d) s = writeAt a.toNat w (truncTo w d) s := by
  rw [exec_write, periphWrite, periphFault_none_iff.2 h]

theorem read_inj {w w' : Width} {a a' : Word} (h : Instr.read w a = Instr.read w' a') : w = w' ∧ a = a' := by
  cases w <;> cases w' <;> simp_all [Instr.read]

theorem write_inj {w w' : Width} {a a' d d' : Word} (h : Instr.write w a d = Instr.write w' a' d') :
    w = w' ∧ a = a' ∧ d = d' := by
  cases w <;> cases w' <;> simp_all [Instr.write]

theorem read_ne_write (w w' : Width) (a a' d' : Word) : Instr.read w a ≠ Instr.write w' a' d' := by
  cases w <;> cases w' <;> simp [Instr.read, Instr.write]

/-! ### What a transaction can do -/

/-- `Does s i t`: transaction `i` at `s` completes in `t`, and how. -/
inductive Does (s : State) (i : Instr) (t : State) : Prop
  | read (w : Width) (a : Word) (hi : i = Instr.read w a) (hc : inContract s.profile w a)
      (ht : t = readAt a.toNat w s)
  | rawWrite (w : Width) (a d : Word) (hi : i = Instr.write w a d) (hc : inContract s.profile w a)
      (hl : s.profile.lookup a.toNat w = none)
      (ht : t = ((s.store a.toNat w (truncTo w d)).emit (.diag .periph a.toNat (truncTo w d) w .write)).respond
        (Response.word 0))
  | docWrite (w : Width) (a d : Word) (e : Descriptor) (c : SideEffect) (hi : i = Instr.write w a d)
      (hc : inContract s.profile w a) (hl : s.profile.lookup a.toNat w = some e)
      (hcls : SideEffect.ofCode e.cls = some c)
      (ht : t = (sideEffect c e a.toNat w (truncTo w d) s).respond (Response.word 0))
  | dmaRead (a : Word) (hi : i = .drd32 a) (hc : dmaInContract s.profile a) (ht : t = dmaReadAt a.toNat s)
  | dmaWrite (a d : Word) (hi : i = .dwr32 a d) (hc : dmaInContract s.profile a) (ht : t = dmaWriteAt a.toNat d s)
  | tickOff (hi : i = .tick) (h : s.rtcEnabled = false) (ht : t = s.respond (Response.word 0))
  | tickOn (hi : i = .tick) (h : s.rtcEnabled = true)
      (ht : t = (s.pack s.calendar.advance).respond (Response.word 0))
  | clk32 (hi : i = .clk32)
      (ht : t = (s.store s.profile.clk32Off .w16
        (s.load s.profile.clk32Off .w16 ^^^ ((1 : Word) <<< s.profile.bitClk32))).respond (Response.word 0))
  | setrtc (days : Word) (hours minutes seconds : Byte) (hi : i = .setrtc days hours minutes seconds)
      (ht : t = (s.pack (Calendar.ofOperands days hours minutes seconds)).respond (Response.word 0))
  | reset (hi : i = .reset) (ht : t = (resetAll s).respond (Response.word 0))
  | qpwr (hi : i = .qpwr) (ht : t = s.respond (Response.word (if s.isPowered then 1 else 0)))
  | qfreq (hi : i = .qfreq) (ht : t = s.respond { q0 := clockWord s.freqHz, q1 := some (clockWord s.refCyc) })
  | restore (img : Image) (hi : i = .restore img) (h : img.size = s.profile.periphSize)
      (ht : t = (recompute (s.withRf (imageMemory img))).respond (Response.word 0))

/-- How a read completes. -/
theorem exec_read_inv {s t : State} {w : Width} {a : Word} (h : exec (Instr.read w a) s = .next t) :
    inContract s.profile w a ∧ t = readAt a.toNat w s := by
  rw [exec_read, periphRead] at h
  split at h
  · cases h
  · rename_i hf
    cases h
    exact ⟨periphFault_none_iff.1 hf, rfl⟩

/-- How a write completes. -/
theorem exec_write_inv {s t : State} {w : Width} {a d : Word} (h : exec (Instr.write w a d) s = .next t) :
    inContract s.profile w a ∧
      ((s.profile.lookup a.toNat w = none ∧
          t = ((s.store a.toNat w (truncTo w d)).emit (.diag .periph a.toNat (truncTo w d) w .write)).respond
            (Response.word 0)) ∨
        ∃ e c, s.profile.lookup a.toNat w = some e ∧ SideEffect.ofCode e.cls = some c ∧
          t = (sideEffect c e a.toNat w (truncTo w d) s).respond (Response.word 0)) := by
  rw [exec_write, periphWrite] at h
  split at h
  · cases h
  · rename_i hf
    refine ⟨periphFault_none_iff.1 hf, ?_⟩
    unfold writeAt at h
    split at h
    · rename_i hl
      cases h
      exact .inl ⟨hl, rfl⟩
    · rename_i e hl
      split at h
      · rename_i c hcls
        cases h
        exact .inr ⟨e, c, hl, hcls, rfl⟩
      · cases h

/-- A write in the contract completes, at a well-formed profile. -/
theorem exec_write_doc {s : State} {w : Width} {a : Word} {e : Descriptor} {c : SideEffect}
    (h : inContract s.profile w a) (hl : s.profile.lookup a.toNat w = some e) (hc : SideEffect.ofCode e.cls = some c)
    (d : Word) :
    exec (Instr.write w a d) s = .next ((sideEffect c e a.toNat w (truncTo w d) s).respond (Response.word 0)) := by
  rw [exec_write_next h, writeAt, hl]; dsimp only; rw [hc]

theorem exec_write_raw {s : State} {w : Width} {a : Word} (h : inContract s.profile w a)
    (hl : s.profile.lookup a.toNat w = none) (d : Word) :
    exec (Instr.write w a d) s =
      .next (((s.store a.toNat w (truncTo w d)).emit (.diag .periph a.toNat (truncTo w d) w .write)).respond
        (Response.word 0)) := by
  rw [exec_write_next h, writeAt, hl]

theorem exec_drd32_inv {s t : State} {a : Word} (h : exec (.drd32 a) s = .next t) :
    dmaInContract s.profile a ∧ t = dmaReadAt a.toNat s := by
  simp only [exec, execDrd32] at h
  split at h
  · cases h
  · rename_i hf; cases h; exact ⟨dmaFault_none_iff.1 hf, rfl⟩

theorem exec_drd32_next {s : State} {a : Word} (h : dmaInContract s.profile a) :
    exec (.drd32 a) s = .next (dmaReadAt a.toNat s) := by
  simp only [exec, execDrd32, dmaFault_none_iff.2 h]

theorem exec_dwr32_inv {s t : State} {a d : Word} (h : exec (.dwr32 a d) s = .next t) :
    dmaInContract s.profile a ∧ t = dmaWriteAt a.toNat d s := by
  simp only [exec, execDwr32] at h
  split at h
  · cases h
  · rename_i hf; cases h; exact ⟨dmaFault_none_iff.1 hf, rfl⟩

theorem exec_dwr32_next {s : State} {a : Word} (h : dmaInContract s.profile a) (d : Word) :
    exec (.dwr32 a d) s = .next (dmaWriteAt a.toNat d s) := by
  simp only [exec, execDwr32, dmaFault_none_iff.2 h]

theorem does_of_read {s t : State} {w : Width} {a : Word} (h : exec (Instr.read w a) s = .next t) :
    Does s (Instr.read w a) t :=
  .read w a rfl (exec_read_inv h).1 (exec_read_inv h).2

theorem does_of_write {s t : State} {w : Width} {a d : Word} (h : exec (Instr.write w a d) s = .next t) :
    Does s (Instr.write w a d) t := by
  obtain ⟨hc, ⟨hl, rfl⟩ | ⟨e, c, hl, hcls, rfl⟩⟩ := exec_write_inv h
  · exact .rawWrite w a d rfl hc hl rfl
  · exact .docWrite w a d e c rfl hc hl hcls rfl

/-- Every way in which a transaction can complete. -/
theorem does_of_exec {s t : State} {i : Instr} (h : exec i s = .next t) : Does s i t := by
  cases i with
  | rd8 a => exact does_of_read (w := .w8) h
  | rd16 a => exact does_of_read (w := .w16) h
  | rd32 a => exact does_of_read (w := .w32) h
  | wr8 a d => exact does_of_write (w := .w8) h
  | wr16 a d => exact does_of_write (w := .w16) h
  | wr32 a d => exact does_of_write (w := .w32) h
  | drd32 a => exact .dmaRead a rfl (exec_drd32_inv h).1 (exec_drd32_inv h).2
  | dwr32 a d => exact .dmaWrite a d rfl (exec_dwr32_inv h).1 (exec_dwr32_inv h).2
  | tick =>
    simp only [exec, execTick] at h
    split at h <;> rename_i hr <;> cases h
    · exact .tickOn rfl hr rfl
    · exact .tickOff rfl (by simpa using hr) rfl
  | clk32 => cases h; exact .clk32 rfl rfl
  | setrtc days hours minutes seconds => cases h; exact .setrtc days hours minutes seconds rfl rfl
  | reset => cases h; exact .reset rfl rfl
  | qpwr => cases h; exact .qpwr rfl rfl
  | qfreq => cases h; exact .qfreq rfl rfl
  | restore img =>
    simp only [exec, execRestore] at h
    split at h
    · rename_i hs; cases h; exact .restore img rfl hs rfl
    · cases h

@[simp] theorem isDiag_diag (win : Win) (off : Nat) (v : Word) (w : Width) (dir : Dir) :
    isDiag (.diag win off v w dir) = true := rfl

@[simp] theorem isDiag_endTimeslice : isDiag .endTimeslice = false := rfl

@[simp] theorem isDiag_dmaCmd (ch : Nat) (v : Word) : isDiag (.dmaCmd ch v) = false := rfl

/-! ### Fields that the shared operations leave -/

@[simp] theorem readAt_rf (off : Nat) (w : Width) (s : State) : (readAt off w s).rf = s.rf := by
  unfold readAt; split <;> rfl

@[simp] theorem readAt_dw (off : Nat) (w : Width) (s : State) : (readAt off w s).dw = s.dw := by
  unfold readAt; split <;> rfl

@[simp] theorem readAt_profile (off : Nat) (w : Width) (s : State) : (readAt off w s).profile = s.profile := by
  unfold readAt; split <;> rfl

@[simp] theorem readAt_input (off : Nat) (w : Width) (s : State) : (readAt off w s).input = s.input := by
  unfold readAt; split <;> rfl

@[simp] theorem readAt_freqHz (off : Nat) (w : Width) (s : State) : (readAt off w s).freqHz = s.freqHz := by
  unfold readAt; split <;> rfl

@[simp] theorem readAt_refCyc (off : Nat) (w : Width) (s : State) : (readAt off w s).refCyc = s.refCyc := by
  unfold readAt; split <;> rfl

@[simp] theorem readAt_responses (off : Nat) (w : Width) (s : State) :
    (readAt off w s).responses = s.responses ++ [Response.word (memRead s.rf off w)] := by
  unfold readAt; split <;> rfl

theorem readAt_events (off : Nat) (w : Width) (s : State) :
    (readAt off w s).events =
      if (s.profile.lookup off w).isSome then s.events
      else s.events ++ [.diag .periph off (memRead s.rf off w) w .read] := by
  unfold readAt; split <;> rename_i h <;> simp [h, State.load]

@[simp] theorem dmaReadAt_rf (off : Nat) (s : State) : (dmaReadAt off s).rf = s.rf := by
  unfold dmaReadAt; split <;> rfl

@[simp] theorem dmaReadAt_dw (off : Nat) (s : State) : (dmaReadAt off s).dw = s.dw := by
  unfold dmaReadAt; split <;> rfl

@[simp] theorem dmaReadAt_profile (off : Nat) (s : State) : (dmaReadAt off s).profile = s.profile := by
  unfold dmaReadAt; split <;> rfl

@[simp] theorem dmaReadAt_input (off : Nat) (s : State) : (dmaReadAt off s).input = s.input := by
  unfold dmaReadAt; split <;> rfl

@[simp] theorem dmaReadAt_freqHz (off : Nat) (s : State) : (dmaReadAt off s).freqHz = s.freqHz := by
  unfold dmaReadAt; split <;> rfl

@[simp] theorem dmaReadAt_refCyc (off : Nat) (s : State) : (dmaReadAt off s).refCyc = s.refCyc := by
  unfold dmaReadAt; split <;> rfl

@[simp] theorem dmaReadAt_responses (off : Nat) (s : State) :
    (dmaReadAt off s).responses = s.responses ++ [Response.word (s.dmaWord off)] := by
  unfold dmaReadAt; split <;> rfl

theorem dmaReadAt_events (off : Nat) (s : State) :
    (dmaReadAt off s).events =
      if (ddesc s.profile off).isSome then s.events
      else s.events ++ [.diag .dma off (s.dmaWord off) .w32 .read] := by
  unfold dmaReadAt; split <;> rename_i h <;> simp [h]

/-- The word a DMA-window write stores. -/
def dmaStored (p : Profile) (off : Nat) (d : Word) : Word :=
  match ddesc p off with
  | none => d
  | some r => d &&& dmaMaskOf p r.kind

@[simp] theorem dmaWriteAt_dw (off : Nat) (d : Word) (s : State) :
    (dmaWriteAt off d s).dw = Memory.write s.dw (off / 4) (dmaStored s.profile off d) := by
  unfold dmaWriteAt dmaStored
  cases ddesc s.profile off with
  | none => rfl
  | some r => dsimp only; split <;> rfl

@[simp] theorem dmaWriteAt_rf (off : Nat) (d : Word) (s : State) : (dmaWriteAt off d s).rf = s.rf := by
  unfold dmaWriteAt
  split
  · rfl
  · dsimp only; split <;> rfl

@[simp] theorem dmaWriteAt_profile (off : Nat) (d : Word) (s : State) : (dmaWriteAt off d s).profile = s.profile := by
  unfold dmaWriteAt
  split
  · rfl
  · dsimp only; split <;> rfl

@[simp] theorem dmaWriteAt_input (off : Nat) (d : Word) (s : State) : (dmaWriteAt off d s).input = s.input := by
  unfold dmaWriteAt
  split
  · rfl
  · dsimp only; split <;> rfl

@[simp] theorem dmaWriteAt_freqHz (off : Nat) (d : Word) (s : State) : (dmaWriteAt off d s).freqHz = s.freqHz := by
  unfold dmaWriteAt
  split
  · rfl
  · dsimp only; split <;> rfl

@[simp] theorem dmaWriteAt_refCyc (off : Nat) (d : Word) (s : State) : (dmaWriteAt off d s).refCyc = s.refCyc := by
  unfold dmaWriteAt
  split
  · rfl
  · dsimp only; split <;> rfl

@[simp] theorem dmaWriteAt_responses (off : Nat) (d : Word) (s : State) :
    (dmaWriteAt off d s).responses = s.responses ++ [Response.word 0] := by
  unfold dmaWriteAt
  split
  · rfl
  · dsimp only; split <;> rfl

theorem dmaWriteAt_events_none {off : Nat} {s : State} (h : ddesc s.profile off = none) (d : Word) :
    (dmaWriteAt off d s).events = s.events ++ [.diag .dma off d .w32 .write] := by
  unfold dmaWriteAt; rw [h]; rfl

theorem dmaWriteAt_events_some {off : Nat} {s : State} {r : DmaReg} (h : ddesc s.profile off = some r) (d : Word) :
    (dmaWriteAt off d s).events =
      if r.kind = .dcmd then s.events ++ [.dmaCmd r.index (d &&& dmaMaskOf s.profile r.kind)] else s.events := by
  unfold dmaWriteAt; rw [h]; dsimp only; split <;> rfl

/-! ### The side-effect mux -/

variable (c : SideEffect) (e : Descriptor) (off : Nat) (w : Width) (v : Word) (s : State)

@[simp] theorem sideEffect_profile : (sideEffect c e off w v s).profile = s.profile := by
  cases c <;> simp only [sideEffect, clockHandler, powerHandler] <;> first | rfl | (split <;> rfl)

@[simp] theorem sideEffect_dw : (sideEffect c e off w v s).dw = s.dw := by
  cases c <;> simp only [sideEffect, clockHandler, powerHandler] <;> first | rfl | (split <;> rfl)

@[simp] theorem sideEffect_input : (sideEffect c e off w v s).input = s.input := by
  cases c <;> simp only [sideEffect, clockHandler, powerHandler] <;> first | rfl | (split <;> rfl)

@[simp] theorem sideEffect_responses : (sideEffect c e off w v s).responses = s.responses := by
  cases c <;> simp only [sideEffect, clockHandler, powerHandler] <;> first | rfl | (split <;> rfl)

theorem powerHandler_rf : (powerHandler e v s).rf = (s.maskedStore s.profile.offPllcr .w16 v e).rf := by
  unfold powerHandler; dsimp only; split <;> rfl

theorem clockHandler_rf :
    (clockHandler e v s).rf = if s.prot then s.rf else (s.maskedStore s.profile.offPllfsr .w16 v e).rf := by
  unfold clockHandler; split <;> rfl

/-- What a documented write does to RF: nothing, or the masked store at the access itself. -/
theorem sideEffect_rf (hwf : s.profile.wf = true) (hl : s.profile.lookup off w = some e)
    (hcls : SideEffect.ofCode e.cls = some c) :
    (sideEffect c e off w v s).rf = s.rf ∨
      (sideEffect c e off w v s).rf = memWrite s.rf off w (ms (memRead s.rf off w) v e.W e.K) := by
  have hcode := SideEffect.code_of_ofCode hcls
  cases c with
  | none => exact .inr rfl
  | rtc => exact .inr rfl
  | fixed => exact .inl rfl
  | clock =>
    obtain ⟨rfl, rfl⟩ := (Profile.clock_iff hwf hl).1 hcode
    rw [sideEffect, clockHandler_rf]
    split
    · exact .inl rfl
    · exact .inr rfl
  | power =>
    obtain ⟨rfl, rfl⟩ := (Profile.power_iff hwf hl).1 hcode
    rw [sideEffect, powerHandler_rf]
    exact .inr rfl

/-- The events of a documented write: none, or the EndTimeslice of a POWER write whose stored DISPLL is set. -/
theorem sideEffect_events :
    (sideEffect c e off w v s).events = s.events ∨
      (c = .power ∧ (s.maskedStore s.profile.offPllcr .w16 v e).dispLl = true ∧
        (sideEffect c e off w v s).events = s.events ++ [.endTimeslice]) := by
  cases c with
  | none => exact .inl rfl
  | rtc => exact .inl rfl
  | fixed => exact .inl rfl
  | clock => left; simp only [sideEffect, clockHandler]; split <;> rfl
  | power =>
    simp only [sideEffect, powerHandler]
    split <;> rename_i h
    · exact .inr ⟨trivial, h, rfl⟩
    · exact .inl rfl

/-- The derived clock state is a function of the register file and the profile. -/
theorem derivedClock_congr {s t : State} (hp : t.profile = s.profile) (hrf : t.rf = s.rf) :
    t.derivedClock = s.derivedClock := by
  simp only [State.derivedClock, State.pllcr, State.pllfsr, State.load, hp, hrf]

/-- The clock state of a documented write: as before, or that of the registers it leaves. -/
theorem sideEffect_clock :
    (c ≠ .power → (c = .clock → s.prot = true) →
      (sideEffect c e off w v s).freqHz = s.freqHz ∧ (sideEffect c e off w v s).refCyc = s.refCyc) ∧
    (c = .power ∨ (c = .clock ∧ s.prot = false) →
      ((sideEffect c e off w v s).freqHz, (sideEffect c e off w v s).refCyc) =
        (sideEffect c e off w v s).derivedClock) := by
  constructor
  · intro h1 h2
    cases c with
    | none => exact ⟨rfl, rfl⟩
    | rtc => exact ⟨rfl, rfl⟩
    | fixed => exact ⟨rfl, rfl⟩
    | clock => simp [sideEffect, clockHandler, h2 rfl]
    | power => exact absurd rfl h1
  · rintro (rfl | ⟨rfl, h⟩)
    · simp only [sideEffect, powerHandler]
      split <;> rfl
    · simp only [sideEffect, clockHandler, h]
      rfl

end Sys2Proof.Machine
end

