-- ==== Sys2Proof/Laws/PerInstr.lean ====
section
/-! SUPPORT. Sys2Proof/Laws/PerInstr.lean: statements made per instruction. The family CommandByte: the encoder writes the
command byte of 30_encoding.md R93, and zeros where R93 calls an operand ignored. -/

namespace Sys2Proof.Laws.CommandByte

/-- The operand A of the encoding, 0 where A is ignored. -/
def operandA : Instr → Word
  | .rd8 a => a
  | .rd16 a => a
  | .rd32 a => a
  | .wr8 a _ => a
  | .wr16 a _ => a
  | .wr32 a _ => a
  | .drd32 a => a
  | .dwr32 a _ => a
  | .tick => 0
  | .clk32 => 0
  | .setrtc days _ _ _ => days
  | .reset => 0
  | .qpwr => 0
  | .qfreq => 0
  | .restore _ => 0

/-- The encoding of an instruction carries its command byte and its operand A. -/
def Statement (i : Instr) : Prop := (encode i).cmd = i.cmd ∧ (encode i).a = operandA i

theorem fields (c : Byte) (a d : Word) (img : Image) :
    Transaction.cmd { word := transactionWord c a d, image := img } = c ∧
      Transaction.a { word := transactionWord c a d, image := img } = a :=
  ⟨cmd_transactionWord c a d img, a_transactionWord c a d img⟩

theorem rd8 (a : Word) : Statement (.rd8 a) := fields _ _ _ _
theorem rd16 (a : Word) : Statement (.rd16 a) := fields _ _ _ _
theorem rd32 (a : Word) : Statement (.rd32 a) := fields _ _ _ _
theorem wr8 (a d : Word) : Statement (.wr8 a d) := fields _ _ _ _
theorem wr16 (a d : Word) : Statement (.wr16 a d) := fields _ _ _ _
theorem wr32 (a d : Word) : Statement (.wr32 a d) := fields _ _ _ _
theorem drd32 (a : Word) : Statement (.drd32 a) := fields _ _ _ _
theorem dwr32 (a d : Word) : Statement (.dwr32 a d) := fields _ _ _ _
theorem tick : Statement .tick := fields _ _ _ _
theorem clk32 : Statement .clk32 := fields _ _ _ _
theorem setrtc (days : Word) (hours minutes seconds : Byte) : Statement (.setrtc days hours minutes seconds) :=
  fields _ _ _ _
theorem reset : Statement .reset := fields _ _ _ _
theorem qpwr : Statement .qpwr := fields _ _ _ _
theorem qfreq : Statement .qfreq := fields _ _ _ _
theorem restore (image : Image) : Statement (.restore image) := fields _ _ _ _

end Sys2Proof.Laws.CommandByte
end

