-- ==== Sys2Proof/Laws/Registers.lean ====
section
/-! SUPPORT. Sys2Proof/Laws/Registers.lean: what the named registers read after the operations on the register file: the
masked store, disjoint stores, the packed calendar, the clock state. -/

namespace Sys2Proof.Machine

/-! ### Widths and masks -/

theorem toNat_memRead_lt (rf : Memory 8) (off : Nat) (w : Width) : (memRead rf off w).toNat < 2 ^ w.bits := by
  rw [← truncTo_memRead, truncTo_toNat]
  exact Nat.mod_lt _ (Nat.two_pow_pos _)

/-- A bit of a halfword read as a 16-bit register is the bit of the zero-extended read. -/
theorem getLsbD_half (rf : Memory 8) (off i : Nat) :
    ((memRead rf off .w16).setWidth 16).getLsbD i = (memRead rf off .w16).getLsbD i := by
  rw [BitVec.getLsbD_setWidth]
  conv_rhs => rw [← truncTo_memRead, getLsbD_truncTo]
  rfl

/-- The masked store value fits the width when its masks do. -/
theorem truncTo_ms {w : Width} {old v W K : Word} (hW : W.toNat < 2 ^ w.bits) (hK : K.toNat < 2 ^ w.bits) :
    truncTo w (ms old v W K) = ms old v W K := by
  apply truncTo_of_lt
  rw [ms, BitVec.toNat_or]
  apply Nat.or_lt_two_pow
  · rw [BitVec.toNat_and]; exact lt_of_le_of_lt Nat.and_le_right hW
  · rw [BitVec.toNat_and]; exact lt_of_le_of_lt Nat.and_le_right hK

theorem getLsbD_ms (old v W K : Word) (i : Nat) :
    (ms old v W K).getLsbD i = ((v.getLsbD i && W.getLsbD i) || (old.getLsbD i && K.getLsbD i)) := by
  rw [ms, BitVec.getLsbD_or, BitVec.getLsbD_and, BitVec.getLsbD_and]

/-- Register files that agree outside an access read the same at an access that shares no byte with it. -/
theorem memRead_of_apart {m m' : Memory 8} {off off' : Nat} {w w' : Width}
    (h : ∀ i, ¬(off ≤ i ∧ i < off + w.bytes) → Memory.read m' i = Memory.read m i)
    (hd : off' + w'.bytes ≤ off ∨ off + w.bytes ≤ off') : memRead m' off' w' = memRead m off' w' :=
  memRead_congr (fun a h1 h2 => h a (by omega))

/-! ### The bytes a write leaves -/

/-- A documented write changes only the bytes of its own access. -/
theorem read_sideEffect {s : State} {c : SideEffect} {e : Descriptor} {off : Nat} {w : Width} (v : Word)
    (hwf : s.profile.wf = true) (hm : Memory.wf s.rf = true) (hl : s.profile.lookup off w = some e)
    (hcls : SideEffect.ofCode e.cls = some c) (i : Nat) (hi : ¬(off ≤ i ∧ i < off + w.bytes)) :
    Memory.read (sideEffect c e off w v s).rf i = Memory.read s.rf i := by
  rcases sideEffect_rf c e off w v s hwf hl hcls with h | h <;> rw [h]
  rw [read_memWrite hm, if_neg hi]

/-- Every write that completes keeps the canonical form, the bound, and every byte outside its access. -/
theorem write_rf {s t : State} {w : Width} {a d : Word} (hi : s.Inv) (h : exec (Instr.write w a d) s = .next t) :
    Memory.wf t.rf = true ∧ Memory.below t.rf s.profile.periphSize = true ∧
      ∀ i, ¬(a.toNat ≤ i ∧ i < a.toNat + w.bytes) → Memory.read t.rf i = Memory.read s.rf i := by
  have hf : ∀ v, Memory.wf (memWrite s.rf a.toNat w v) = true ∧
      ∀ i, ¬(a.toNat ≤ i ∧ i < a.toNat + w.bytes) →
        Memory.read (memWrite s.rf a.toNat w v) i = Memory.read s.rf i := fun v =>
    ⟨wf_memWrite hi.rfWf _ _ _, fun i hn => by rw [read_memWrite hi.rfWf, if_neg hn]⟩
  obtain ⟨hc, ⟨-, rfl⟩ | ⟨e, c, hl, hcls, rfl⟩⟩ := exec_write_inv h
  · exact ⟨(hf _).1, below_memWrite hi.rfBelow hc.2 _, (hf _).2⟩
  · simp only [State.respond_rf]
    rcases sideEffect_rf c e a.toNat w (truncTo w d) s hi.profileWf hl hcls with h1 | h1 <;> rw [h1]
    · exact ⟨hi.rfWf, hi.rfBelow, fun _ _ => rfl⟩
    · exact ⟨(hf _).1, below_memWrite hi.rfBelow hc.2 _, (hf _).2⟩

/-! ### The clock state -/

/-- The range of the formula (41_clock_power.md R161). -/
theorem computeFrequency_range (b cz : Nat) (cr fsr : Half) :
    15 ≤ (computeFrequency b cz cr fsr).2 ∧ (computeFrequency b cz cr fsr).2 ≤ 7200 ∧
      (computeFrequency b cz cr fsr).1 = (computeFrequency b cz cr fsr).2 * cz := by
  have hp := (fsr.extractLsb' 0 8).isLt
  have hq := (fsr.extractLsb' 8 4).isLt
  simp only [computeFrequency]
  refine ⟨?_, ?_, trivial⟩ <;> split <;> omega

/-- The formula reads the prescaler bit, p and q only. -/
theorem computeFrequency_congr {b cz : Nat} {cr cr' fsr fsr' : Half} (h1 : cr'.getLsbD b = cr.getLsbD b)
    (h2 : fsr'.toNat % 2 ^ 12 = fsr.toNat % 2 ^ 12) :
    computeFrequency b cz cr' fsr' = computeFrequency b cz cr fsr := by
  have hp : (fsr'.extractLsb' 0 8).toNat = (fsr.extractLsb' 0 8).toNat := by
    simp only [BitVec.extractLsb'_toNat, Nat.shiftRight_eq_div_pow]; omega
  have hq : (fsr'.extractLsb' 8 4).toNat = (fsr.extractLsb' 8 4).toNat := by
    simp only [BitVec.extractLsb'_toNat, Nat.shiftRight_eq_div_pow]; omega
  simp only [computeFrequency, h1, hp, hq]

/-- Where the PLL bytes agree, the PLL registers and the derived clock state agree. -/
theorem pll_congr {s t : State} (hp : t.profile = s.profile)
    (h : ∀ i, (s.profile.offPllcr ≤ i ∧ i < s.profile.offPllcr + 2) ∨
      (s.profile.offPllfsr ≤ i ∧ i < s.profile.offPllfsr + 2) → Memory.read t.rf i = Memory.read s.rf i) :
    t.pllcr = s.pllcr ∧ t.pllfsr = s.pllfsr ∧ t.derivedClock = s.derivedClock := by
  have h1 : t.pllcr = s.pllcr := by
    simp only [State.pllcr, State.load, hp]
    rw [memRead_congr (fun a ha hb => h a (.inl ⟨ha, by simpa [Width.bytes] using hb⟩))]
  have h2 : t.pllfsr = s.pllfsr := by
    simp only [State.pllfsr, State.load, hp]
    rw [memRead_congr (fun a ha hb => h a (.inr ⟨ha, by simpa [Width.bytes] using hb⟩))]
  exact ⟨h1, h2, by simp only [State.derivedClock, h1, h2, hp]⟩

/-! ### The calendar -/

theorem isCalendar_iff (p : Profile) (i : Nat) :
    isCalendar p i = true ↔ (p.offRtctime ≤ i ∧ i < p.offRtctime + 4) ∨ (p.offDayr ≤ i ∧ i < p.offDayr + 2) := by
  simp [isCalendar]

theorem read_pack {s : State} (hm : Memory.wf s.rf = true) (c : Calendar) (i : Nat)
    (hi : isCalendar s.profile i = false) : Memory.read (s.pack c).rf i = Memory.read s.rf i := by
  have h := mt (isCalendar_iff s.profile i).2 (by simp [hi])
  rw [not_or] at h
  rw [State.pack_rf, read_memWrite (wf_memWrite hm _ _ _), if_neg (by simpa [Width.bytes] using h.2),
    read_memWrite hm, if_neg (by simpa [Width.bytes] using h.1)]

/-- RTCTIME and DAYR after a pack (42_rtc.md R192). -/
theorem pack_registers {s : State} (hwf : s.profile.wf = true) (hm : Memory.wf s.rf = true) (c : Calendar) :
    (s.pack c).rtctime = packTime s.profile c ∧ (s.pack c).dayr = BitVec.ofNat 16 c.day := by
  have hn : s.profile.offRtctime + 4 ≤ s.profile.offDayr ∨ s.profile.offDayr + 2 ≤ s.profile.offRtctime :=
    (Profile.named_apart hwf).2.2.2.2.2.2.2.2.2.1
  constructor
  · simp only [State.rtctime, State.load, State.pack_rf, State.pack_profile]
    rw [memRead_memWrite_disjoint (wf_memWrite hm _ _ _) hn,
      memRead_memWrite_same hm]
    rfl
  · simp only [State.dayr, State.load, State.pack_rf, State.pack_profile]
    rw [memRead_memWrite_same (wf_memWrite hm _ _ _)]
    apply BitVec.eq_of_toNat_eq
    simp only [truncTo, BitVec.toNat_setWidth, BitVec.extractLsb'_toNat, BitVec.toNat_ofNat, Nat.shiftRight_zero]
    omega

/-- A bit of a packed time. -/
theorem getLsbD_packTime (p : Profile) (c : Calendar) (i : Nat) :
    (packTime p c).getLsbD i =
      (decide (i < 32) && ((decide (p.hrLo ≤ i) && c.hr.testBit (i - p.hrLo)) ||
        (decide (p.minLo ≤ i) && c.min.testBit (i - p.minLo)) ||
        (decide (p.secLo ≤ i) && c.sec.testBit (i - p.secLo)))) := by
  simp only [packTime, BitVec.getLsbD_or, BitVec.getLsbD_shiftLeft, BitVec.getLsbD_ofNat]
  by_cases h : i < 32
  · have h1 : i - p.hrLo < 32 := by omega
    have h2 : i - p.minLo < 32 := by omega
    have h3 : i - p.secLo < 32 := by omega
    by_cases a1 : p.hrLo ≤ i <;> by_cases a2 : p.minLo ≤ i <;> by_cases a3 : p.secLo ≤ i <;>
      simp [h, h1, h2, h3, a1, a2, a3, Nat.not_lt.2, Nat.lt_of_not_le]
  · simp [h]

/-- The calendar fields fit their widths (42_rtc.md R193). -/
def Calendar.fits (c : Calendar) : Prop := c.sec < 64 ∧ c.min < 64 ∧ c.hr < 32 ∧ c.day < 512

theorem testBit_of_fits {x k i : Nat} (h : x < 2 ^ k) (hi : k ≤ i) : x.testBit i = false :=
  Nat.testBit_lt_two_pow (lt_of_lt_of_le h (Nat.pow_le_pow_right (by decide) hi))

/-- Unpacking a packed time gives its fields, when they fit and share no bit. -/
theorem unpack_packTime {p : Profile} (hwf : p.wf = true) {c : Calendar} (hc : c.fits) :
    ((packTime p c).extractLsb' p.secLo 6).toNat = c.sec ∧ ((packTime p c).extractLsb' p.minLo 6).toNat = c.min ∧
      ((packTime p c).extractLsb' p.hrLo 5).toNat = c.hr := by
  obtain ⟨f1, f2, f3, d1, d2, d3⟩ := Profile.rtc_fields hwf
  obtain ⟨hs, hm, hh, -⟩ := hc
  have hs' : ∀ i, 6 ≤ i → c.sec.testBit i = false := fun i => testBit_of_fits (k := 6) hs
  have hm' : ∀ i, 6 ≤ i → c.min.testBit i = false := fun i => testBit_of_fits (k := 6) hm
  have hh' : ∀ i, 5 ≤ i → c.hr.testBit i = false := fun i => testBit_of_fits (k := 5) hh
  refine ⟨?_, ?_, ?_⟩ <;> apply Nat.eq_of_testBit_eq <;> intro i <;>
    rw [← BitVec.getLsbD, BitVec.getLsbD_extractLsb', getLsbD_packTime]
  · by_cases hi : i < 6
    · have e1 : (decide (p.hrLo ≤ p.secLo + i) && c.hr.testBit (p.secLo + i - p.hrLo)) = false := by
        by_cases h : p.hrLo ≤ p.secLo + i
        · rw [hh' _ (by omega)]; simp
        · simp [h]
      have e2 : (decide (p.minLo ≤ p.secLo + i) && c.min.testBit (p.secLo + i - p.minLo)) = false := by
        by_cases h : p.minLo ≤ p.secLo + i
        · rw [hm' _ (by omega)]; simp
        · simp [h]
      rw [e1, e2]; simp [hi, show p.secLo + i < 32 by omega]
    · rw [hs' i (by omega)]; simp [hi]
  · by_cases hi : i < 6
    · have e1 : (decide (p.hrLo ≤ p.minLo + i) && c.hr.testBit (p.minLo + i - p.hrLo)) = false := by
        by_cases h : p.hrLo ≤ p.minLo + i
        · rw [hh' _ (by omega)]; simp
        · simp [h]
      have e2 : (decide (p.secLo ≤ p.minLo + i) && c.sec.testBit (p.minLo + i - p.secLo)) = false := by
        by_cases h : p.secLo ≤ p.minLo + i
        · rw [hs' _ (by omega)]; simp
        · simp [h]
      rw [e1, e2]; simp [hi, show p.minLo + i < 32 by omega]
    · rw [hm' i (by omega)]; simp [hi]
  · by_cases hi : i < 5
    · have e1 : (decide (p.minLo ≤ p.hrLo + i) && c.min.testBit (p.hrLo + i - p.minLo)) = false := by
        by_cases h : p.minLo ≤ p.hrLo + i
        · rw [hm' _ (by omega)]; simp
        · simp [h]
      have e2 : (decide (p.secLo ≤ p.hrLo + i) && c.sec.testBit (p.hrLo + i - p.secLo)) = false := by
        by_cases h : p.secLo ≤ p.hrLo + i
        · rw [hs' _ (by omega)]; simp
        · simp [h]
      rw [e1, e2]; simp [hi, show p.hrLo + i < 32 by omega]
    · rw [hh' i (by omega)]; simp [hi]

/-- A bit of a field mask. -/
theorem getLsbD_rtcMask (p : Profile) (i : Nat) :
    p.rtcMask.getLsbD i =
      (decide (i < 32) && ((decide (p.secLo ≤ i) && (0x3F : Nat).testBit (i - p.secLo)) ||
        (decide (p.minLo ≤ i) && (0x3F : Nat).testBit (i - p.minLo)) ||
        (decide (p.hrLo ≤ i) && (0x1F : Nat).testBit (i - p.hrLo)))) := by
  have h6 : (0x3F : Word) = BitVec.ofNat 32 0x3F := rfl
  have h5 : (0x1F : Word) = BitVec.ofNat 32 0x1F := rfl
  simp only [Profile.rtcMask, h6, h5, BitVec.getLsbD_or, BitVec.getLsbD_shiftLeft, BitVec.getLsbD_ofNat]
  by_cases h : i < 32
  · have h1 : i - p.hrLo < 32 := by omega
    have h2 : i - p.minLo < 32 := by omega
    have h3 : i - p.secLo < 32 := by omega
    by_cases a1 : p.hrLo ≤ i <;> by_cases a2 : p.minLo ≤ i <;> by_cases a3 : p.secLo ≤ i <;>
      simp [h, h1, h2, h3, a1, a2, a3, Nat.not_lt.2, Nat.lt_of_not_le]
  · simp [h]

/-- A packed time has no bit outside the fields (42_rtc.md R192). -/
theorem packTime_nonfield {p : Profile} {c : Calendar} (hc : c.fits) : packTime p c &&& ~~~p.rtcMask = 0 := by
  obtain ⟨hs, hm, hh, -⟩ := hc
  have hs' : ∀ i, c.sec.testBit i = true → (0x3F : Nat).testBit i = true := by
    intro i h
    by_cases hi : i < 6
    · rw [show (0x3F : Nat) = 2 ^ 6 - 1 from rfl, Nat.testBit_two_pow_sub_one]; simp [hi]
    · rw [testBit_of_fits (k := 6) hs (by omega)] at h; cases h
  have hm' : ∀ i, c.min.testBit i = true → (0x3F : Nat).testBit i = true := by
    intro i h
    by_cases hi : i < 6
    · rw [show (0x3F : Nat) = 2 ^ 6 - 1 from rfl, Nat.testBit_two_pow_sub_one]; simp [hi]
    · rw [testBit_of_fits (k := 6) hm (by omega)] at h; cases h
  have hh' : ∀ i, c.hr.testBit i = true → (0x1F : Nat).testBit i = true := by
    intro i h
    by_cases hi : i < 5
    · rw [show (0x1F : Nat) = 2 ^ 5 - 1 from rfl, Nat.testBit_two_pow_sub_one]; simp [hi]
    · rw [testBit_of_fits (k := 5) hh (by omega)] at h; cases h
  apply BitVec.eq_of_getLsbD_eq
  intro i hi
  rw [BitVec.getLsbD_and, BitVec.getLsbD_not, getLsbD_packTime, getLsbD_rtcMask]
  have key : ∀ h m s h' m' s' dh dm ds d g : Bool, (h = true → h' = true) → (m = true → m' = true) →
      (s = true → s' = true) →
      ((d && ((dh && h) || (dm && m) || (ds && s))) &&
        (g && !(d && ((ds && s') || (dm && m') || (dh && h'))))) = false := by decide
  rw [key _ _ _ _ _ _ _ _ _ _ _ (hh' _) (hm' _) (hs' _)]
  simp

/-- The calendar of a packed state. -/
theorem calendar_pack {s : State} (hwf : s.profile.wf = true) (hm : Memory.wf s.rf = true) {c : Calendar}
    (hc : c.fits) : (s.pack c).calendar = c := by
  obtain ⟨h1, h2⟩ := pack_registers hwf hm c
  obtain ⟨u1, u2, u3⟩ := unpack_packTime hwf hc
  have u4 : (BitVec.extractLsb' 0 9 (BitVec.ofNat 16 c.day)).toNat = c.day := by
    have := hc.2.2.2
    simp only [BitVec.extractLsb'_toNat, BitVec.toNat_ofNat, Nat.shiftRight_zero]
    omega
  simp only [State.calendar, h1, h2, State.pack_profile, u1, u2, u3, u4]

theorem calendar_fits (s : State) : s.calendar.fits :=
  ⟨(s.rtctime.extractLsb' s.profile.secLo 6).isLt, (s.rtctime.extractLsb' s.profile.minLo 6).isLt,
    (s.rtctime.extractLsb' s.profile.hrLo 5).isLt, (s.dayr.extractLsb' 0 9).isLt⟩

theorem advance_fits {c : Calendar} (h : c.fits) : c.advance.fits := by
  obtain ⟨h1, h2, h3, h4⟩ := h
  simp only [Calendar.fits, Calendar.advance]
  refine ⟨?_, ?_, ?_, ?_⟩ <;> split_ifs <;> omega

theorem ofOperands_fits (days : Word) (hours minutes seconds : Byte) :
    (Calendar.ofOperands days hours minutes seconds).fits :=
  ⟨(seconds.extractLsb' 0 6).isLt, (minutes.extractLsb' 0 6).isLt, (hours.extractLsb' 0 5).isLt,
    (days.extractLsb' 0 9).isLt⟩

theorem dayr_pack_lt {s : State} (hwf : s.profile.wf = true) (hm : Memory.wf s.rf = true) {c : Calendar}
    (hc : c.fits) : (s.pack c).dayr.toNat < 512 := by
  rw [(pack_registers hwf hm c).2, BitVec.toNat_ofNat]
  have := hc.2.2.2
  omega

end Sys2Proof.Machine
end

