-- ==== Sys2Proof/Laws/Reset.lean ====
section
/-! SUPPORT. Sys2Proof/Laws/Reset.lean: the register file and the DMA window after RESET and RESTORE, and the DMA decoder
as the inverse of the layout. -/

namespace Sys2Proof.Machine

/-! ### The reset table -/

theorem wf_applyTable (l : List ResetEntry) {m : Memory 8} (hm : Memory.wf m = true) :
    Memory.wf (applyTable l m) = true := by
  induction l generalizing m with
  | nil => exact hm
  | cons e l ih => exact ih (wf_memWrite hm _ _ _)

theorem below_applyTable (l : List ResetEntry) {m : Memory 8} {size : Nat} (hm : Memory.below m size = true)
    (hl : ∀ e ∈ l, e.off + e.width.bytes ≤ size) : Memory.below (applyTable l m) size = true := by
  induction l generalizing m with
  | nil => exact hm
  | cons e l ih =>
    exact ih (below_memWrite hm (hl e (by simp)) _) (fun f hf => hl f (by simp [hf]))

/-- A byte in no entry of the table keeps its value. -/
theorem read_applyTable_out (l : List ResetEntry) {m : Memory 8} (hm : Memory.wf m = true) (i : Nat)
    (hi : ∀ e ∈ l, ¬(e.off ≤ i ∧ i < e.off + e.width.bytes)) :
    Memory.read (applyTable l m) i = Memory.read m i := by
  induction l generalizing m with
  | nil => rfl
  | cons e l ih =>
    have h := ih (wf_memWrite hm e.off e.width e.value) (fun f hf => hi f (by simp [hf]))
    rw [show applyTable (e :: l) m = applyTable l (memWrite m e.off e.width e.value) from rfl, h, read_memWrite hm,
      if_neg (hi e (by simp))]

/-- The entries of a table whose entries share no byte read back (70_reset_and_hazards.md R302). -/
theorem memRead_applyTable (l : List ResetEntry) {m : Memory 8} (hm : Memory.wf m = true)
    (hl : l.Pairwise (fun e f => e.off + e.width.bytes ≤ f.off ∨ f.off + f.width.bytes ≤ e.off)) {e : ResetEntry}
    (he : e ∈ l) : memRead (applyTable l m) e.off e.width = truncTo e.width e.value := by
  induction l generalizing m with
  | nil => cases he
  | cons f l ih =>
    rw [List.pairwise_cons] at hl
    rw [show applyTable (f :: l) m = applyTable l (memWrite m f.off f.width f.value) from rfl]
    have hw := wf_memWrite hm f.off f.width f.value
    rcases List.mem_cons.1 he with rfl | he
    · rw [← memRead_memWrite_same hm e.off e.width e.value]
      refine memRead_congr (fun a h1 h2 => read_applyTable_out l hw a (fun g hg hga => ?_))
      have := hl.1 g hg
      omega
    · exact ih hw hl.2 he

/-- A byte after the zero-fill (70_reset_and_hazards.md R300, R301). -/
theorem read_zeroFill (p : Profile) (m : Memory 8) (i : Nat) :
    Memory.read (zeroFill p m) i = if isCalendar p i then Memory.read m i else 0 := Memory.read_filter m (isCalendar p) i

theorem wf_zeroFill (p : Profile) {m : Memory 8} (hm : Memory.wf m = true) : Memory.wf (zeroFill p m) = true :=
  Memory.wf_filter hm (isCalendar p)

theorem wf_resetRf (p : Profile) {m : Memory 8} (hm : Memory.wf m = true) : Memory.wf (resetRf p m) = true :=
  wf_applyTable _ (wf_zeroFill p hm)

theorem below_resetRf {p : Profile} (hwf : p.wf = true) {m : Memory 8} (hm : Memory.below m p.periphSize = true) :
    Memory.below (resetRf p m) p.periphSize = true :=
  below_applyTable _ (Memory.below_filter hm (isCalendar p)) (fun _ he => (Profile.resetTable_facts hwf he).2.2.2)

/-- RESET keeps the calendar bytes (70_reset_and_hazards.md R301). -/
theorem read_resetRf_calendar {p : Profile} (hwf : p.wf = true) {m : Memory 8} (hm : Memory.wf m = true) {i : Nat}
    (hi : isCalendar p i = true) : Memory.read (resetRf p m) i = Memory.read m i := by
  rw [resetRf, read_applyTable_out _ (wf_zeroFill p hm), read_zeroFill, if_pos hi]
  intro e he h
  obtain ⟨h1, h2, -⟩ := Profile.resetTable_facts hwf he
  rcases (isCalendar_iff p i).1 hi with h3 | h3 <;> omega

/-- RESET zeroes every byte that is neither a calendar byte nor in the table. -/
theorem read_resetRf_zero {p : Profile} {m : Memory 8} (hm : Memory.wf m = true) {i : Nat}
    (hi : isCalendar p i = false) (hn : ∀ e ∈ p.resetTable, ¬(e.off ≤ i ∧ i < e.off + e.width.bytes)) :
    Memory.read (resetRf p m) i = 0 := by
  rw [resetRf, read_applyTable_out _ (wf_zeroFill p hm) i hn, read_zeroFill, hi]; rfl

/-- RESET writes the table (70_reset_and_hazards.md R302). -/
theorem memRead_resetRf {p : Profile} (hwf : p.wf = true) {m : Memory 8} (hm : Memory.wf m = true) {e : ResetEntry}
    (he : e ∈ p.resetTable) : memRead (resetRf p m) e.off e.width = truncTo e.width e.value :=
  memRead_applyTable _ (wf_zeroFill p hm) (Profile.resetTable_disjoint hwf) he

/-- RF after RESET is a function of the calendar bytes (70_reset_and_hazards.md R305). -/
theorem resetRf_congr (p : Profile) {m m' : Memory 8} (hm : Memory.wf m = true) (hm' : Memory.wf m' = true)
    (h : ∀ i, isCalendar p i = true → Memory.read m i = Memory.read m' i) : resetRf p m = resetRf p m' := by
  have hz : zeroFill p m = zeroFill p m' := by
    refine Memory.ext (wf_zeroFill p hm) (wf_zeroFill p hm') (fun i => ?_)
    rw [read_zeroFill, read_zeroFill]
    split
    · exact h i ‹_›
    · rfl
  rw [resetRf, resetRf, hz]

theorem resetRf_idem {p : Profile} (hwf : p.wf = true) {m : Memory 8} (hm : Memory.wf m = true) :
    resetRf p (resetRf p m) = resetRf p m :=
  resetRf_congr p (wf_resetRf p hm) hm (fun _ hi => read_resetRf_calendar hwf hm hi)

/-! ### The DMA window -/

theorem resetDw_spec (p : Profile) {dw : Memory 32} (hw : Memory.wf dw = true)
    (hb : Memory.below dw (dmaWords p) = true) :
    Memory.wf (resetDw p dw) = true ∧ Memory.below (resetDw p dw) (dmaWords p) = true := by
  unfold resetDw
  split
  · exact ⟨Memory.wf_tabulate _ _, Memory.below_tabulate _ _⟩
  · exact ⟨hw, hb⟩

theorem read_resetDw {p : Profile} (hd : p.hasDma = true) (dw : Memory 32) {j : Nat} (hj : j < p.dmaSize / 4) :
    Memory.read (resetDw p dw) j = dmaResetOf p j := by
  rw [resetDw, if_pos hd, Memory.read_tabulate, if_pos (by rw [dmaWords, if_pos hd]; exact hj)]

theorem resetDw_idem (p : Profile) (dw : Memory 32) : resetDw p (resetDw p dw) = resetDw p dw := by
  unfold resetDw
  split <;> rfl

theorem indexFrom_some {off k i : Nat} {l : List Nat} (h : indexFrom off k l = some i) :
    k ≤ i ∧ l[i - k]? = some off := by
  induction l generalizing k with
  | nil => cases h
  | cons o l ih =>
    unfold indexFrom at h
    split at h <;> rename_i ho
    · cases h; simp [ho]
    · obtain ⟨h1, h2⟩ := ih h
      refine ⟨by omega, ?_⟩
      rw [show i - k = (i - (k + 1)) + 1 by omega, List.getElem?_cons_succ]
      exact h2

theorem indexFrom_of_mem {off : Nat} (k : Nat) {l : List Nat} (h : off ∈ l) : (indexFrom off k l).isSome = true := by
  induction l generalizing k with
  | nil => cases h
  | cons o l ih =>
    unfold indexFrom
    split
    · rfl
    · rename_i ho
      rcases List.mem_cons.1 h with h | h
      · exact absurd h.symm ho
      · exact ih (k + 1) h

/-- What the decoder answers, at any layout: a register whose offset is the one given (43_dma.md R223). -/
theorem dmaOffset_of_ddesc {p : Profile} {o : Nat} {r : DmaReg} (h : ddesc p o = some r) : dmaOffset p r = some o := by
  obtain ⟨k, -, hk⟩ := List.exists_of_findSome?_eq_some h
  unfold kindAt at hk
  split at hk
  · rename_i i hi
    cases hk
    have := (indexFrom_some hi).2
    simpa [dmaOffset] using this
  · cases hk

theorem dmaOffset_mem {p : Profile} {r : DmaReg} {o : Nat} (h : dmaOffset p r = some o) : o ∈ p.dmaLayout.all := by
  have hm : o ∈ p.dmaLayout.offsets r.kind := List.mem_of_getElem? h
  cases hk : r.kind <;> rw [hk] at hm <;> simp [DmaLayout.all, DmaLayout.offsets] at hm ⊢ <;> tauto

theorem ddesc_isSome_of_mem {p : Profile} {k : DmaKind} {o : Nat} (h : o ∈ p.dmaLayout.offsets k) :
    (ddesc p o).isSome = true := by
  rw [ddesc, List.findSome?_isSome_iff]
  refine ⟨k, by cases k <;> simp [DmaKind.all], ?_⟩
  unfold kindAt
  have := indexFrom_of_mem 0 h
  obtain ⟨i, hi⟩ := Option.isSome_iff_exists.1 this
  rw [hi]; rfl

/-- No two registers of a well-formed layout share a word (43_dma.md R221). -/
theorem dmaOffset_inj {p : Profile} (hwf : p.wf = true) (hd : p.hasDma = true) {r r' : DmaReg} {o o' : Nat}
    (h : dmaOffset p r = some o) (h' : dmaOffset p r' = some o') (ho : o / 4 = o' / 4) : r = r' := by
  have hp := (Profile.dma_facts hwf hd).1
  simp only [DmaLayout.all, List.pairwise_append] at hp
  obtain ⟨⟨⟨⟨⟨p1, p2, q1⟩, p3, q2⟩, p4, q3⟩, p5, q4⟩, p6, q5⟩ := hp
  have same : ∀ (l : List Nat) (i j : Nat), l.Pairwise (fun x y => x / 4 ≠ y / 4) → l[i]? = some o →
      l[j]? = some o' → i = j := by
    intro l i j hl hi hj
    by_contra hne
    rcases Nat.lt_or_gt_of_ne hne with hlt | hlt
    · obtain ⟨hi', rfl⟩ := List.getElem?_eq_some_iff.1 hi
      obtain ⟨hj', rfl⟩ := List.getElem?_eq_some_iff.1 hj
      exact (List.pairwise_iff_getElem.1 hl) i j hi' hj' hlt ho
    · obtain ⟨hi', rfl⟩ := List.getElem?_eq_some_iff.1 hi
      obtain ⟨hj', rfl⟩ := List.getElem?_eq_some_iff.1 hj
      exact (List.pairwise_iff_getElem.1 hl) j i hj' hi' hlt ho.symm
  obtain ⟨k, i⟩ := r
  obtain ⟨k', i'⟩ := r'
  simp only [dmaOffset] at h h'
  have hm := List.mem_of_getElem? h
  have hm' := List.mem_of_getElem? h'
  have apart : ∀ {l l' : List Nat}, (∀ a ∈ l, ∀ b ∈ l', a / 4 ≠ b / 4) → o ∈ l → o' ∈ l' → False :=
    fun hll h1 h2 => hll o h1 o' h2 ho
  have apart' : ∀ {l l' : List Nat}, (∀ a ∈ l, ∀ b ∈ l', a / 4 ≠ b / 4) → o' ∈ l → o ∈ l' → False :=
    fun hll h1 h2 => hll o' h1 o h2 ho.symm
  cases k <;> cases k' <;> simp only [DmaLayout.offsets] at h h' hm hm' <;>
    first
      | rw [same _ i i' ‹_› h h']
      | (exfalso; exact apart q1 hm hm')
      | (exfalso; exact apart' q1 hm' hm)
      | (exfalso; refine apart q2 ?_ hm'; simp only [List.mem_append, hm, or_true, true_or]; done)
      | (exfalso; refine apart' q2 ?_ hm; simp only [List.mem_append, hm', or_true, true_or]; done)
      | (exfalso; refine apart q3 ?_ hm'; simp only [List.mem_append, hm, or_true, true_or]; done)
      | (exfalso; refine apart' q3 ?_ hm; simp only [List.mem_append, hm', or_true, true_or]; done)
      | (exfalso; refine apart q4 ?_ hm'; simp only [List.mem_append, hm, or_true, true_or]; done)
      | (exfalso; refine apart' q4 ?_ hm; simp only [List.mem_append, hm', or_true, true_or]; done)
      | (exfalso; refine apart q5 ?_ hm'; simp only [List.mem_append, hm, or_true, true_or])
      | (exfalso; refine apart' q5 ?_ hm; simp only [List.mem_append, hm', or_true, true_or])

/-- The decoder inverts the layout (43_dma.md R221, R223). -/
theorem ddesc_of_dmaOffset {p : Profile} (hwf : p.wf = true) (hd : p.hasDma = true) {r : DmaReg} {o : Nat}
    (h : dmaOffset p r = some o) : ddesc p o = some r := by
  obtain ⟨r', hr'⟩ := Option.isSome_iff_exists.1 (ddesc_isSome_of_mem (List.mem_of_getElem? h))
  rw [hr', dmaOffset_inj hwf hd (dmaOffset_of_ddesc hr') h rfl]

end Sys2Proof.Machine
end

