-- ==== Sys2Proof/Laws/Run.lean ====
section
/-! SUPPORT. Sys2Proof/Laws/Run.lean: no transaction reads the outputs or the input, what a step leaves of the profile and
the input, and the equations of runs and observations. -/

namespace Sys2Proof.Machine

/-- A transaction changes neither the profile nor the input. -/
theorem exec_profile_input {s t : State} {i : Instr} (h : exec i s = .next t) :
    t.profile = s.profile ∧ t.input = s.input := by
  cases does_of_exec h with
  | read w a hi hc ht => subst ht; simp
  | rawWrite w a d hi hc hl ht => subst ht; exact ⟨rfl, rfl⟩
  | docWrite w a d e c hi hc hl hcls ht => subst ht; simp
  | dmaRead a hi hc ht => subst ht; simp
  | dmaWrite a d hi hc ht => subst ht; simp
  | tickOff hi h ht => subst ht; exact ⟨rfl, rfl⟩
  | tickOn hi h ht => subst ht; exact ⟨rfl, rfl⟩
  | clk32 hi ht => subst ht; exact ⟨rfl, rfl⟩
  | setrtc _ _ _ _ hi ht => subst ht; exact ⟨rfl, rfl⟩
  | reset hi ht => subst ht; exact ⟨rfl, rfl⟩
  | qpwr hi ht => subst ht; exact ⟨rfl, rfl⟩
  | qfreq hi ht => subst ht; exact ⟨rfl, rfl⟩
  | restore img hi hs ht => subst ht; exact ⟨rfl, rfl⟩

/-! ### The outputs and the input are never read -/

/-- A state with another input, and with outputs put in front of its own. -/
def State.reframe (l : List Transaction) (es : List Event) (rs : List Response) (s : State) : State :=
  { s with input := l, events := es ++ s.events, responses := rs ++ s.responses }

/-- An outcome with its next state changed. -/
def mapNext (f : State → State) : Outcome → Outcome
  | .next t => .next (f t)
  | .fault r => .fault r
  | .refused r => .refused r

theorem reframe_respond {l : List Transaction} {es : List Event} {rs : List Response} {s u : State}
    (h : u = s.reframe l es rs) (r : Response) : u.respond r = (s.respond r).reframe l es rs := by
  subst h; simp [State.reframe, State.respond]

theorem reframe_emit {l : List Transaction} {es : List Event} {rs : List Response} {s u : State}
    (h : u = s.reframe l es rs) (e : Event) : u.emit e = (s.emit e).reframe l es rs := by
  subst h; simp [State.reframe, State.emit]

theorem reframe_emit_respond {l : List Transaction} {es : List Event} {rs : List Response} {s u : State}
    (h : u = s.reframe l es rs) (e : Event) (r : Response) :
    (u.emit e).respond r = ((s.emit e).respond r).reframe l es rs := reframe_respond (reframe_emit h e) r

/-- A documented write reads neither the outputs nor the input. -/
theorem sideEffect_reframe (l : List Transaction) (es : List Event) (rs : List Response) (c : SideEffect)
    (e : Descriptor) (off : Nat) (w : Width) (v : Word) (s : State) :
    sideEffect c e off w v (s.reframe l es rs) = (sideEffect c e off w v s).reframe l es rs := by
  cases c with
  | none => rfl
  | rtc => rfl
  | fixed => rfl
  | clock =>
    show (if s.prot = true then _ else _) = State.reframe l es rs (if s.prot = true then _ else _)
    split <;> rfl
  | power =>
    show (if (recompute (s.maskedStore s.profile.offPllcr .w16 v e)).dispLl = true then
        ((recompute (s.maskedStore s.profile.offPllcr .w16 v e)).reframe l es rs).emit .endTimeslice else _) =
      State.reframe l es rs (if (recompute (s.maskedStore s.profile.offPllcr .w16 v e)).dispLl = true then _ else _)
    split
    · exact reframe_emit (by rfl) _
    · rfl

/-- No transaction reads the outputs or the input: it does the same whatever they are. -/
theorem exec_reframe (l : List Transaction) (es : List Event) (rs : List Response) (i : Instr) (s : State) :
    exec i (s.reframe l es rs) = mapNext (State.reframe l es rs) (exec i s) := by
  have hread : ∀ off w, readAt off w (s.reframe l es rs) = (readAt off w s).reframe l es rs := by
    intro off w
    show (match s.profile.lookup off w with | none => _ | some _ => _) =
      State.reframe l es rs (match s.profile.lookup off w with | none => _ | some _ => _)
    cases s.profile.lookup off w with
    | none => exact reframe_emit_respond (by rfl) _ _
    | some e => exact reframe_respond (by rfl) _
  have hr : ∀ cmd w a, periphRead cmd w a (s.reframe l es rs) = mapNext (State.reframe l es rs) (periphRead cmd w a s) := by
    intro cmd w a
    show (match periphFault s.profile cmd a w with | some f => _ | none => _) =
      mapNext _ (match periphFault s.profile cmd a w with | some f => _ | none => _)
    cases periphFault s.profile cmd a w with
    | some f => rfl
    | none => exact congrArg Host.Outcome.next (hread _ _)
  have hw : ∀ cmd w a d,
      periphWrite cmd w a d (s.reframe l es rs) = mapNext (State.reframe l es rs) (periphWrite cmd w a d s) := by
    intro cmd w a d
    show (match periphFault s.profile cmd a w with | some f => _ | none => _) =
      mapNext _ (match periphFault s.profile cmd a w with | some f => _ | none => _)
    cases periphFault s.profile cmd a w with
    | some f => rfl
    | none =>
      show (match s.profile.lookup a.toNat w with | none => _ | some e => _) =
        mapNext _ (match s.profile.lookup a.toNat w with | none => _ | some e => _)
      cases s.profile.lookup a.toNat w with
      | none =>
        exact congrArg Host.Outcome.next (reframe_emit_respond (by rfl) _ _)
      | some e =>
        dsimp only
        cases SideEffect.ofCode e.cls with
        | none => rfl
        | some c =>
          exact congrArg Host.Outcome.next (reframe_respond (sideEffect_reframe ..) _)
  cases i with
  | rd8 a => exact hr ..
  | rd16 a => exact hr ..
  | rd32 a => exact hr ..
  | wr8 a d => exact hw ..
  | wr16 a d => exact hw ..
  | wr32 a d => exact hw ..
  | drd32 a =>
    show (match dmaFault s.profile 0x0A a with | some f => _ | none => _) =
      mapNext _ (match dmaFault s.profile 0x0A a with | some f => _ | none => _)
    cases dmaFault s.profile 0x0A a with
    | some f => rfl
    | none =>
      refine congrArg Host.Outcome.next ?_
      show (match ddesc s.profile a.toNat with | none => _ | some _ => _) =
        State.reframe l es rs (match ddesc s.profile a.toNat with | none => _ | some _ => _)
      cases ddesc s.profile a.toNat with
      | none => exact reframe_emit_respond (by rfl) _ _
      | some r => exact reframe_respond (by rfl) _
  | dwr32 a d =>
    show (match dmaFault s.profile 0x1A a with | some f => _ | none => _) =
      mapNext _ (match dmaFault s.profile 0x1A a with | some f => _ | none => _)
    cases dmaFault s.profile 0x1A a with
    | some f => rfl
    | none =>
      refine congrArg Host.Outcome.next ?_
      show (match ddesc s.profile a.toNat with | none => _ | some _ => _) =
        State.reframe l es rs (match ddesc s.profile a.toNat with | none => _ | some _ => _)
      cases ddesc s.profile a.toNat with
      | none => exact reframe_emit_respond (by rfl) _ _
      | some r =>
        dsimp only
        split
        · exact reframe_emit_respond (by rfl) _ _
        · exact reframe_respond (by rfl) _
  | tick =>
    show (if s.rtcEnabled = true then _ else _) = mapNext _ (if s.rtcEnabled = true then _ else _)
    split <;> exact congrArg Host.Outcome.next (reframe_respond (by rfl) _)
  | clk32 => exact congrArg Host.Outcome.next (reframe_respond (by rfl) _)
  | setrtc days hours minutes seconds => exact congrArg Host.Outcome.next (reframe_respond (by rfl) _)
  | reset => exact congrArg Host.Outcome.next (reframe_respond (by rfl) _)
  | qpwr => exact congrArg Host.Outcome.next (reframe_respond (by rfl) _)
  | qfreq => exact congrArg Host.Outcome.next (reframe_respond (by rfl) _)
  | restore img =>
    show (if img.size = s.profile.periphSize then _ else _) =
      mapNext _ (if img.size = s.profile.periphSize then _ else _)
    split
    · exact congrArg Host.Outcome.next (reframe_respond (by rfl) _)
    · rfl

/-! ### Steps and runs -/

/-- How a step completes: the next transaction decodes, and the state with it taken from the input does it. -/
theorem step_next_inv {s u : State} (h : step s = .next u) :
    s.profile.wf = true ∧ ∃ t rest i, s.input = t :: rest ∧ decode t = .ok i ∧ exec i (s.withInput rest) = .next u := by
  unfold step fetch at h
  split at h
  · rename_i hw
    cases hin : s.input with
    | nil => rw [hin] at h; cases h
    | cons t rest =>
      rw [hin] at h
      dsimp only at h
      cases hd : decode t with
      | error e => rw [hd] at h; cases h
      | ok i => rw [hd] at h; exact ⟨hw, t, rest, i, rfl, hd, h⟩
  · cases h

/-- A step takes one transaction from the input and leaves the profile. -/
theorem step_profile_input {s u : State} (h : step s = .next u) :
    u.profile = s.profile ∧ ∃ t, s.input = t :: u.input := by
  obtain ⟨-, t, rest, i, hin, -, hx⟩ := step_next_inv h
  obtain ⟨hp, hi⟩ := exec_profile_input hx
  exact ⟨hp, t, by rw [hin, hi]; rfl⟩

/-- What a step does with its first transaction does not depend on the transactions after it. -/
theorem step_rest (s : State) (t : Transaction) (l l' : List Transaction) :
    step (s.withInput (t :: l')) = mapNext (State.reframe l' [] []) (step (s.withInput (t :: l))) := by
  show (if s.profile.wf = true then _ else _) = mapNext _ (if s.profile.wf = true then _ else _)
  split
  · dsimp only [fetch, State.withInput]
    cases decode t with
    | error e => rfl
    | ok i => exact exec_reframe l' [] [] i (s.withInput l)
  · rfl

/-- A step does the same whatever outputs stand before its own. -/
theorem step_reframe (es : List Event) (rs : List Response) (s : State) :
    step (s.reframe s.input es rs) = mapNext (fun u => u.reframe u.input es rs) (step s) := by
  cases hi : s.input with
  | nil =>
    have h1 : fetch s = none := by simp [fetch, hi]
    have h2 : fetch (s.reframe [] es rs) = none := rfl
    simp only [step, h1, h2]
    show (if s.profile.wf = true then _ else _) = mapNext _ (if s.profile.wf = true then _ else _)
    split <;> rfl
  | cons t r =>
    have h1 : fetch s = some (t, s.withInput r) := by simp [fetch, hi]
    have h2 : fetch (s.reframe (t :: r) es rs) = some (t, (s.withInput r).reframe r es rs) := rfl
    simp only [step, h1, h2]
    show (if s.profile.wf = true then _ else _) = mapNext _ (if s.profile.wf = true then _ else _)
    split
    · cases decode t with
      | error e => rfl
      | ok i =>
        refine (exec_reframe r es rs i (s.withInput r)).trans ?_
        dsimp only
        cases he : exec i (s.withInput r) with
        | next u => simp only [mapNext]; rw [(exec_profile_input he).2]; rfl
        | fault f => rfl
        | refused f => rfl
    · rfl

@[simp] theorem runSteps_zero (s : State) : runSteps 0 s = { final := s, ending := .completed } := rfl

theorem runSteps_next {s t : State} (n : Nat) (h : step s = .next t) : runSteps (n + 1) s = runSteps n t := by
  simp only [runSteps, h]

theorem runSteps_fault {s : State} {f : Fault} (n : Nat) (h : step s = .fault f) :
    runSteps (n + 1) s = { final := s, ending := .faulted f } := by simp only [runSteps, h]

theorem runSteps_refused {s : State} {r : Refusal} (n : Nat) (h : step s = .refused r) :
    runSteps (n + 1) s = { final := s, ending := .refused r } := by simp only [runSteps, h]

@[simp] theorem observe_rf (r : RunResult) : r.observe.rf = r.final.rf := rfl

@[simp] theorem observe_dw (r : RunResult) : r.observe.dw = r.final.dw := rfl

@[simp] theorem observe_freqHz (r : RunResult) : r.observe.freqHz = r.final.freqHz := rfl

@[simp] theorem observe_refCyc (r : RunResult) : r.observe.refCyc = r.final.refCyc := rfl

@[simp] theorem observe_responses (r : RunResult) : r.observe.responses = r.final.responses := rfl

@[simp] theorem observe_events (r : RunResult) : r.observe.events = r.final.events := rfl

@[simp] theorem observe_ending (r : RunResult) : r.observe.ending = r.ending := rfl

end Sys2Proof.Machine
end

