-- ==== Sys2Proof/Tests/Slice0.lean ====
section
/-! SUPPORT. Sys2Proof/Tests/Slice0.lean: the model's own tests. Expected values come from spec/95_test_vectors.md (the
vector's name stands in the comment) or are worked out by hand from the rule named. -/

namespace Sys2Proof.Tests

open Sys2Proof.Machine

set_option Elab.async false

/-! ### Helpers -/

/-- The fault of an outcome. -/
def faultOf : Outcome → Option Fault
  | .next _ => none
  | .fault f => some f
  | .refused _ => none

/-- The refusal of an outcome. -/
def refusalOf : Outcome → Option Refusal
  | .next _ => none
  | .fault _ => none
  | .refused r => some r

/-- A small state: a register file made of a few stores, the clock state those bytes give, nothing else. -/
def st (p : Profile) (pokes : List (Nat × Width × Word)) : State :=
  recompute
    { profile := p, rf := pokes.foldl (fun m e => memWrite m e.1 e.2.1 e.2.2) [], freqHz := 0, refCyc := 0, dw := [],
      events := [], responses := [], input := [] }

/-- The transaction of a word. -/
def word (w : TransactionWord) : Transaction := { word := w, image := noImage }

/-- What a transaction that completes leaves, seen through `f`. -/
def see {α : Type} (f : State → α) (i : Instr) (s : State) : Option α :=
  match exec i s with
  | .next t => some (f t)
  | .fault _ => none
  | .refused _ => none

/-- The response and the events. -/
def out (s : State) : List Response × List Event := (s.responses, s.events)

/-- One answer of one word. -/
def answer (v : Word) : List Response := [{ q0 := v, q1 := none }]

/-- P0 with a GPIO port of three widths, each with its own mask (10_state.md R34), and SDCTRL documented (R33). -/
def gpio : Profile :=
  { Profile.p0 with
    desc := Profile.p0Desc ++
      [ { off := 0x400, width := .w8, W := 0xF0, K := 0, cls := SideEffect.none.code },
        { off := 0x400, width := .w16, W := 0x3FFF, K := 0, cls := SideEffect.none.code },
        { off := 0x400, width := .w32, W := 0x0FFFFFFF, K := 0, cls := SideEffect.none.code },
        { off := 0xC04, width := .w16, W := 0x803F, K := 0, cls := SideEffect.none.code } ]
    resetTable := Profile.p0ResetTable ++ [ { off := 0x400, width := .w8, value := 0xFF } ] }

/-- P0 without the DMA window (00_scope.md R8). -/
def noDma : Profile := { Profile.p0 with hasDma := false }

/-- A profile that differs from P0 in every bit and offset that R9 leaves open. -/
def alt : Profile :=
  { Profile.p0 with
    desc :=
      [ { off := 0x010, width := .w32, W := 0, K := 0, cls := 4 }, { off := 0x010, width := .w16, W := 0, K := 0, cls := 4 },
        { off := 0x012, width := .w16, W := 0, K := 0, cls := 4 }, { off := 0x010, width := .w8, W := 0, K := 0, cls := 4 },
        { off := 0x011, width := .w8, W := 0, K := 0, cls := 4 }, { off := 0x012, width := .w8, W := 0, K := 0, cls := 4 },
        { off := 0x013, width := .w8, W := 0, K := 0, cls := 4 },
        { off := 0x0A0, width := .w16, W := 0xFFFF, K := 0, cls := 2 },
        { off := 0x0B0, width := .w16, W := 0x1FFF, K := 0, cls := 1 },
        { off := 0x0C0, width := .w16, W := 0, K := 0x0001, cls := 0 },
        { off := 0x0D0, width := .w32, W := 0x0001FFFF, K := 0, cls := 3 },
        { off := 0x0D4, width := .w16, W := 0x01FF, K := 0, cls := 3 },
        { off := 0x0D6, width := .w8, W := 0x01, K := 0, cls := 0 } ]
    resetTable :=
      [ { off := 0x0A0, width := .w16, value := 0x24B3 }, { off := 0x0B0, width := .w16, value := 0x0347 },
        { off := 0x010, width := .w32, value := 7 }, { off := 0x0D6, width := .w8, value := 1 } ]
    periphSize := 0x100, offPllcr := 0x0A0, offPllfsr := 0x0B0, offIdr := 0x010, offRtctime := 0x0D0, offDayr := 0x0D4
    offRtcctl := 0x0D6, rtcctlWidth := .w8, bitRtcen := 0, bitPresc := 2, bitDispll := 14, bitProt := 12
    clk32Off := 0x0C0, bitClk32 := 0, secLo := 11, minLo := 5, hrLo := 0, chipId := 7, crystalHz := 100 }

/-- P0 with the CLK32 bit in a 16-bit register over an 8-bit RTCCTL, and an unmasked 8-bit entry beside a documented
SDCTRL: "Entries at different widths may overlap in bytes" (30_encoding.md R102). -/
def overlapping : Profile :=
  { Profile.p0 with
    desc := Profile.p0Desc.filter (fun e => !(e.off == 0xB0C)) ++
      [ { off := 0xB0D, width := .w8, W := 0xA0, K := 0, cls := SideEffect.none.code },
        { off := 0xB0C, width := .w16, W := 0x00A0, K := 0x0100, cls := SideEffect.none.code },
        { off := 0xC04, width := .w16, W := 0x803F, K := 0, cls := SideEffect.none.code },
        { off := 0xC04, width := .w8, W := 0xFF, K := 0, cls := SideEffect.none.code } ]
    offRtcctl := 0xB0D, rtcctlWidth := .w8, clk32Off := 0xB0C, bitClk32 := 8 }

theorem test_profiles_are_wellFormed :
    Profile.p0.wf = true ∧ gpio.wf = true ∧ noDma.wf = true ∧ alt.wf = true ∧ overlapping.wf = true := by decide +kernel

/-! ### Well-formedness: each check refuses a profile that breaks it (30_encoding.md R102, 00_scope.md R9,
70_reset_and_hazards.md R302, 43_dma.md R221, R224) -/

/-- P0 with more descriptors. -/
def withDesc (l : List Descriptor) : Profile := { Profile.p0 with desc := Profile.p0Desc ++ l }

/-- A descriptor of no register of P0. -/
def entry (off : Nat) (w : Width) (W K : Word) (cls : BitVec 3) : Descriptor :=
  { off := off, width := w, W := W, K := K, cls := cls }

/-- A check refuses a profile, and so does well-formedness. -/
def refuses (check : Profile → Bool) (p : Profile) : Bool := !check p && !p.wf

theorem test_wf_descUnique : refuses Profile.descUnique (withDesc [entry 0xB0C .w16 0 0 0]) = true := by decide +kernel
theorem test_wf_descInWindow : refuses Profile.descInWindow (withDesc [entry 0x301 .w16 0 0 0]) = true ∧
    refuses Profile.descInWindow (withDesc [entry 0x1000 .w8 0 0 0]) = true := by decide +kernel
theorem test_wf_descMasks : refuses Profile.descMasks (withDesc [entry 0x300 .w8 1 1 0]) = true ∧
    refuses Profile.descMasks (withDesc [entry 0x300 .w8 0x100 0 0]) = true := by decide +kernel
theorem test_wf_descCodes : refuses Profile.descCodes (withDesc [entry 0x300 .w8 0 0 5]) = true := by decide +kernel
theorem test_wf_clockSpot : refuses Profile.clockSpot (withDesc [entry 0x300 .w16 0 0 1]) = true := by decide +kernel
theorem test_wf_powerSpot : refuses Profile.powerSpot (withDesc [entry 0x300 .w16 0 0 2]) = true := by decide +kernel
theorem test_wf_rtcSpots : refuses Profile.rtcSpots (withDesc [entry 0x300 .w16 0 0 3]) = true := by decide +kernel
theorem test_wf_fixedSpots : refuses Profile.fixedSpots
    { Profile.p0 with desc := Profile.p0Desc.filter (fun e => !(e.off == 5)) } = true := by decide +kernel
theorem test_wf_pllcrBits : refuses Profile.pllcrBits { Profile.p0 with bitDispll := 0 } = true ∧
    refuses Profile.pllcrBits { Profile.p0 with bitPresc := 3 } = true ∧
    refuses Profile.pllcrBits { Profile.p0 with bitDispll := 2 } = true := by decide +kernel
theorem test_wf_pllfsrBits : refuses Profile.pllfsrBits { Profile.p0 with bitProt := 11 } = true ∧
    refuses Profile.pllfsrBits { Profile.p0 with bitProt := 13 } = true := by decide +kernel
theorem test_wf_pllOnlyHalf : refuses Profile.pllOnlyHalf (withDesc [entry 0x201 .w8 0 0 0]) = true ∧
    refuses Profile.pllOnlyHalf (withDesc [entry 0x200 .w32 0 0 0]) = true := by decide +kernel
theorem test_wf_clk32Bit : refuses Profile.clk32Bit { Profile.p0 with bitClk32 := 14 } = true ∧
    refuses Profile.clk32Bit { Profile.p0 with bitClk32 := 13 } = true ∧
    refuses Profile.clk32Bit { Profile.p0 with clk32Off := 0x004 } = true := by decide +kernel
theorem test_wf_rtcFields : refuses Profile.rtcFields { Profile.p0 with minLo := 5 } = true ∧
    refuses Profile.rtcFields { Profile.p0 with hrLo := 28 } = true := by decide +kernel
theorem test_wf_rtcMasks : refuses Profile.rtcMasks { Profile.p0 with secLo := 8 } = true := by decide +kernel
theorem test_wf_rtcctlEntry : refuses Profile.rtcctlEntry { Profile.p0 with bitRtcen := 6 } = true := by decide +kernel
theorem test_wf_sdctrlEntry : refuses Profile.sdctrlEntry (withDesc [entry 0xC04 .w16 0xFFFF 0 0]) = true := by
  decide +kernel
theorem test_wf_namedDisjoint : refuses Profile.namedDisjoint { Profile.p0 with offRtcctl := 0xB02 } = true := by
  decide +kernel
theorem test_wf_resetDisjoint : refuses Profile.resetDisjoint
    { Profile.p0 with resetTable := Profile.p0ResetTable ++ [{ off := 0x201, width := .w8, value := 0 }] } = true := by
  decide +kernel
theorem test_wf_resetSparesCalendar : refuses Profile.resetSparesCalendar
    { Profile.p0 with resetTable := Profile.p0ResetTable ++ [{ off := 0xB1B, width := .w8, value := 0 }] } = true := by
  decide +kernel
theorem test_wf_resetInWindow : refuses Profile.resetInWindow
    { Profile.p0 with resetTable := Profile.p0ResetTable ++ [{ off := 0x301, width := .w16, value := 0 }] } = true := by
  decide +kernel
theorem test_wf_resetNormative : refuses Profile.resetNormative { Profile.p0 with chipId := 1 } = true := by
  decide +kernel
theorem test_wf_dmaCounts : refuses Profile.dmaCounts
    { Profile.p0 with dmaLayout := { Profile.p0DmaLayout with dcsr := [0] } } = true := by decide +kernel
theorem test_wf_dmaInWindow : refuses Profile.dmaInWindow { Profile.p0 with dmaSize := 0x2FC } = true := by
  decide +kernel
theorem test_wf_dmaInjective : refuses Profile.dmaInjective
    { Profile.p0 with dmaLayout := { Profile.p0DmaLayout with dcsr := List.replicate 16 0 } } = true := by decide +kernel
theorem test_wf_dmaMapMask : refuses Profile.dmaMapMask
    { Profile.p0 with dmaMask := { Profile.p0.dmaMask with drcmr := 0xFFF } } = true := by decide +kernel
theorem test_wf_restoreImage : Instr.wf Profile.p0 (.restore { size := 0xFFF, cells := [] }) = false ∧
    Instr.wf Profile.p0 (.restore { size := 0x1000, cells := [] }) = true := by decide

/-! ### Decoding: words written out from 30_encoding.md R90 to R95 -/

theorem test_decode_rd8 : decode (word 0x000000020000000000) = .ok (.rd8 0x200) := by decide -- A2
theorem test_decode_rd16 : decode (word 0x010000000600000000) = .ok (.rd16 0x006) := by decide -- A5
theorem test_decode_rd32 : decode (word 0x020000000400000000) = .ok (.rd32 0x004) := by decide -- A4
theorem test_decode_wr8 : decode (word 0x1000000005000000FF) = .ok (.wr8 0x005 0xFF) := by decide -- A7
theorem test_decode_wr16 : decode (word 0x1100000100ABCD1234) = .ok (.wr16 0x100 0xABCD1234) := by decide -- A11
theorem test_decode_wr32 : decode (word 0x120000000412345678) = .ok (.wr32 0x004 0x12345678) := by decide -- A8
theorem test_decode_drd32 : decode (word 0x0A0000010C00000000) = .ok (.drd32 0x10C) := by decide -- M1
theorem test_decode_dwr32 : decode (word 0x1A0000020C80001234) = .ok (.dwr32 0x20C 0x80001234) := by decide -- M4
theorem test_decode_tick : decode (word 0x20123456789ABCDEF0) = .ok .tick := by decide -- F20
theorem test_decode_clk32 : decode (word 0x300000000000000000) = .ok .clk32 := by decide -- T16
theorem test_decode_setrtc : decode (word 0x4000000001FF020304) = .ok (.setrtc 1 2 3 4) := by decide -- T15
theorem test_decode_reset : decode (word 0x500000000000000000) = .ok .reset := by decide -- P1 step 1
theorem test_decode_qpwr : decode (word 0x600000000000000000) = .ok .qpwr := by decide -- P1 step 10
theorem test_decode_qfreq : decode (word 0x700000000000000000) = .ok .qfreq := by decide -- R93
theorem test_decode_restore :
    decode { word := 0x800000000000000000, image := { size := 3, cells := [(1, 7)] } } =
      .ok (.restore { size := 3, cells := [(1, 7)] }) := by decide -- R90, R93

theorem test_decode_illegal : -- F1 to F6
    decode (word 0x900000000000000000) = .error (.illegalCommand 0x90) ∧
    decode (word 0xF20000020000000000) = .error (.illegalCommand 0xF2) ∧
    decode (word 0x040000020000000000) = .error (.illegalCommand 0x04) ∧
    decode (word 0x210000000000000000) = .error (.illegalCommand 0x21) ∧
    decode (word 0x280000000000000000) = .error (.illegalCommand 0x28) ∧
    decode (word 0x970000020100000000) = .error (.illegalCommand 0x97) := by decide

theorem test_decode_badWidth : -- F7, F8, F9, F11
    decode (word 0x030000020000000000) = .error (.badWidth 0x03 0x200) ∧
    decode (word 0x130000020100000000) = .error (.badWidth 0x13 0x201) ∧
    decode (word 0x090000000000000000) = .error (.badWidth 0x09 0) ∧
    decode (word 0x080000000100000000) = .error (.badWidth 0x08 1) := by decide

/-- The numbering of spec/opcode_table.json: byte 0 is CMD, then A and D, most significant byte first. -/
theorem test_table_words :
    decodeTableWord 72 0x341200000002000011 = some (.wr16 0x200 0x1234) ∧
    decodeTableWord 8 0x0A = some (.drd32 0) ∧ decodeTableWord 8 0x99 = none ∧
    decodeTableWord 8 0x80 = some (.restore { size := 0x1000, cells := [] }) := by decide +kernel

/-! ### One step -/

/-- Every row of the table runs as the first transaction after reset; its image for RESTORE is zeros. -/
theorem test_first_step_of_every_row :
    ([0x00, 0x01, 0x02, 0x10, 0x11, 0x12, 0x0A, 0x1A, 0x20, 0x30, 0x40, 0x50, 0x60, 0x70, 0x80].all (fun c =>
      match step (State.reset.withFetchWord 8 c) with
      | .next t => t.input == [] && t.responses.length == 1
      | .fault _ => false
      | .refused _ => false)) = true := by decide +kernel

theorem test_step_stops :
    refusalOf (step State.reset) = some .endOfRun ∧
    refusalOf (step { State.reset with profile := { Profile.p0 with bitProt := 11 }, input := [word 0] }) =
      some .illFormedProfile := by decide +kernel

theorem test_rd8_undocumented : see out (.rd8 0x200) State.reset =
    some (answer 0x24, [.diag .periph 0x200 0x24 .w8 .read]) := by decide +kernel -- A2
theorem test_rd8_fixed : see out (.rd8 0x004) State.reset = some (answer 0x56, []) := by decide +kernel -- A6
theorem test_rd16_documented : see out (.rd16 0x200) State.reset = some (answer 0x24B3, []) := by decide +kernel -- A1
theorem test_rd32_undocumented : see out (.rd32 0x200) State.reset =
    some (answer 0x24B30347, [.diag .periph 0x200 0x24B30347 .w32 .read]) := by decide +kernel -- A3
theorem test_rd32_last : see out (.rd32 0xFFC) State.reset =
    some (answer 0, [.diag .periph 0xFFC 0 .w32 .read]) := by decide +kernel -- A13

theorem test_wr8_fixed : see (fun t => (t.rf, t.events)) (.wr8 0x005 0xFF) State.reset =
    some (State.reset.rf, []) := by decide +kernel -- A7
/-- K7: a raw write of the low byte of PLLCR powers down without a signal and leaves the clock state stale. -/
theorem test_wr8_raw_pll :
    see (fun t => (t.pllcr, t.isPowered, t.freqHz, t.events)) (.wr8 0x201 0xBB) State.reset =
      some (0x24BB, false, 33161216, [.diag .periph 0x201 0xBB .w8 .write]) := by decide +kernel
theorem test_wr16_pllfsr : see (fun t => (t.pllfsr, t.prot, t.freqHz, t.refCyc, t.events)) (.wr16 0x202 0xF0FF)
    State.reset = some (0x40FF, true, 117473280, 3585, []) := by decide +kernel -- K2
theorem test_wr16_pllcr : see (fun t => (t.pllcr, t.freqHz, t.refCyc, t.isPowered, t.events)) (.wr16 0x200 0xFFFF)
    State.reset = some (0x3FBB, 33161216, 1012, false, [.endTimeslice]) := by decide +kernel -- K5
theorem test_wr32_rtctime : see (fun t => (t.rtctime, t.events)) (.wr32 0xB00 0xFFFFFFFF) State.reset =
    some (0x1F3F003F, []) := by decide +kernel -- R145
/-- K10: a raw WR32 over both PLL registers. -/
theorem test_wr32_raw_pll : see (fun t => (t.pllcr, t.pllfsr, t.refCyc, t.events)) (.wr32 0x200 0x24330010) State.reset =
    some (0x2433, 0x0010, 1012, [.diag .periph 0x200 0x24330010 .w32 .write]) := by decide +kernel

theorem test_tick_wraps : -- T1
    see (fun t => (t.rtctime, t.dayr)) .tick (st Profile.p0 [(0xB0C, .w16, 0x80), (0xB00, .w32, 0x173B003B),
      (0xB1A, .w16, 0x1FF)]) = some (0, 0) := by decide +kernel
theorem test_tick_normalises : -- T10, with raw non-field bits as in T7
    see (fun t => (t.rtctime, t.dayr)) .tick (st Profile.p0 [(0xB0C, .w16, 0x80), (0xB00, .w32, 0x003FFF0A)]) =
      some (0x0100000B, 0) := by decide +kernel
theorem test_clk32_toggles : -- T16; T18: not gated by PROT
    see (fun t => (t.pllfsr, t.freqHz)) .clk32 State.reset = some (0x8347, 33161216) ∧
    see (fun t => t.pllfsr) .clk32 (st Profile.p0 [(0x202, .w16, 0xC347)]) = some 0x4347 := by decide +kernel
theorem test_setrtc_masks : -- T12
    see (fun t => (t.rtctime, t.dayr)) (.setrtc 600 25 61 70) State.reset = some (0x193D0006, 0x0058) := by
  decide +kernel
theorem test_reset_keeps_calendar : -- Z1, Z4
    see (fun t => (t.rf, t.refCyc, t.events)) .reset
      (st Profile.p0 [(0x300, .w16, 0xFFFF), (0x202, .w16, 0x4FFF), (0xB00, .w32, 0x0000FFFF)]) =
      some ([(0x004, 0x56), (0x200, 0x24), (0x201, 0xB3), (0x202, 0x03), (0x203, 0x47), (0xB02, 0xFF), (0xB03, 0xFF)],
        1012, []) := by decide +kernel
theorem test_reset_dma : -- M10
    see (fun t => t.dw) .reset { State.reset with dw := [(191, 5)] } = some [] := by decide +kernel
theorem test_qpwr : see out .qpwr State.reset = some (answer 1, []) ∧ -- K12
    see out .qpwr (st Profile.p0 [(0x200, .w16, 0x24BB)]) = some (answer 0, []) := by decide +kernel
theorem test_qfreq : see out .qfreq State.reset =
    some ([{ q0 := 33161216, q1 := some 1012 }], []) := by decide +kernel -- R168
theorem test_restore : -- Z7: no EndTimeslice from RESTORE, and the clock state is recomputed
    see (fun t => (t.rf, t.isPowered, t.refCyc, t.events))
      (.restore { size := 0x1000, cells := [(0x201, 0x08), (0x203, 0x10), (0x1000, 1)] }) State.reset =
      some ([(0x201, 0x08), (0x203, 0x10)], false, 478, []) := by decide +kernel
theorem test_restore_badImage : -- Z8
    faultOf (exec (.restore { size := 0xFFF, cells := [] }) State.reset) = some (.badImage 0xFFF) := by decide +kernel
theorem test_drd32_raw : -- M8, M9
    see out (.drd32 0x040) { State.reset with dw := [(16, 0xDEADBEEF)] } =
      some (answer 0xDEADBEEF, [.diag .dma 0x40 0xDEADBEEF .w32 .read]) := by decide +kernel
theorem test_drd32_register : see out (.drd32 0x214) { State.reset with dw := [(133, 7)] } = some (answer 7, []) := by
  decide +kernel -- M11
theorem test_dwr32_command : see (fun t => (t.dw, t.events)) (.dwr32 0x2FC 1) State.reset =
    some ([(191, 1)], [.dmaCmd 15 1]) := by decide +kernel -- M5
theorem test_dwr32_map : see (fun t => (t.dw, t.events)) (.dwr32 0x19C 0x12345678) State.reset =
    some ([(103, 0x78)], []) := by decide +kernel -- M3

/-- W1 and R196 (d), one second before each carry. -/
theorem test_rtc_alt_layout :
    see (fun t => t.calendar) .tick (st alt [(0x0D6, .w8, 1), (0x0D0, .w32, 0x0001DF77)]) =
      some { sec := 0, min := 0, hr := 0, day := 1 } := by decide +kernel

/-! ### Faults in order (F10 to F19, and the last offsets in each window) -/

/-- The step of a word at a state. -/
def stepOf (s : State) (w : TransactionWord) : Outcome := step (s.present (word w))

/-- The step completes. -/
def completes (o : Outcome) : Bool :=
  match o with
  | .next _ => true
  | .fault _ => false
  | .refused _ => false

theorem next_of_completes {o : Outcome} (h : completes o = true) : ∃ t, o = .next t := by
  cases o with
  | next t => exact ⟨t, rfl⟩
  | fault f => cases h
  | refused r => cases h

/-- The state after reset without a DMA window. -/
def bare : State := { State.reset with profile := noDma }

theorem test_faults_noWindow :
    faultOf (stepOf bare 0x0A0000000000000000) = some (.noWindow 0x0A 0) ∧
    faultOf (stepOf bare 0x080000000100000000) = some (.badWidth 0x08 1) ∧
    faultOf (stepOf bare 0x1A0000000300000000) = some (.noWindow 0x1A 3) := by decide +kernel
theorem test_faults_misaligned :
    faultOf (stepOf State.reset 0x010000020100000000) = some (.misaligned 0x01 0x201) ∧
    faultOf (stepOf State.reset 0x020000020200000000) = some (.misaligned 0x02 0x202) ∧
    faultOf (stepOf State.reset 0x120000100200000000) = some (.misaligned 0x12 0x1002) ∧
    faultOf (stepOf State.reset 0x0100000FFF00000000) = some (.misaligned 0x01 0xFFF) ∧
    faultOf (stepOf State.reset 0x1A0000030200000000) = some (.misaligned 0x1A 0x302) := by decide +kernel
theorem test_faults_outOfWindow :
    faultOf (stepOf State.reset 0x000000100000000000) = some (.outOfWindow 0x00 0x1000) ∧
    faultOf (stepOf State.reset 0x02FFFFF00400000000) = some (.outOfWindow 0x02 0xFFFFF004) ∧
    faultOf (stepOf State.reset 0x1A0000030000000000) = some (.outOfWindow 0x1A 0x300) := by decide +kernel
theorem test_last_offsets :
    completes (stepOf State.reset 0x0000000FFF00000000) = true ∧
    completes (stepOf State.reset 0x1100000FFE00000000) = true ∧
    completes (stepOf State.reset 0x0200000FFC00000000) = true ∧
    completes (stepOf State.reset 0x0A000002FC00000000) = true ∧
    completes (stepOf bare 0x200000000000000000) = true := by decide +kernel

/-! ### Syntax, pseudo-instructions, routing (30_encoding.md R104, R105; 20_memory.md R62) -/

/-- One line under P0, with one named image. -/
def line (s : String) : Option (List Instr) :=
  assembleLine Profile.p0 [("S0".toList, { size := 0x1000, cells := [] })] s.toList

theorem test_asm_accesses :
    line "RD8 0x200 ; c" = some [.rd8 0x200] ∧ line "WR16 PLLFSR, 0x4347" = some [.wr16 0x202 0x4347] ∧
    line "WR32\t0xB00 , 16" = some [.wr32 0xB00 16] ∧ line "DWR32 DRCMR[2], 0x80000003" = some [.dwr32 0x108 0x80000003] ∧
    line "DRD32 DCMD[15]" = some [.drd32 0x2FC] ∧ line "RD16 DCMD[16]" = none ∧ line "RD8" = none := by decide +kernel
theorem test_asm_host :
    line "SETRTC 511, 23, 59, 58" = some [.setrtc 511 23 59 58] ∧ line "TICK" = some [.tick] ∧ line "; nothing" = some [] ∧
    line "RESTORE S0" = some [.restore { size := 0x1000, cells := [] }] ∧ line "RESTORE S1" = none ∧
    line "TICKN 3" = some [.tick, .tick, .tick] ∧ line "NOP" = some [.qpwr] ∧
    line "SETPLL 0x2433, 0x0010" = some [.wr16 0x202 0x10, .wr16 0x200 0x2433] := by decide +kernel
theorem test_route :
    route Profile.p0 0xFFFFF202 = some (.periph, 0x202) ∧ route Profile.p0 0x4000020C = some (.dma, 0x20C) ∧
    route Profile.p0 0x40000300 = none ∧ route noDma 0x4000020C = none := by decide +kernel

/-! ### Witnesses: for each statement with hypotheses, concrete states and operands that meet them -/

/-- The invariant as a computation. -/
def invB (s : State) : Bool :=
  s.profile.wf && Memory.wf s.rf && Memory.below s.rf s.profile.periphSize && Memory.wf s.dw &&
    Memory.below s.dw (dmaWords s.profile) && 15 ≤ s.refCyc && s.refCyc ≤ 7200 &&
    s.freqHz == s.refCyc * s.profile.crystalHz

theorem inv_of {s : State} (h : invB s = true) : s.Inv := by
  simp only [invB, Bool.and_eq_true, decide_eq_true_eq, beq_iff_eq] at h
  obtain ⟨⟨⟨⟨⟨⟨⟨h1, h2⟩, h3⟩, h4⟩, h5⟩, h6⟩, h7⟩, h8⟩ := h
  exact ⟨h1, h2, h3, h4, h5, h6, h7, h8⟩

/-- PROT and CLK32 set, RTCEN set, 511/23:59:59, DMA words, a TICK to come. -/
def busy : State :=
  { st Profile.p0 [(0x004, .w32, 0x56000000), (0x200, .w16, 0x2433), (0x202, .w16, 0xC010), (0x300, .w8, 0x5A),
      (0xB00, .w32, 0x173B003B), (0xB0C, .w16, 0x80), (0xB1A, .w16, 0x1FF)] with
    dw := [(66, 3), (135, 0x8000C100)], events := [.endTimeslice], responses := answer 0
    input := [word 0x200000000000000000] }

/-- PROT clear, RTCEN clear, the calendar out of range. -/
def wild : State := st gpio [(0x200, .w16, 0x24BB), (0x202, .w16, 0x8347), (0xB00, .w32, 0x1F3FFF3F), (0x400, .w32, 0x12345678)]

/-- RTCEN set, the calendar at 0:0:0:0. -/
def midnight : State := st Profile.p0 [(0x200, .w16, 0x24B3), (0xB0C, .w16, 0xA0)]

theorem busy_inv : busy.Inv := inv_of (by decide +kernel)
theorem wild_inv : wild.Inv := inv_of (by decide +kernel)
theorem midnight_inv : midnight.Inv := inv_of (by decide +kernel)
theorem bare_inv : bare.Inv := inv_of (by decide +kernel)

/-- The transaction completes at the state. -/
def runs (s : State) (i : Instr) : Bool := completes (exec i s)

theorem next_of_runs {s : State} {i : Instr} (h : runs s i = true) : ∃ t, exec i s = .next t := next_of_completes h

theorem witness_StepRunsTheDecodedTransaction : -- its three clauses
    busy.profile.wf = true ∧ busy.input = word 0x200000000000000000 :: [] ∧
      decode (word 0x200000000000000000) = .ok .tick ∧
      decode (word 0x88FFFFFFFFFFFFFFFF) = .error (.illegalCommand 0x88) ∧
      decode (word 0x0BFFFFFFFF00000000) = .error (.badWidth 0x0B 0xFFFFFFFF) := by decide +kernel
theorem witness_StepRefusesIllFormedProfileAndEndedRun :
    Profile.wf { Profile.p0 with bitProt := 16 } = false ∧ wild.profile.wf = true ∧ wild.input = [] := by decide +kernel
/-- One word for each clause of the order; the steps themselves are in the test_faults theorems. -/
theorem witness_FaultsComeInTheSpecsOrder :
    busy.profile.wf = true ∧ bare.profile.wf = true ∧
      cmdOp 0x90 = 9 ∧ cmdRsv 0x04 = true ∧ cmdOp 0x28 = 2 ∧ cmdWin 0x28 = true ∧ cmdSz 0x21 = 1 ∧
      cmdSz 0x13 = 3 ∧ cmdWin 0x09 = true ∧ cmdSz 0x09 = 1 ∧ cmdWin 0x1A = true ∧ bare.profile.hasDma = false ∧
      0x201 % 2 ≠ 0 ∧ Profile.p0.periphSize < 0x1000 + 1 ∧ ¬(Profile.p0.periphSize < 0xFFF + 1) := by decide +kernel
theorem witness_memories : -- RegisterFileIsBigEndian, MixedWidthsSeeTheSameBytes, CanonicalMemoriesAreDeterminedByTheirReads
    Memory.wf busy.rf = true ∧ Memory.wf busy.dw = true ∧ 0 < Width.w32.bytes ∧ 3 < Width.w32.bytes ∧
      ¬(0x200 ≤ 0x204 ∧ 0x204 < 0x200 + Width.w32.bytes) ∧ ¬(0x200 ≤ 0x1FF ∧ 0x1FF < 0x200 + Width.w32.bytes) ∧
      0x202 % 2 = 0 ∧ 0xFFC % 4 = 0 := by decide +kernel
theorem witness_accesses : -- ReadsReturnTheStoredBytes, UndocumentedWritesAreRaw: first and last offsets, both cases
    inContract busy.profile .w8 0xFFF ∧ ¬documented busy.profile .w8 0xFFF ∧
      inContract busy.profile .w32 0xFFC ∧ ¬documented busy.profile .w32 0xFFC ∧
      inContract busy.profile .w16 0 ∧ ¬documented busy.profile .w16 0 ∧
      inContract busy.profile .w8 0x007 ∧ documented busy.profile .w8 0x007 ∧
      inContract busy.profile .w16 0xB1A ∧ documented busy.profile .w16 0xB1A ∧
      inContract busy.profile .w32 0xB00 ∧ documented busy.profile .w32 0xB00 := by decide +kernel
theorem witness_ReadsAndQueriesChangeNoStorage :
    runs busy (Instr.read .w8 0x007) = true ∧ runs busy (Instr.read .w32 0x200) = true ∧
      runs busy (.drd32 0x108) = true ∧ (ddesc busy.profile 0x108).isSome = true ∧
      runs busy (.drd32 0x1A0) = true ∧ ddesc busy.profile 0x1A0 = none ∧ runs busy .qpwr = true ∧
      runs busy .qfreq = true := by decide +kernel
/-- An entry of the class stands at an access in the contract. -/
def hasClass (s : State) (w : Width) (a : Word) (c : BitVec 3) : Bool :=
  decide (inContract s.profile w a) && (s.profile.lookup a.toNat w).any (fun e => e.cls == c)
theorem witness_DocumentedWritesFollowTheMux : -- every class; CLOCK in both cases; both stored DISPLL values
    wild.profile.wf = true ∧ busy.profile.wf = true ∧ hasClass wild .w8 0x400 0 = true ∧ hasClass wild .w32 0x400 0 = true ∧
      hasClass wild .w32 0xB00 3 = true ∧ hasClass wild .w16 0x006 4 = true ∧ hasClass busy .w16 0x202 1 = true ∧
      busy.prot = true ∧ hasClass wild .w16 0x202 1 = true ∧ wild.prot = false ∧ hasClass wild .w16 0x200 2 = true ∧
      see (fun t => t.dispLl) (.wr16 0x200 0x0008) wild = some true ∧
      see (fun t => t.dispLl) (.wr16 0x200 0xFFF7) wild = some false := by decide +kernel
theorem witness_writes : -- OnlyUndocumentedAccessesEmitDiag, HighDataBitsAreIgnored, WriteFrame
    (∃ t, exec (Instr.write .w8 0x300 0x1FF) busy = .next t) ∧ ¬documented busy.profile .w8 0x300 ∧
      (∃ t, exec (Instr.write .w32 0xB00 0) busy = .next t) ∧ documented busy.profile .w32 0xB00 ∧ busy.Inv ∧
      (0x1FF : Word).toNat % 2 ^ Width.w8.bits = (0xFF : Word).toNat % 2 ^ Width.w8.bits ∧
      ¬covers .w32 0xB00 0xB04 ∧ (∃ t, exec (.drd32 0x1FC) busy = .next t) ∧ ddesc busy.profile 0x1FC = none ∧
      (∃ t, exec (.dwr32 0x1FC 7) busy = .next t) ∧ (∃ t, exec (.dwr32 0x2FC 7) busy = .next t) ∧ (∀ e, busy.profile.lookup 0x300 .w8 = some e → e.cls ≠ 1 ∧ e.cls ≠ 2) :=
  ⟨next_of_runs (by decide +kernel), by decide +kernel, next_of_runs (by decide +kernel), by decide +kernel, busy_inv,
    by decide, by decide, next_of_runs (by decide +kernel), by decide +kernel, next_of_runs (by decide +kernel),
    next_of_runs (by decide +kernel), by decide +kernel⟩
theorem witness_AllOnesReadback : busy.Inv ∧ wild.Inv ∧ hasClass wild .w8 0x400 0 = true ∧ hasClass busy .w16 0x200 2 = true ∧
    hasClass wild .w16 0x202 1 = true ∧ wild.prot = false ∧ hasClass busy .w16 0xB1A 3 = true ∧
    hasClass busy .w8 0x007 4 = true ∧ hasClass busy .w16 0x202 1 = true ∧ busy.prot = true :=
  ⟨busy_inv, wild_inv, by decide +kernel⟩
theorem witness_WritesKeepTheClk32Bit : wild.Inv ∧ (0x202 : Word).toNat = wild.profile.clk32Off ∧
    ∃ t, exec (.wr16 0x202 0) wild = .next t :=
  ⟨wild_inv, by decide, next_of_runs (by decide +kernel)⟩
theorem witness_ChipIdChangesOnlyByRestoreAndReset : wild.Inv ∧ (∃ t, exec .reset wild = .next t) ∧
    ∃ t, exec (.wr32 0x004 0) wild = .next t :=
  ⟨wild_inv, next_of_runs (by decide +kernel), next_of_runs (by decide +kernel)⟩
theorem witness_FrequencyFormula : -- both prescalers; registers that differ outside PRESC, p and q
    (0x24B3 : Half).toNat / 2 ^ 7 % 2 = 1 ∧ (0x2433 : Half).toNat / 2 ^ 7 % 2 = 0 ∧
      (0xDB4C : Half).getLsbD 7 = (0x2433 : Half).getLsbD 7 ∧
      (0xF347 : Half).toNat % 2 ^ 12 = (0x0347 : Half).toNat % 2 ^ 12 := by decide
theorem witness_ClockStateIsRecomputedOnItsFourOccasions :
    wild.profile.wf = true ∧ wild.prot = false ∧ runs wild (.wr16 0x202 0x10) = true ∧ runs wild (.wr16 0x200 0) = true ∧
      runs wild .reset = true ∧ runs wild (.restore { size := 0x1000, cells := [] }) = true ∧
      busy.prot = true ∧ runs busy (.wr16 0x202 0x10) = true ∧ runs busy (.wr8 0x201 0) = true := by decide +kernel
theorem witness_pllWrites : -- PllfsrWrite, PllcrWrite: both cases of each; PLLFSR holds the CLK32 bit
    busy.Inv ∧ wild.Inv ∧ (0x202 : Word).toNat = busy.profile.offPllfsr ∧ busy.prot = true ∧ wild.prot = false ∧
      (0x200 : Word).toNat = busy.profile.offPllcr ∧ (0x8 : Word).getLsbD busy.profile.bitDispll = true ∧
      (0xFFF7 : Word).getLsbD busy.profile.bitDispll = false ∧ wild.profile.clk32Off = wild.profile.offPllfsr :=
  ⟨busy_inv, wild_inv, by decide +kernel⟩
theorem witness_ProtIsSticky : -- cleared by RESET and by a raw byte write; p changed by a raw write of the low byte
    busy.Inv ∧ busy.prot = true ∧ see (fun t => t.prot) .reset busy = some false ∧
      see (fun t => t.prot) (.wr8 0x202 0x80) busy = some false ∧
      see (fun t => (t.prot, t.pllfsr)) (.wr8 0x203 0xFF) busy = some (true, 0xC0FF) :=
  ⟨busy_inv, by decide +kernel⟩
theorem witness_OnlyPllcrWritesEndTheTimeslice : busy.profile.wf = true ∧
    see (fun t => t.events) (.wr16 0x200 0xFFFF) busy = some [.endTimeslice, .endTimeslice] := by decide +kernel
theorem witness_QfreqSamplesTheClockState : busy.freqHz < 2 ^ 32 ∧ busy.refCyc < 2 ^ 32 := by decide +kernel
theorem witness_ticks : -- TickAdvancesTheCalendar in both cases, TickNormalisesEveryField at the ends of its ranges
    busy.Inv ∧ busy.rtcEnabled = true ∧ wild.Inv ∧ wild.rtcEnabled = false ∧ (∃ t, exec .tick busy = .next t) ∧
      busy.calendar = { sec := 59, min := 59, hr := 23, day := 511 } ∧
      (st Profile.p0 [(0xB0C, .w16, 0x80), (0xB00, .w32, 0x183C003B), (0x200, .w16, 0x24B3)]).calendar =
        { sec := 59, min := 60, hr := 24, day := 0 } ∧
      wild.calendar = { sec := 63, min := 63, hr := 31, day := 0 } :=
  ⟨busy_inv, by decide +kernel, wild_inv, by decide +kernel, next_of_runs (by decide +kernel), by decide +kernel⟩
theorem witness_TicksFromZeroCountTheCalendar : midnight.Inv ∧ midnight.rtcEnabled = true ∧
    midnight.calendar = { sec := 0, min := 0, hr := 0, day := 0 } := ⟨midnight_inv, by decide +kernel⟩
theorem witness_SetrtcSetsTheCalendar : wild.Inv := wild_inv
theorem witness_Clk32FlipsOneBit : busy.Inv ∧ busy.clk32Status = true ∧ midnight.Inv ∧ midnight.clk32Status = false :=
  ⟨busy_inv, by decide +kernel, midnight_inv, by decide +kernel⟩
theorem witness_dma : -- DmaReadReturnsTheStoredWord, DmaWriteStoresTheMaskedWord: every kind, first and last, and raw
    busy.Inv ∧ dmaInContract busy.profile 0 ∧ ddesc busy.profile 0 = some ⟨.dcsr, 0⟩ ∧
      dmaInContract busy.profile 0x2FC ∧ ddesc busy.profile 0x2FC = some ⟨.dcmd, 15⟩ ∧
      dmaInContract busy.profile 0x19C ∧ ddesc busy.profile 0x19C = some ⟨.drcmr, 39⟩ ∧
      ddesc busy.profile 0x200 = some ⟨.ddadr, 0⟩ ∧ ddesc busy.profile 0x204 = some ⟨.dsadr, 0⟩ ∧
      ddesc busy.profile 0x208 = some ⟨.dtadr, 0⟩ ∧ dmaInContract busy.profile 0x1FC ∧
      ddesc busy.profile 0x1FC = none ∧ busy.profile.dmaReset.drcmr.toNat < 2 ^ 8 ∧ bare.profile.hasDma = false ∧
      (0x102 : Word).toNat % 4 ≠ 0 ∧ (0x300 : Word).toNat % 4 = 0 ∧
      busy.profile.dmaSize < (0x300 : Word).toNat + 4 ∧ ¬ busy.profile.dmaSize < (0x2FC : Word).toNat + 4 :=
  ⟨busy_inv, by decide +kernel⟩
theorem witness_WindowsDoNotAlias : (∃ t, exec (.dwr32 0x200 7) busy = .next t) ∧ (∃ t, exec (.drd32 0x200) busy = .next t) ∧
    ∃ t, exec (.wr32 0x200 7) busy = .next t :=
  ⟨next_of_runs (by decide +kernel), next_of_runs (by decide +kernel), next_of_runs (by decide +kernel)⟩
theorem witness_DmaLayoutIsInjective : Profile.p0.wf = true ∧ Profile.p0.hasDma = true ∧ 39 < DmaKind.drcmr.count ∧
    15 < DmaKind.dcmd.count ∧ ddesc Profile.p0 0x20C = some ⟨.dcmd, 0⟩ ∧ dmaOffset Profile.p0 ⟨.dcmd, 0⟩ = some 0x20C := by
  decide +kernel
theorem witness_ChannelMapEntriesStayBytes : busy.Inv ∧ busy.profile.hasDma = true ∧
    busy.profile.dmaReset.drcmr.toNat < 2 ^ 8 ∧
    (∀ m v, busy.dmaReg { kind := .drcmr, index := m } = some v → v.toNat < 2 ^ 8) ∧ ∃ t, step busy = .next t := by
  refine ⟨busy_inv, by decide +kernel, by decide +kernel, ?_, next_of_completes (by decide +kernel)⟩
  have hall : ∀ m, m < 40 → (busy.dmaReg { kind := .drcmr, index := m }).all (fun v => decide (v.toNat < 2 ^ 8)) = true := by
    decide +kernel
  intro m v hv
  by_cases hm : m < 40
  · have := hall m hm
    rw [hv] at this
    simpa using this
  · have hl : busy.profile.dmaLayout.drcmr.length = 40 := by decide +kernel
    have : busy.profile.dmaLayout.drcmr[m]? = none := List.getElem?_eq_none (by omega)
    simp [State.dmaReg, dmaOffset, DmaLayout.offsets, this] at hv
theorem witness_resets : -- the RESET statements: with and without a DMA window, and in every case of a byte
    busy.Inv ∧ busy.profile.hasDma = true ∧ (∃ t, exec .reset busy = .next t) ∧ bare.Inv ∧ bare.profile.hasDma = false ∧
      midnight.Inv ∧ midnight.profile = Profile.p0 ∧
      isCalendar busy.profile 0xB00 = true ∧ isCalendar busy.profile 0xB03 = true ∧ isCalendar busy.profile 0xB1B = true ∧
      isCalendar busy.profile 0xB04 = false ∧ isCalendar busy.profile 0xAFF = false ∧
      (∀ e ∈ busy.profile.resetTable, ¬(e.off ≤ 0x204 ∧ 0x204 < e.off + e.width.bytes)) :=
  ⟨busy_inv, by decide +kernel, next_of_runs (by decide +kernel), bare_inv, by decide +kernel, midnight_inv,
    by decide +kernel⟩
theorem witness_ResetIsIdempotentAndDeterministic : -- two states that differ outside the calendar
    busy.Inv ∧ (∃ t u, exec .reset busy = .next t ∧ exec .reset t = .next u) ∧
      (busy.withRf (zeroFill Profile.p0 busy.rf)).Inv ∧
      (∃ t, exec .reset (busy.withRf (zeroFill Profile.p0 busy.rf)) = .next t) ∧
      (∀ i, isCalendar Profile.p0 i = true →
        Memory.read busy.rf i = Memory.read (zeroFill Profile.p0 busy.rf) i) ∧
      zeroFill Profile.p0 busy.rf ≠ busy.rf :=
  ⟨busy_inv, ⟨_, _, rfl, rfl⟩, inv_of (by decide +kernel), ⟨_, rfl⟩,
    fun i hi => by rw [read_zeroFill, if_pos hi], by decide +kernel⟩
theorem witness_restores : -- RestoreLoadsTheImage in both cases, RestoredSnapshotIsTheState
    (4095 ≠ busy.profile.periphSize) ∧ (4096 = busy.profile.periphSize) ∧ busy.Inv ∧
      (∃ t, exec .reset busy = .next t) ∧ midnight.profile = busy.profile ∧
      (∃ t, exec (.restore (resetAll busy).snapshot) midnight = .next t) :=
  ⟨by decide +kernel, by decide +kernel, busy_inv, next_of_runs (by decide +kernel), rfl, next_of_runs (by decide +kernel)⟩
/-- 44_host.md R254, 60_exceptions.md R270: the word of F1 faults in the decoder; the write before it stands, the one
after it is not applied. The word before it is WR8 0x300, 0x5A. -/
theorem test_run_stops_at_the_fault :
    midnight.observeRun [word 0x10000003000000005A, word 0x900000000000000000, word 0x100000030000000001] =
      { midnight.run.observe with
        rf := memWrite midnight.rf 0x300 .w8 0x5A
        responses := midnight.responses ++ answer 0
        events := midnight.events ++ [.diag .periph 0x300 0x5A .w8 .write]
        ending := .faulted (.illegalCommand 0x90) } := by decide +kernel

/-- R254: a run that completes ends so, and QPWR's answer stands in its observation. -/
theorem test_run_completes : midnight.observeRun [word 0x600000000000000000] =
    { midnight.run.observe with responses := midnight.responses ++ answer 1 } := by decide +kernel

theorem witness_observations : -- RunsAreObservedToTheirEnd: a completing, a faulting and a refused run before the rest
    completes (step (busy.withInput [word 0x200000000000000000])) = true ∧
      faultOf (step (busy.withInput [word 0x130000020100000000])) = some (.badWidth 0x13 0x201) ∧
      (busy.observeRun [word 0x200000000000000000]).ending = .completed ∧
      (busy.observeRun [word 0x000000100000000000]).ending = .faulted (.outOfWindow 0x00 0x1000) ∧
      (State.observeRun { busy with profile := withDesc [entry 0x300 .w8 0 0 7] } [word 0x200000000000000000]).ending =
        .refused .illFormedProfile := by decide +kernel
theorem witness_RunsOfEncodingsAreTheirExecutions : busy.profile.wf = true ∧ completes (execAll [.tick, .qpwr] busy) = true ∧
    faultOf (execAll [.tick, .rd8 0x1000] busy) = some (.outOfWindow 0x00 0x1000) := by decide +kernel
theorem witness_RunsAfterResetAreReproducible : -- two states that differ outside the calendar
    busy.Inv ∧ (busy.withRf (zeroFill Profile.p0 busy.rf)).Inv ∧ zeroFill Profile.p0 busy.rf ≠ busy.rf ∧
      busy.profile = Profile.p0 ∧ (∀ i, isCalendar Profile.p0 i = true →
        Memory.read busy.rf i = Memory.read (zeroFill Profile.p0 busy.rf) i) :=
  ⟨busy_inv, inv_of (by decide +kernel), by decide +kernel, by decide +kernel,
    fun i hi => by rw [read_zeroFill, if_pos hi]⟩
theorem witness_runs : -- RunsGoInOrderAndStopAtTheFirstFault: a run that completes, one that faults, one that is refused
    completes (execAll [.tick, .qpwr] busy) = true ∧
      faultOf (execAll [.tick, .rd8 0x1000] busy) = some (.outOfWindow 0x00 0x1000) ∧
      refusalOf (execAll [.wr8 0x300 0] { busy with profile := withDesc [entry 0x300 .w8 0 0 7] }) =
        some .illFormedProfile := by decide +kernel
theorem witness_OutputsAreAppendOnly : (∃ t, exec .qfreq busy = .next t) ∧ (∃ t, exec .qpwr busy = .next t) ∧
    ∃ t, exec .clk32 busy = .next t :=
  ⟨next_of_runs (by decide +kernel), next_of_runs (by decide +kernel), next_of_runs (by decide +kernel)⟩
theorem witness_StepKeepsTheInvariant : busy.Inv ∧ ∃ t, step busy = .next t :=
  ⟨busy_inv, next_of_completes (by decide +kernel)⟩
theorem witness_EveryColdStartMeetsTheInvariant :
    Profile.p0.wf = true ∧ Memory.wf busy.rf = true ∧ Memory.below busy.rf Profile.p0.periphSize = true ∧
      Profile.p0.hasDma = true ∧ noDma.wf = true ∧ noDma.hasDma = false ∧
      Memory.below busy.rf noDma.periphSize = true := by decide +kernel

end Sys2Proof.Tests
end

section
/-! PROOFS. The statements of spec/20_memory.md: the big-endian register file. -/

namespace Sys2Proof.Machine

/-- Inside the range of a `MemWrite`: byte `i` of the big-endian image of the truncated value (20_memory.md R60). -/
theorem toNat_read_memWrite_of_lt {rf : Memory 8} (h : Memory.wf rf = true) (off : Nat) (w : Width) (v : Word) {i : Nat}
    (hi : i < w.bytes) :
    (Memory.read (memWrite rf off w v) (off + i)).toNat =
      v.toNat % 2 ^ w.bits / 2 ^ (8 * (w.bytes - 1 - i)) % 2 ^ 8 := by
  have hin : off ≤ off + i ∧ off + i < off + w.bytes := by omega
  rw [read_memWrite h, if_pos hin, Nat.add_sub_cancel_left, imageByteOf_toNat w v i hi]

/-- The frame of a `MemWrite`: the bytes outside its range. -/
theorem read_memWrite_of_outside {rf : Memory 8} (h : Memory.wf rf = true) {off a : Nat} {w : Width} (v : Word)
    (ha : ¬(off ≤ a ∧ a < off + w.bytes)) : Memory.read (memWrite rf off w v) a = Memory.read rf a := by
  rw [read_memWrite h, if_neg ha]

/-- Settles O8: the reads by their values as numbers, the writes byte by byte, inside the range and outside it. -/
theorem registerFileIsBigEndian : Obligations.RegisterFileIsBigEndian :=
  ⟨memRead_toNat, fun _ off w v h =>
    ⟨fun _ hi => toNat_read_memWrite_of_lt h off w v hi, fun _ ha => read_memWrite_of_outside h v ha⟩⟩

end Sys2Proof.Machine
end

section
/-! PROOFS. The statements of spec/40_access.md: writes of the peripheral window, undocumented and documented. -/

namespace Sys2Proof.Machine

/-- The response of a write (30_encoding.md R97). -/
theorem Response.word_zero : Response.word 0 = { q0 := 0, q1 := none } := rfl

/-- A raw store takes only the low bits of its value (40_access.md R122). -/
theorem State.store_truncTo (s : State) (off : Nat) (w : Width) (d : Word) :
    s.store off w (truncTo w d) = s.withRf (memWrite s.rf off w d) := by
  rw [State.store, memWrite_truncTo]

/-- Settles O13: a write the decoder finds no entry for, with its truncated value as a number modulo 2^w. -/
theorem undocumentedWritesAreRaw : Obligations.UndocumentedWritesAreRaw := by
  intro s w a d hin hdoc
  have hl : s.profile.lookup a.toNat w = none := Option.not_isSome_iff_eq_none.1 hdoc
  rw [exec_write_raw hin hl, State.store_truncTo, truncTo_eq_ofNat, Response.word_zero]

/-! ### The side-effect mux, class by class -/

/-- A documented write in the contract is the mux at its entry's class, applied to the truncated value (40_access.md
R127). -/
theorem exec_write_of_class {s : State} {w : Width} {a : Word} {e : Descriptor} {c : SideEffect}
    (hin : inContract s.profile w a) (hl : s.profile.lookup a.toNat w = some e) (hc : e.cls = c.code) (d : Word) :
    exec (Instr.write w a d) s =
      .next ((sideEffect c e a.toNat w (BitVec.ofNat 32 (d.toNat % 2 ^ w.bits)) s).respond { q0 := 0, q1 := none }) := by
  have hcode : SideEffect.ofCode e.cls = some c := by rw [hc, SideEffect.ofCode_code]
  rw [exec_write_doc hin hl hcode, truncTo_eq_ofNat, Response.word_zero]

section
variable {s : State} {e : Descriptor} {off : Nat} {w : Width} {v : Word}

/-- CLOCK is ignored while PROT is set (41_clock_power.md R163). -/
theorem sideEffect_clock_of_prot (hp : s.prot = true) : sideEffect .clock e off w v s = s := if_pos hp

/-- CLOCK while PROT is clear: the masked store at the access, then the recomputation (R163). -/
theorem sideEffect_clock_of_not_prot (hwf : s.profile.wf = true) (hl : s.profile.lookup off w = some e)
    (hc : e.cls = SideEffect.clock.code) (hp : s.prot = false) :
    sideEffect .clock e off w v s = recompute (s.maskedStore off w v e) := by
  obtain ⟨rfl, rfl⟩ := (Profile.clock_iff hwf hl).1 hc
  exact if_neg (Bool.eq_false_iff.1 hp)

/-- POWER: the masked store at the access and the recomputation, and the signal if the stored DISPLL is set
(41_clock_power.md R164). -/
theorem sideEffect_power (hwf : s.profile.wf = true) (hl : s.profile.lookup off w = some e)
    (hc : e.cls = SideEffect.power.code) :
    sideEffect .power e off w v s =
      if (s.maskedStore off w v e).dispLl then (recompute (s.maskedStore off w v e)).emit .endTimeslice
      else recompute (s.maskedStore off w v e) := by
  obtain ⟨rfl, rfl⟩ := (Profile.power_iff hwf hl).1 hc
  rfl

end

/-- The five class codes are all there are at a well-formed profile (30_encoding.md R101, R102). -/
theorem Profile.lookup_cls {p : Profile} (hwf : p.wf = true) {off : Nat} {w : Width} {e : Descriptor}
    (hl : p.lookup off w = some e) : e.cls = 0 ∨ e.cls = 1 ∨ e.cls = 2 ∨ e.cls = 3 ∨ e.cls = 4 := by
  obtain ⟨c, -, hc⟩ := Profile.lookup_class hwf hl
  rw [hc]
  cases c <;> decide

/-- Settles O14: the mux at each of the five classes, CLOCK by PROT before the write and POWER by the DISPLL it stores. -/
theorem documentedWritesFollowTheMux : Obligations.DocumentedWritesFollowTheMux := by
  intro s w a d e hwf hin hl old v stored f clocked ok
  have hmux : ∀ c : SideEffect, e.cls = c.code →
      exec (Instr.write w a d) s = .next ((sideEffect c e a.toNat w v s).respond ok) :=
    fun c hc => exec_write_of_class hin hl hc d
  have hstored : s.maskedStore a.toNat w v e = stored := rfl
  have hclocked : recompute stored = clocked := rfl
  refine ⟨hmux .none, hmux .rtc, hmux .fixed, fun hc hp => ?clockIgnored, fun hc hp => ?clockStored,
    fun hc hd => ?powerSignals, fun hc hd => ?powerQuiet, Profile.lookup_cls hwf hl⟩
  case clockIgnored => rw [hmux .clock hc, sideEffect_clock_of_prot hp]
  case clockStored => rw [hmux .clock hc, sideEffect_clock_of_not_prot hwf hl hc hp, hstored, hclocked]
  case powerSignals => rw [hmux .power hc, sideEffect_power hwf hl hc, hstored, if_pos hd, hclocked]
  case powerQuiet =>
    rw [hmux .power hc, sideEffect_power hwf hl hc, hstored, if_neg (Bool.eq_false_iff.1 hd), hclocked]

end Sys2Proof.Machine
end

section
/-! PROOFS. The statements of spec/41_clock_power.md: when the derived clock state is recomputed, and the writes of the
two PLL registers. -/

namespace Sys2Proof.Machine

/-! ### Masks, bit by bit -/

/-- A bit that a mask of the width holds is a bit of the width. -/
theorem lt_bits_of_mask {W : Word} {w : Width} {i : Nat} (hW : W.toNat < 2 ^ w.bits) (hb : W.getLsbD i = true) :
    i < w.bits := by
  by_contra hi
  have hlt : W.toNat < 2 ^ i := hW.trans_le (Nat.pow_le_pow_right (by decide) (not_lt.1 hi))
  have hclear : W.getLsbD i = false := Nat.testBit_lt_two_pow hlt
  rw [hclear] at hb
  cases hb

/-- A masked store takes a writable bit from the value (40_access.md R126). -/
theorem getLsbD_ms_of_writable {W K : Word} {i : Nat} (hWK : W &&& K = 0) (hb : W.getLsbD i = true) (old v : Word) :
    (ms old v W K).getLsbD i = v.getLsbD i := by
  have hK : K.getLsbD i = false := by
    have h := congrArg (fun x : Word => x.getLsbD i) hWK
    simpa [hb] using h
  rw [getLsbD_ms, hb, hK, Bool.and_true, Bool.and_false, Bool.or_false]

/-- A masked store leaves a kept bit that is not writable (R126). -/
theorem getLsbD_ms_of_kept {W K : Word} {i : Nat} (hW : W.getLsbD i = false) (hK : K.getLsbD i = true) (old v : Word) :
    (ms old v W K).getLsbD i = old.getLsbD i := by
  rw [getLsbD_ms, hW, hK, Bool.and_true, Bool.and_false, Bool.false_or]

/-- The masked store value of a halfword write, as a halfword. -/
theorem setWidth_ms_truncTo (old d W K : Word) :
    (ms old (truncTo .w16 d) W K).setWidth 16 =
      (d.setWidth 16 &&& W.setWidth 16) ||| (old.setWidth 16 &&& K.setWidth 16) := by
  have hd : (truncTo .w16 d).setWidth 16 = d.setWidth 16 := by
    ext i hi
    simp [truncTo]
  rw [ms, BitVec.setWidth_or, BitVec.setWidth_and, BitVec.setWidth_and, hd]

/-! ### The status bits as bits of the stored halfwords -/

theorem State.prot_eq (s : State) : s.prot = (s.load s.profile.offPllfsr .w16).getLsbD s.profile.bitProt :=
  getLsbD_half _ _ _

theorem State.dispLl_eq (s : State) : s.dispLl = (s.load s.profile.offPllcr .w16).getLsbD s.profile.bitDispll :=
  getLsbD_half _ _ _

/-! ### Documented halfword writes -/

section
variable {s : State} {e : Descriptor} {off : Nat} {w : Width}

/-- The register of a masked store reads back the masked store value. -/
theorem State.load_maskedStore_same (hi : s.Inv) (hl : s.profile.lookup off w = some e) (v : Word) :
    (s.maskedStore off w v e).load off w = ms (s.load off w) v e.W e.K := by
  obtain ⟨-, hW, hK⟩ := Profile.lookup_masks hi.profileWf hl
  rw [State.load, State.maskedStore_rf, memRead_memWrite_same hi.rfWf, truncTo_ms hW hK, State.load]

/-- A masked store leaves what shares no byte with its register. -/
theorem State.load_maskedStore_apart (hi : s.Inv) {off' : Nat} {w' : Width}
    (hd : off' + w'.bytes ≤ off ∨ off + w.bytes ≤ off') (v : Word) :
    (s.maskedStore off w v e).load off' w' = s.load off' w' :=
  memRead_memWrite_disjoint hi.rfWf hd _

/-- A masked halfword store takes a writable bit from the data operand. -/
theorem State.getLsbD_load_maskedStore (hi : s.Inv) (hl : s.profile.lookup off .w16 = some e) {i : Nat}
    (hb : e.W.getLsbD i = true) (d : Word) :
    ((s.maskedStore off .w16 (truncTo .w16 d) e).load off .w16).getLsbD i = d.getLsbD i := by
  obtain ⟨hWK, hW, -⟩ := Profile.lookup_masks hi.profileWf hl
  have hlt : i < Width.w16.bits := lt_bits_of_mask hW hb
  rw [State.load_maskedStore_same hi hl, getLsbD_ms_of_writable hWK hb, getLsbD_truncTo, decide_eq_true hlt,
    Bool.true_and]

/-- A masked store to the host of the CLK32 bit keeps the bit (00_scope.md R9 f). -/
theorem clk32Status_maskedStore (hi : s.Inv) (hhost : s.profile.clk32Off = off)
    (hl : s.profile.lookup off .w16 = some e) (v : Word) :
    (s.maskedStore off .w16 v e).clk32Status = s.clk32Status := by
  subst hhost
  obtain ⟨e', hl', hW, hK, -⟩ := Profile.clk32_entry hi.profileWf
  obtain rfl : e = e' := Option.some.inj (hl.symm.trans hl')
  rw [State.clk32Status, State.maskedStore_profile, State.load_maskedStore_same hi hl, getLsbD_ms_of_kept hW hK,
    State.clk32Status]

/-- A 16-bit write of an entry is the mux at the entry's class; its access is in the contract because the entry is. -/
theorem exec_wr16_of_class {a : Word} {c : SideEffect} (hwf : s.profile.wf = true)
    (hl : s.profile.lookup a.toNat .w16 = some e) (hc : e.cls = c.code) (d : Word) :
    exec (.wr16 a d) s =
      .next ((sideEffect c e a.toNat .w16 (truncTo .w16 d) s).respond { q0 := 0, q1 := none }) := by
  rw [truncTo_eq_ofNat]
  exact exec_write_of_class (w := .w16) (Profile.lookup_inWindow hwf hl) hl hc d

/-- The registers after a write of PLLFSR that is not ignored (41_clock_power.md R163). -/
theorem pll_maskedStore_pllfsr (hi : s.Inv) (hl : s.profile.lookup s.profile.offPllfsr .w16 = some e) (d : Word) :
    let t := s.maskedStore s.profile.offPllfsr .w16 (truncTo .w16 d) e
    t.pllfsr = (d.setWidth 16 &&& e.W.setWidth 16) ||| (s.pllfsr &&& e.K.setWidth 16) ∧ t.pllcr = s.pllcr := by
  have happart := (Profile.named_apart hi.profileWf).1
  constructor
  · exact (congrArg (BitVec.setWidth 16) (State.load_maskedStore_same hi hl _)).trans (setWidth_ms_truncTo _ d e.W e.K)
  · exact congrArg (BitVec.setWidth 16) (State.load_maskedStore_apart (w := .w16) (w' := .w16) hi happart _)

/-- The registers after a write of PLLCR, whose keep mask is 0 (41_clock_power.md R164). -/
theorem pll_maskedStore_pllcr (hi : s.Inv) (hl : s.profile.lookup s.profile.offPllcr .w16 = some e) (hK : e.K = 0)
    (d : Word) :
    let t := s.maskedStore s.profile.offPllcr .w16 (truncTo .w16 d) e
    t.pllcr = d.setWidth 16 &&& e.W.setWidth 16 ∧ t.pllfsr = s.pllfsr := by
  have happart := (Profile.named_apart hi.profileWf).1
  constructor
  · refine (congrArg (BitVec.setWidth 16) (State.load_maskedStore_same hi hl _)).trans ?_
    simp [setWidth_ms_truncTo, hK]
  · exact congrArg (BitVec.setWidth 16) (State.load_maskedStore_apart (w := .w16) (w' := .w16) hi happart.symm _)

end

/-! ### The occasions of the recomputation -/

/-- The four occasions on which 41_clock_power.md R162 recomputes the clock state. -/
def Recomputes (s : State) (i : Instr) : Prop :=
  (∃ a d, i = .wr16 a d ∧ a.toNat = s.profile.offPllfsr ∧ s.prot = false) ∨
  (∃ a d, i = .wr16 a d ∧ a.toNat = s.profile.offPllcr) ∨ i = .reset ∨ (∃ img, i = .restore img)

/-- How RESTORE completes (44_host.md R251). -/
theorem exec_restore_inv {s t : State} {img : Image} (h : exec (.restore img) s = .next t) :
    img.size = s.profile.periphSize ∧ t = (recompute (s.withRf (imageMemory img))).respond (Response.word 0) := by
  simp only [exec, execRestore] at h
  split at h
  next hsize => cases h; exact ⟨hsize, rfl⟩
  next => cases h

/-- On an occasion the clock state is that of the registers the transaction leaves (R162). -/
theorem clock_of_recomputes {s t : State} {i : Instr} (hwf : s.profile.wf = true) (h : exec i s = .next t)
    (ho : Recomputes s i) : (t.freqHz, t.refCyc) = t.derivedClock := by
  rcases ho with ⟨a, d, rfl, ha, hprot⟩ | ⟨a, d, rfl, ha⟩ | rfl | ⟨img, rfl⟩
  · obtain ⟨e, hl, hc, -⟩ := Profile.pllfsr_entry hwf
    rw [exec_wr16_of_class hwf (ha ▸ hl) hc] at h
    cases h
    exact (sideEffect_clock _ _ _ _ _ _).2 (.inr ⟨rfl, hprot⟩)
  · obtain ⟨e, hl, hc, -⟩ := Profile.pllcr_entry hwf
    rw [exec_wr16_of_class hwf (ha ▸ hl) hc] at h
    cases h
    exact (sideEffect_clock _ _ _ _ _ _).2 (.inl rfl)
  · cases h
    rfl
  · obtain ⟨-, rfl⟩ := exec_restore_inv h
    rfl

/-- A documented write off the occasions is neither POWER nor a CLOCK write with PROT clear. -/
theorem class_of_not_recomputes {s : State} {w : Width} {a d : Word} {e : Descriptor} {c : SideEffect}
    (hwf : s.profile.wf = true) (hl : s.profile.lookup a.toNat w = some e) (hcls : SideEffect.ofCode e.cls = some c)
    (ho : ¬Recomputes s (Instr.write w a d)) : c ≠ .power ∧ (c = .clock → s.prot = true) := by
  have hcode := SideEffect.code_of_ofCode hcls
  constructor
  · rintro rfl
    obtain ⟨ha, rfl⟩ := (Profile.power_iff hwf hl).1 hcode
    exact ho (.inr (.inl ⟨a, d, rfl, ha⟩))
  · rintro rfl
    obtain ⟨ha, rfl⟩ := (Profile.clock_iff hwf hl).1 hcode
    by_contra hprot
    exact ho (.inl ⟨a, d, rfl, ha, Bool.eq_false_iff.2 hprot⟩)

/-- Off the occasions every transaction leaves the clock state (R162). -/
theorem clock_of_not_recomputes {s t : State} {i : Instr} (hwf : s.profile.wf = true) (h : exec i s = .next t)
    (ho : ¬Recomputes s i) : t.freqHz = s.freqHz ∧ t.refCyc = s.refCyc := by
  cases does_of_exec h with
  | docWrite w a d e c hi hc hl hcls ht =>
    subst hi ht
    obtain ⟨hpower, hclock⟩ := class_of_not_recomputes hwf hl hcls ho
    exact (sideEffect_clock c e _ w _ s).1 hpower hclock
  | reset hi => exact absurd (.inr (.inr (.inl hi))) ho
  | restore img hi => exact absurd (.inr (.inr (.inr ⟨img, hi⟩))) ho
  | read w a hi hc ht => subst ht; exact ⟨readAt_freqHz _ _ _, readAt_refCyc _ _ _⟩
  | dmaRead a hi hc ht => subst ht; exact ⟨dmaReadAt_freqHz _ _, dmaReadAt_refCyc _ _⟩
  | dmaWrite a d hi hc ht => subst ht; exact ⟨dmaWriteAt_freqHz _ _ _, dmaWriteAt_refCyc _ _ _⟩
  | rawWrite w a d hi hc hl ht => subst ht; exact ⟨rfl, rfl⟩
  | tickOff hi hen ht => subst ht; exact ⟨rfl, rfl⟩
  | tickOn hi hen ht => subst ht; exact ⟨rfl, rfl⟩
  | clk32 hi ht => subst ht; exact ⟨rfl, rfl⟩
  | setrtc days hours minutes seconds hi ht => subst ht; exact ⟨rfl, rfl⟩
  | qpwr hi ht => subst ht; exact ⟨rfl, rfl⟩
  | qfreq hi ht => subst ht; exact ⟨rfl, rfl⟩

/-- Settles O23: the occasions one by one, and every other way to complete. -/
theorem clockStateIsRecomputedOnItsFourOccasions : Obligations.ClockStateIsRecomputedOnItsFourOccasions :=
  fun _ _ _ hwf h => ⟨clock_of_recomputes hwf h, clock_of_not_recomputes hwf h⟩

/-! ### The writes of PLLFSR and PLLCR -/

/-- Settles O24: CLOCK is the class of PLLFSR's entry; PROT is writable there, the CLK32 bit is kept. -/
theorem pllfsrWrite : Obligations.PllfsrWrite := by
  intro s a d hi ha
  have hwf := hi.profileWf
  obtain ⟨e, hl, hc, hprotW, -⟩ := Profile.pllfsr_entry hwf
  have hla : s.profile.lookup a.toNat .w16 = some e := ha ▸ hl
  have hexec := exec_wr16_of_class hwf hla hc d
  constructor
  · intro hprot
    rw [hexec, sideEffect_clock_of_prot hprot]
  · intro hprot
    obtain ⟨hpllfsr, hpllcr⟩ := pll_maskedStore_pllfsr hi hl d
    have hstored := (State.prot_eq _).trans (State.getLsbD_load_maskedStore hi hl hprotW d)
    have hclk32 := fun hhost => clk32Status_maskedStore hi hhost hl (truncTo .w16 d)
    rw [sideEffect_clock_of_not_prot hwf hla hc hprot, ha] at hexec
    obtain ⟨-, -, hframe⟩ := write_rf (w := .w16) hi hexec
    exact ⟨_, e, hexec, hla, hpllfsr, hpllcr, hstored, hclk32, rfl, rfl, rfl, hframe, rfl, rfl, rfl⟩

/-- POWER as one update: the masked store and the recomputation, with the signal where the stored DISPLL is set. -/
theorem powerHandler_eq (e : Descriptor) (v : Word) (s : State) :
    powerHandler e v s =
      { recompute (s.maskedStore s.profile.offPllcr .w16 v e) with
        events :=
          if (s.maskedStore s.profile.offPllcr .w16 v e).dispLl then s.events ++ [.endTimeslice] else s.events } := by
  unfold powerHandler
  split
  next h => exact if_pos h
  next h => exact if_neg h

/-- Settles O25: POWER is the class of PLLCR's entry, whose keep mask is 0 and where DISPLL is writable. -/
theorem pllcrWrite : Obligations.PllcrWrite := by
  intro s a d hi ha
  have hwf := hi.profileWf
  obtain ⟨e, hl, hc, hdispW, -, hK⟩ := Profile.pllcr_entry hwf
  have hla : s.profile.lookup a.toNat .w16 = some e := ha ▸ hl
  have hexec := exec_wr16_of_class hwf hla hc d
  obtain ⟨hpllcr, hpllfsr⟩ := pll_maskedStore_pllcr hi hl hK d
  have hstored := (State.dispLl_eq _).trans (State.getLsbD_load_maskedStore hi hl hdispW d)
  rw [sideEffect, powerHandler_eq, hstored] at hexec
  obtain ⟨-, -, hframe⟩ := write_rf (w := .w16) hi hexec
  exact ⟨_, e, hexec, hla, hpllcr, hpllfsr, hstored, rfl, fun hd => if_pos hd,
    fun hd => if_neg (Bool.eq_false_iff.1 hd), rfl, hframe, rfl, rfl, rfl⟩

end Sys2Proof.Machine
end

section
/-! PROOFS. The statements of spec/42_rtc.md: the tick of the real-time clock. -/

namespace Sys2Proof.Machine

/-- The command byte 0x20 is TICK, whatever the operands and the image (30_encoding.md R93). -/
theorem decode_tick (a d : Word) (img : Image) :
    decode { word := transactionWord 0x20 a d, image := img } = .ok .tick := by
  simp only [decode, cmd_transactionWord]
  rfl

/-- TICK while RTCEN is clear (42_rtc.md R195). -/
theorem exec_tick_of_disabled {s : State} (h : s.rtcEnabled = false) :
    exec .tick s = .next (s.respond (Response.word 0)) := if_neg (Bool.eq_false_iff.1 h)

/-- TICK while RTCEN is set (R195). -/
theorem exec_tick_of_enabled {s : State} (h : s.rtcEnabled = true) :
    exec .tick s = .next ((s.pack s.calendar.advance).respond (Response.word 0)) := if_pos h

/-- Settles O30: an enabled tick packs the advanced calendar, which fits its fields and so unpacks to itself. -/
theorem tickAdvancesTheCalendar : Obligations.TickAdvancesTheCalendar := by
  refine ⟨decode_tick, fun s hi => ⟨exec_tick_of_disabled, fun hen => ?enabled⟩⟩
  case enabled =>
    have hfits : s.calendar.advance.fits := advance_fits (calendar_fits s)
    have hcal : (s.pack s.calendar.advance).calendar = s.calendar.advance := calendar_pack hi.profileWf hi.rfWf hfits
    have hnonfield : (s.pack s.calendar.advance).rtctime &&& ~~~s.profile.rtcMask = 0 := by
      rw [(pack_registers hi.profileWf hi.rfWf _).1, packTime_nonfield hfits]
    exact ⟨_, exec_tick_of_enabled hen, congrArg Calendar.sec hcal, congrArg Calendar.min hcal,
      congrArg Calendar.hr hcal, congrArg Calendar.day hcal, hnonfield, dayr_pack_lt hi.profileWf hi.rfWf hfits,
      read_pack hi.rfWf _, rfl, rfl, rfl, rfl, rfl, rfl, rfl⟩

end Sys2Proof.Machine
end

section
/-! PROOFS. The statements of spec/43_dma.md: the reads of the DMA window. -/

namespace Sys2Proof.Machine

/-- The command byte 0x0A is DRD32 at the operand A, whatever D and the image (30_encoding.md R93). -/
theorem decode_drd32 (a d : Word) (img : Image) :
    decode { word := transactionWord 0x0A a d, image := img } = .ok (.drd32 a) := by
  simp only [decode, cmd_transactionWord]
  exact congrArg (fun x => Except.ok (Instr.drd32 x)) (a_transactionWord 0x0A a d img)

/-! ### One read -/

/-- A read of a register answers the stored word and emits nothing (43_dma.md R225). -/
theorem dmaReadAt_of_some {s : State} {off : Nat} {r : DmaReg} (h : ddesc s.profile off = some r) :
    dmaReadAt off s = s.respond (Response.word (s.dmaWord off)) := by
  simp only [dmaReadAt, h]

/-- A read of a raw word answers it, and emits one Diag (R227). -/
theorem dmaReadAt_of_none {s : State} {off : Nat} (h : ddesc s.profile off = none) :
    dmaReadAt off s =
      (s.emit (.diag .dma off (s.dmaWord off) .w32 .read)).respond (Response.word (s.dmaWord off)) := by
  simp only [dmaReadAt, h]

/-! ### The checks, in their order -/

section
variable {p : Profile} {cmd : Byte} {a : Word}

/-- Presence comes first (R222). -/
theorem dmaFault_of_absent (h : p.hasDma = false) : dmaFault p cmd a = some (.noWindow cmd a) :=
  if_neg (Bool.eq_false_iff.1 h)

/-- Where the window is present its checks are alignment and bounds (R222). -/
theorem dmaFault_of_present (h : p.hasDma = true) : dmaFault p cmd a = contractFault cmd a 4 p.dmaSize := if_pos h

/-- Alignment comes before bounds (20_memory.md R66). -/
theorem contractFault_of_misaligned {n size : Nat} (h : a.toNat % n ≠ 0) :
    contractFault cmd a n size = some (.misaligned cmd a) := if_pos h

/-- An aligned access that ends outside the window (20_memory.md R65). -/
theorem contractFault_of_outside {n size : Nat} (h : a.toNat % n = 0) (hout : size < a.toNat + n) :
    contractFault cmd a n size = some (.outOfWindow cmd a) :=
  (if_neg (not_not_intro h)).trans (if_pos hout)

end

/-- A DRD32 that fails a check stops with that check's fault (R222). -/
theorem exec_drd32_fault {s : State} {a : Word} {f : Fault} (h : dmaFault s.profile 0x0A a = some f) :
    exec (.drd32 a) s = .fault f := by
  simp only [exec, execDrd32, h]

/-! ### A channel-map entry read back -/

/-- What a write stores in a channel-map entry is a byte (43_dma.md R224). -/
theorem dmaStored_drcmr_lt {p : Profile} (hwf : p.wf = true) (hd : p.hasDma = true) {off : Nat} {r : DmaReg}
    (hr : ddesc p off = some r) (hk : r.kind = .drcmr) (d : Word) : (dmaStored p off d).toNat < 2 ^ 8 := by
  obtain ⟨-, -, -, hmask⟩ := Profile.dma_facts hwf hd
  have hstored : dmaStored p off d = d &&& 0xFF := by
    simp only [dmaStored, hr, dmaMaskOf, hk, DmaTable.at, hmask]
  rw [hstored, BitVec.toNat_and]
  exact Nat.and_lt_two_pow _ (by decide)

/-- The word of a register after RESET is its kind's reset value (43_dma.md R228). -/
theorem read_resetDw_of_ddesc {p : Profile} (dw : Memory 32) {a : Word} {r : DmaReg} (hin : dmaInContract p a)
    (hr : ddesc p a.toNat = some r) : Memory.read (resetDw p dw) (a.toNat / 4) = p.dmaReset.at r.kind := by
  obtain ⟨hd, halign, hbound⟩ := hin
  have hword : 4 * (a.toNat / 4) = a.toNat := Nat.mul_div_cancel' (Nat.dvd_of_mod_eq_zero halign)
  rw [read_resetDw hd dw (by omega), dmaResetOf, hword, hr]

/-- A transaction and then a DRD32: the answer is the word of the DMA window that the transaction left. -/
theorem drd32_after {s u : State} {i : Instr} {a : Word} (h : exec i s = .next u) (hin : dmaInContract s.profile a)
    {ok : Response} (hresp : u.responses = s.responses ++ [ok]) :
    ∃ t, execAll [i, .drd32 a] s = .next t ∧
      t.responses = s.responses ++ [ok, { q0 := Memory.read u.dw (a.toNat / 4), q1 := none }] := by
  have hread : exec (.drd32 a) u = .next (dmaReadAt a.toNat u) :=
    exec_drd32_next ((exec_profile_input h).1.symm ▸ hin)
  refine ⟨dmaReadAt a.toNat u, by simp only [execAll, h, hread], ?_⟩
  rw [dmaReadAt_responses, hresp, List.append_assoc]
  rfl

/-- Settles O35: the two cases of the DMA decoder, the mask of a channel-map entry and its reset value, and the checks
in their order. -/
theorem dmaReadReturnsTheStoredWord : Obligations.DmaReadReturnsTheStoredWord := by
  refine ⟨decode_drd32, fun s a hin => ⟨fun r hr => ?register, fun hr => ?raw⟩,
    fun s a d r hi hin hr hk => ⟨?written, fun hreset => ?afterReset⟩,
    fun s a => ⟨fun hd => ?absent, fun hd hmis => ?misaligned, fun hd halign hout => ?outside⟩⟩
  case register =>
    rw [exec_drd32_next hin, dmaReadAt_of_some hr]
    rfl
  case raw =>
    rw [exec_drd32_next hin, dmaReadAt_of_none hr]
    rfl
  case written =>
    obtain ⟨t, ht, hresp⟩ := drd32_after (exec_dwr32_next hin d) hin (dmaWriteAt_responses _ _ _)
    rw [dmaWriteAt_dw, Memory.read_write_same hi.dwWf] at hresp
    exact ⟨t, _, ht, hresp, dmaStored_drcmr_lt hi.profileWf hin.1 hr hk d⟩
  case afterReset =>
    have hexec : exec .reset s = .next ((resetAll s).respond (Response.word 0)) := rfl
    obtain ⟨t, ht, hresp⟩ := drd32_after hexec hin rfl
    have hword : Memory.read (resetDw s.profile s.dw) (a.toNat / 4) = s.profile.dmaReset.drcmr := by
      rw [read_resetDw_of_ddesc s.dw hin hr, hk, DmaTable.at]
    exact ⟨t, _, ht, hresp, hword.symm ▸ hreset⟩
  case absent => exact exec_drd32_fault (dmaFault_of_absent hd)
  case misaligned => exact exec_drd32_fault ((dmaFault_of_present hd).trans (contractFault_of_misaligned hmis))
  case outside => exact exec_drd32_fault ((dmaFault_of_present hd).trans (contractFault_of_outside halign hout))

end Sys2Proof.Machine
end

section
/-! PROOFS. The statements of spec/70_reset_and_hazards.md: RESET. -/

namespace Sys2Proof.Machine

/-- The command byte 0x50 is RESET, whatever the operands and the image (30_encoding.md R93). -/
theorem decode_reset (a d : Word) (img : Image) :
    decode { word := transactionWord 0x50 a d, image := img } = .ok .reset := by
  simp only [decode, cmd_transactionWord]
  rfl

/-- RESET always completes, and answers 0 (70_reset_and_hazards.md R300; 30_encoding.md R97). -/
theorem exec_reset (s : State) : exec .reset s = .next ((resetAll s).respond (Response.word 0)) := rfl

/-! ### The reset values of the DMA window -/

section
variable {p : Profile} {j : Nat}

/-- The reset value of a register's word is its kind's (43_dma.md R228). -/
theorem dmaResetOf_of_some {r : DmaReg} (h : ddesc p (4 * j) = some r) : dmaResetOf p j = p.dmaReset.at r.kind := by
  rw [dmaResetOf, h]

/-- The reset value of a raw word is 0 (R228). -/
theorem dmaResetOf_of_none (h : ddesc p (4 * j) = none) : dmaResetOf p j = 0 := by
  rw [dmaResetOf, h]

end

/-! ### The status bits -/

/-- An access all of whose bytes are 0 reads 0. -/
theorem memRead_of_zero {rf : Memory 8} {off : Nat} {w : Width}
    (h : ∀ i, off ≤ i → i < off + w.bytes → Memory.read rf i = 0) : memRead rf off w = 0 := by
  have hempty : memRead rf off w = memRead [] off w := memRead_congr h
  rw [hempty]
  cases w <;> simp [memRead, Memory.read]

section
variable {s : State}

/-- RESET loads PLLFSR with 0x0347 (70_reset_and_hazards.md R302). -/
theorem load_pllfsr_resetAll (hi : s.Inv) : (resetAll s).load s.profile.offPllfsr .w16 = 0x0347 :=
  memRead_resetRf hi.profileWf hi.rfWf (Profile.resetTable_normative hi.profileWf).2.1

/-- RESET clears every bit of PLLFSR from 12 up: 0x0347 lies below 2^12. -/
theorem getLsbD_pllfsr_resetAll (hi : s.Inv) {k : Nat} (hk : 12 ≤ k) :
    ((resetAll s).load s.profile.offPllfsr .w16).getLsbD k = false := by
  rw [load_pllfsr_resetAll hi]
  exact Nat.testBit_lt_two_pow (lt_of_lt_of_le (by decide) (Nat.pow_le_pow_right (by decide) hk))

/-- PROT is clear after RESET: it is one of the bits 12 to 15 of PLLFSR. -/
theorem prot_resetAll (hi : s.Inv) : (resetAll s).prot = false := by
  obtain ⟨-, -, -, -, -, hlow, -⟩ := Profile.pllfsr_entry hi.profileWf
  exact (State.prot_eq _).trans (getLsbD_pllfsr_resetAll hi hlow)

/-- Under P0 the 32 kHz status bit is bit 15 of PLLFSR, so RESET clears it. -/
theorem clk32Status_resetAll_p0 (hi : s.Inv) (hp : s.profile = Profile.p0) : (resetAll s).clk32Status = false := by
  have hhost : s.profile.clk32Off = s.profile.offPllfsr := by rw [hp]; rfl
  have hbit : 12 ≤ s.profile.bitClk32 := by rw [hp]; decide
  rw [State.clk32Status, resetAll_profile, hhost]
  exact getLsbD_pllfsr_resetAll hi hbit

/-- Under P0 no byte of RTCCTL is a calendar byte or in the reset table. -/
theorem p0_rtcctl_zeroFilled {i : Nat} (hlow : Profile.p0.offRtcctl ≤ i)
    (hhigh : i < Profile.p0.offRtcctl + Profile.p0.rtcctlWidth.bytes) :
    isCalendar Profile.p0 i = false ∧ ∀ e ∈ Profile.p0.resetTable, ¬(e.off ≤ i ∧ i < e.off + e.width.bytes) := by
  have hbyte : i = 0xB0C ∨ i = 0xB0D := by
    simp only [Profile.p0, Width.bytes] at hlow hhigh
    omega
  rcases hbyte with rfl | rfl <;> decide

/-- Under P0 RESET leaves RTCCTL 0. -/
theorem rtcctl_resetAll_p0 (hi : s.Inv) (hp : s.profile = Profile.p0) : (resetAll s).rtcctl = 0 := by
  refine memRead_of_zero (fun i hlow hhigh => ?_)
  rw [resetAll_profile, hp] at hlow hhigh
  obtain ⟨hcal, hout⟩ := p0_rtcctl_zeroFilled hlow hhigh
  rw [← hp] at hcal hout
  exact read_resetRf_zero hi.rfWf hcal hout

end

/-- Settles O40: RF byte by byte (calendar, table, zero), DW word by word, and the status bits from PLLFSR's reset
value; the clock state is the recomputation's. -/
theorem resetRestoresTheDefaults : Obligations.ResetRestoresTheDefaults := by
  refine ⟨decode_reset, fun s hi => ⟨_, exec_reset s, fun i hcal => ?calendar, fun e he => ?table,
    fun i hcal hout => ?zero, fun hd j hj => ⟨fun r hr => ?register, fun hr => ?raw⟩, fun hd => ?absent, rfl, rfl, rfl,
    rfl, rfl, prot_resetAll hi, fun hp => ⟨clk32Status_resetAll_p0 hi hp, rtcctl_resetAll_p0 hi hp⟩⟩⟩
  case calendar => exact read_resetRf_calendar hi.profileWf hi.rfWf hcal
  case table => exact memRead_resetRf hi.profileWf hi.rfWf he
  case zero => exact read_resetRf_zero hi.rfWf hcal hout
  case register => exact (read_resetDw hd s.dw hj).trans (dmaResetOf_of_some hr)
  case raw => exact (read_resetDw hd s.dw hj).trans (dmaResetOf_of_none hr)
  case absent => exact if_neg (Bool.eq_false_iff.1 hd)

end Sys2Proof.Machine
end

section
/-! PROOFS. The statements of spec/30_encoding.md: the decoder and the encoder. -/

namespace Sys2Proof.Machine

/-! ### The decoder by the fields of the command byte -/

section
variable {t : Transaction} {c : Byte}

/-- An access command goes to the table of the accesses (30_encoding.md R92, R93). -/
theorem decode_of_access (ht : t.cmd = c) (hrsv : cmdRsv c = false) (hop : cmdOp c ≤ 1) :
    decode t = decodeAccess t (cmdOp c == 1) (cmdWin c) (cmdSz c) := by
  rcases Nat.le_one_iff_eq_zero_or_eq_one.1 hop with h | h <;> simp [decode, ht, hrsv, h]

/-- A host command with WIN and SZ 0 goes to the table of the host commands (R93). -/
theorem decode_of_host (ht : t.cmd = c) (hrsv : cmdRsv c = false) (hop : 2 ≤ cmdOp c) (hwin : cmdWin c = false)
    (hsz : cmdSz c = 0) : decode t = decodeHost t (cmdOp c) := by
  have h0 : cmdOp c ≠ 0 := by omega
  have h1 : cmdOp c ≠ 1 := by omega
  simp [decode, ht, hrsv, h0, h1, hwin, hsz]

end

section
variable (a d : Word) (img : Image)

/-- The command bytes 0x00, 0x01 and 0x02 are the reads at A (R93). -/
theorem decode_read (w : Width) :
    decode { word := transactionWord (Instr.read w a).cmd a d, image := img } = .ok (Instr.read w a) := by
  have access := fun c => decode_of_access (cmd_transactionWord c a d img)
  cases w with
  | w8 => exact (access 0x00 rfl (by decide)).trans (by simp [decodeAccess, cmdOp, cmdWin, cmdSz, Instr.read])
  | w16 => exact (access 0x01 rfl (by decide)).trans (by simp [decodeAccess, cmdOp, cmdWin, cmdSz, Instr.read])
  | w32 => exact (access 0x02 rfl (by decide)).trans (by simp [decodeAccess, cmdOp, cmdWin, cmdSz, Instr.read])

/-- The command bytes 0x10, 0x11 and 0x12 are the writes at A with the data D (R93). -/
theorem decode_write (w : Width) :
    decode { word := transactionWord (Instr.write w a d).cmd a d, image := img } = .ok (Instr.write w a d) := by
  have access := fun c => decode_of_access (cmd_transactionWord c a d img)
  cases w with
  | w8 => exact (access 0x10 rfl (by decide)).trans (by simp [decodeAccess, cmdOp, cmdWin, cmdSz, Instr.write])
  | w16 => exact (access 0x11 rfl (by decide)).trans (by simp [decodeAccess, cmdOp, cmdWin, cmdSz, Instr.write])
  | w32 => exact (access 0x12 rfl (by decide)).trans (by simp [decodeAccess, cmdOp, cmdWin, cmdSz, Instr.write])

/-- The command byte 0x1A is DWR32 at A with the data D (R93). -/
theorem decode_dwr32 : decode { word := transactionWord 0x1A a d, image := img } = .ok (.dwr32 a d) := by
  rw [decode_of_access (cmd_transactionWord 0x1A a d img) rfl (by decide)]
  simp [decodeAccess, cmdOp, cmdWin, cmdSz]

/-- The command byte 0x30 is CLK32 (R93). -/
theorem decode_clk32 : decode { word := transactionWord 0x30 a d, image := img } = .ok .clk32 :=
  decode_of_host (cmd_transactionWord 0x30 a d img) rfl (by decide) rfl rfl

/-- The command byte 0x40 is SETRTC, with the days in A and a byte of D for each time field (R94). -/
theorem decode_setrtc : decode { word := transactionWord 0x40 a d, image := img } =
    .ok (.setrtc a (d.extractLsb' 16 8) (d.extractLsb' 8 8) (d.extractLsb' 0 8)) := by
  rw [decode_of_host (cmd_transactionWord 0x40 a d img) rfl (by decide) rfl rfl, show cmdOp 0x40 = 4 from rfl]
  simp only [decodeHost, a_transactionWord, d_transactionWord]

/-- The command byte 0x60 is QPWR (R93). -/
theorem decode_qpwr : decode { word := transactionWord 0x60 a d, image := img } = .ok .qpwr :=
  decode_of_host (cmd_transactionWord 0x60 a d img) rfl (by decide) rfl rfl

/-- The command byte 0x70 is QFREQ (R93). -/
theorem decode_qfreq : decode { word := transactionWord 0x70 a d, image := img } = .ok .qfreq :=
  decode_of_host (cmd_transactionWord 0x70 a d img) rfl (by decide) rfl rfl

/-- The command byte 0x80 is RESTORE of the image beside the word (R93). -/
theorem decode_restore : decode { word := transactionWord 0x80 a d, image := img } = .ok (.restore img) :=
  decode_of_host (cmd_transactionWord 0x80 a d img) rfl (by decide) rfl rfl

end

/-- The three bytes of SETRTC as quotients of D (R94). -/
theorem setrtc_bytes (d : Word) :
    d.extractLsb' 16 8 = BitVec.ofNat 8 (d.toNat / 65536) ∧ d.extractLsb' 8 8 = BitVec.ofNat 8 (d.toNat / 256) ∧
      d.extractLsb' 0 8 = BitVec.ofNat 8 d.toNat := by
  simp [BitVec.extractLsb', Nat.shiftRight_eq_div_pow]

/-- Settles O4: the row of the table that each command byte selects, with A and D read back from their fields. -/
theorem operandsComeFromTheirFields : Obligations.OperandsComeFromTheirFields := by
  intro a d img
  have hsetrtc := decode_setrtc a d img
  obtain ⟨hhours, hminutes, hseconds⟩ := setrtc_bytes d
  rw [hhours, hminutes, hseconds] at hsetrtc
  exact ⟨decode_read a d img .w8, decode_read a d img .w16, decode_read a d img .w32, decode_write a d img .w8,
    decode_write a d img .w16, decode_write a d img .w32, decode_drd32 a d img, decode_dwr32 a d img,
    decode_tick a d img, decode_clk32 a d img, hsetrtc, decode_reset a d img, decode_qpwr a d img,
    decode_qfreq a d img, decode_restore a d img⟩

/-- Settles O6: the encoding of an instruction is the word of its command byte and its operands, or zeros, so the row of
the command byte gives the instruction back; the D of SETRTC holds its three bytes. -/
theorem decodeOfEncodeIsTheInstruction : Obligations.DecodeOfEncodeIsTheInstruction := by
  intro i
  cases i with
  | rd8 a => exact decode_read a 0 noImage .w8
  | rd16 a => exact decode_read a 0 noImage .w16
  | rd32 a => exact decode_read a 0 noImage .w32
  | wr8 a d => exact decode_write a d noImage .w8
  | wr16 a d => exact decode_write a d noImage .w16
  | wr32 a d => exact decode_write a d noImage .w32
  | drd32 a => exact decode_drd32 a 0 noImage
  | dwr32 a d => exact decode_dwr32 a d noImage
  | tick => exact decode_tick 0 0 noImage
  | clk32 => exact decode_clk32 0 0 noImage
  | setrtc days hours minutes seconds =>
    obtain ⟨hhours, hminutes, hseconds⟩ := setrtc_data hours minutes seconds
    have h := decode_setrtc days ((0 : Byte) ++ hours ++ minutes ++ seconds) noImage
    rw [hhours, hminutes, hseconds] at h
    exact h
  | reset => exact decode_reset 0 0 noImage
  | qpwr => exact decode_qpwr 0 0 noImage
  | qfreq => exact decode_qfreq 0 0 noImage
  | restore img => exact decode_restore 0 0 img

/-- Settles O5: `decode_ok_iff` says it of the fields of the command byte; the rest is about the 256 bytes. -/
theorem legalCommandBytesAreTheTable : Obligations.LegalCommandBytesAreTheTable := by
  intro t
  have hbytes : ∀ c : Byte,
      (cmdRsv c = false ∧ ((cmdOp c ≤ 1 ∧ (cmdSz c = 2 ∨ (cmdWin c = false ∧ cmdSz c < 2))) ∨
        (2 ≤ cmdOp c ∧ cmdOp c ≤ 8 ∧ cmdWin c = false ∧ cmdSz c = 0))) ↔
      c ∈ ([0x00, 0x01, 0x02, 0x10, 0x11, 0x12, 0x0A, 0x1A, 0x20, 0x30, 0x40, 0x50, 0x60, 0x70, 0x80] : List Byte) := by
    decide
  exact (decode_ok_iff t).trans (hbytes t.cmd)

/-- Settles O3: eight words, each evaluated by the decoder. -/
theorem tableWordsDecode : Obligations.TableWordsDecode := by
  unfold Obligations.TableWordsDecode
  decide +kernel

end Sys2Proof.Machine
end

section
/-! PROOFS. The invariant: every transaction keeps it, and every cold start meets it; and the two windows, of which a
transaction can write only its own. -/

namespace Sys2Proof.Machine

/-! ### The DMA window -/

/-- Only DWR32 and RESET write the DMA window (43_dma.md R228, R229). -/
theorem dw_of_exec {s t : State} {i : Instr} (h : exec i s = .next t) (hdwr : ∀ a d, i ≠ .dwr32 a d)
    (hreset : i ≠ .reset) : t.dw = s.dw := by
  cases does_of_exec h with
  | dmaWrite a d hi hc ht => exact absurd hi (hdwr a d)
  | reset hi ht => exact absurd hi hreset
  | read w a hi hc ht => rw [ht, readAt_dw]
  | docWrite w a d e c hi hc hl hcls ht => rw [ht, State.respond_dw, sideEffect_dw]
  | dmaRead a hi hc ht => rw [ht, dmaReadAt_dw]
  | rawWrite w a d hi hc hl ht => rw [ht]; rfl
  | tickOff hi hen ht => rw [ht]; rfl
  | tickOn hi hen ht => rw [ht]; rfl
  | clk32 hi ht => rw [ht]; rfl
  | setrtc days hours minutes seconds hi ht => rw [ht]; rfl
  | qpwr hi ht => rw [ht]; rfl
  | qfreq hi ht => rw [ht]; rfl
  | restore img hi hs ht => rw [ht]; rfl

/-- Settles O37: DW by the ways in which a transaction completes, RF by the two DMA-window accesses. -/
theorem windowsDoNotAlias : Obligations.WindowsDoNotAlias := by
  intro s t i h
  refine ⟨dw_of_exec h, fun a d hi => ?_⟩
  rcases hi with rfl | rfl
  · rw [(exec_drd32_inv h).2, dmaReadAt_rf]
  · rw [(exec_dwr32_inv h).2, dmaWriteAt_rf]

/-- The word of an access in the contract is one of the window's. -/
theorem dmaInContract.word_lt {p : Profile} {a : Word} (hin : dmaInContract p a) : a.toNat / 4 < dmaWords p := by
  obtain ⟨hd, -, hbound⟩ := hin
  rw [dmaWords, if_pos hd]
  omega

/-- Every transaction keeps the DMA window canonical and in its bounds (10_state.md R24). -/
theorem dw_inv_of_exec {s t : State} {i : Instr} (hi : s.Inv) (h : exec i s = .next t) :
    Memory.wf t.dw = true ∧ Memory.below t.dw (dmaWords s.profile) = true := by
  by_cases hdwr : ∃ a d, i = .dwr32 a d
  · obtain ⟨a, d, rfl⟩ := hdwr
    obtain ⟨hin, rfl⟩ := exec_dwr32_inv h
    rw [dmaWriteAt_dw]
    exact ⟨Memory.wf_write hi.dwWf _ _, Memory.below_write hi.dwBelow hin.word_lt _⟩
  · by_cases hreset : i = .reset
    · subst hreset
      cases h
      exact resetDw_spec s.profile hi.dwWf hi.dwBelow
    · rw [dw_of_exec h (fun a d hid => hdwr ⟨a, d, hid⟩) hreset]
      exact ⟨hi.dwWf, hi.dwBelow⟩

/-! ### The register file -/

/-- The calendar registers lie in the window. -/
theorem Profile.calendar_inWindow {p : Profile} (hwf : p.wf = true) :
    p.offRtctime + 4 ≤ p.periphSize ∧ p.offDayr + 2 ≤ p.periphSize := by
  obtain ⟨⟨e, hl, -⟩, e', hl', -⟩ := Profile.rtc_entries hwf
  exact ⟨(Profile.lookup_inWindow hwf hl).2, (Profile.lookup_inWindow hwf hl').2⟩

/-- Packing a calendar keeps the register file canonical and in its bounds. -/
theorem pack_rf_inv {s : State} (hi : s.Inv) (c : Calendar) :
    Memory.wf (s.pack c).rf = true ∧ Memory.below (s.pack c).rf s.profile.periphSize = true := by
  obtain ⟨htime, hday⟩ := Profile.calendar_inWindow hi.profileWf
  rw [State.pack_rf]
  exact ⟨wf_memWrite (wf_memWrite hi.rfWf _ _ _) _ _ _, below_memWrite (below_memWrite hi.rfBelow htime _) hday _⟩

/-- Every transaction keeps the register file canonical and in its bounds (10_state.md R20). -/
theorem rf_inv_of_exec {s t : State} {i : Instr} (hi : s.Inv) (h : exec i s = .next t) :
    Memory.wf t.rf = true ∧ Memory.below t.rf s.profile.periphSize = true := by
  have hkept : Memory.wf s.rf = true ∧ Memory.below s.rf s.profile.periphSize = true := ⟨hi.rfWf, hi.rfBelow⟩
  cases does_of_exec h with
  | read w a hii hc ht => rwa [ht, readAt_rf]
  | rawWrite w a d hii hc hl ht =>
    rw [hii] at h
    obtain ⟨hm, hb, -⟩ := write_rf hi h
    exact ⟨hm, hb⟩
  | docWrite w a d e c hii hc hl hcls ht =>
    rw [hii] at h
    obtain ⟨hm, hb, -⟩ := write_rf hi h
    exact ⟨hm, hb⟩
  | dmaRead a hii hc ht => rwa [ht, dmaReadAt_rf]
  | dmaWrite a d hii hc ht => rwa [ht, dmaWriteAt_rf]
  | tickOff hii hen ht => rwa [ht]
  | tickOn hii hen ht => rw [ht]; exact pack_rf_inv hi _
  | clk32 hii ht =>
    obtain ⟨e, hl, -⟩ := Profile.clk32_entry hi.profileWf
    rw [ht, State.respond_rf, State.store_rf]
    exact ⟨wf_memWrite hi.rfWf _ _ _, below_memWrite hi.rfBelow (Profile.lookup_inWindow hi.profileWf hl).2 _⟩
  | setrtc days hours minutes seconds hii ht => rw [ht]; exact pack_rf_inv hi _
  | reset hii ht => rw [ht]; exact ⟨wf_resetRf _ hi.rfWf, below_resetRf hi.profileWf hi.rfBelow⟩
  | qpwr hii ht => rwa [ht]
  | qfreq hii ht => rwa [ht]
  | restore img hii hs ht =>
    obtain ⟨hm, hb, -⟩ := imageMemory_spec img
    rw [ht]
    exact ⟨hm, hs ▸ hb⟩

/-! ### The clock state -/

/-- The clock state is in its range (10_state.md R22; 41_clock_power.md R161). -/
def State.clockInRange (s : State) : Prop :=
  15 ≤ s.refCyc ∧ s.refCyc ≤ 7200 ∧ s.freqHz = s.refCyc * s.profile.crystalHz

/-- A clock state computed from the stored registers is in its range. -/
theorem clockInRange_of_derivedClock {s : State} (h : (s.freqHz, s.refCyc) = s.derivedClock) : s.clockInRange := by
  have hrange := computeFrequency_range s.profile.bitPresc s.profile.crystalHz s.pllcr s.pllfsr
  rw [← State.derivedClock, ← h] at hrange
  exact hrange

/-- Every transaction keeps the clock state in its range: it recomputes it or leaves it. -/
theorem clockInRange_of_exec {s t : State} {i : Instr} (hi : s.Inv) (h : exec i s = .next t) : t.clockInRange := by
  by_cases ho : Recomputes s i
  · exact clockInRange_of_derivedClock (clock_of_recomputes hi.profileWf h ho)
  · obtain ⟨hfreq, href⟩ := clock_of_not_recomputes hi.profileWf h ho
    rw [State.clockInRange, hfreq, href, (exec_profile_input h).1]
    exact ⟨hi.refLow, hi.refHigh, hi.freq⟩

/-! ### The invariant -/

/-- The invariant, from its parts. -/
theorem State.Inv.of_parts {s : State} (hwf : s.profile.wf = true)
    (hrf : Memory.wf s.rf = true ∧ Memory.below s.rf s.profile.periphSize = true)
    (hdw : Memory.wf s.dw = true ∧ Memory.below s.dw (dmaWords s.profile) = true) (hclock : s.clockInRange) : s.Inv :=
  ⟨hwf, hrf.1, hrf.2, hdw.1, hdw.2, hclock.1, hclock.2.1, hclock.2.2⟩

/-- The invariant does not speak of the input. -/
theorem State.Inv.withInput {s : State} (hi : s.Inv) (l : List Transaction) : (s.withInput l).Inv :=
  ⟨hi.profileWf, hi.rfWf, hi.rfBelow, hi.dwWf, hi.dwBelow, hi.refLow, hi.refHigh, hi.freq⟩

/-- Every transaction keeps the invariant. -/
theorem inv_of_exec {s t : State} {i : Instr} (hi : s.Inv) (h : exec i s = .next t) : t.Inv := by
  have hp : t.profile = s.profile := (exec_profile_input h).1
  exact .of_parts (hp ▸ hi.profileWf) (hp ▸ rf_inv_of_exec hi h) (hp ▸ dw_inv_of_exec hi h) (clockInRange_of_exec hi h)

/-- Settles O47: a step is a transaction, done with its word taken from the input. -/
theorem stepKeepsTheInvariant : Obligations.StepKeepsTheInvariant := by
  intro s t hi h
  obtain ⟨-, -, rest, i, -, -, hexec⟩ := step_next_inv h
  exact inv_of_exec (hi.withInput rest) hexec

/-- Settles O49: RESET makes both memories canonical and recomputes the clock; an absent window has no word. -/
theorem everyColdStartMeetsTheInvariant : Obligations.EveryColdStartMeetsTheInvariant := by
  intro p rf dw hwf hm hb habsent
  have hdw : Memory.wf (resetDw p dw) = true ∧ Memory.below (resetDw p dw) (dmaWords p) = true := by
    by_cases hd : p.hasDma = true
    · rw [resetDw, if_pos hd]
      exact ⟨Memory.wf_tabulate _ _, Memory.below_tabulate _ _⟩
    · rw [habsent (Bool.eq_false_iff.2 hd)]
      exact resetDw_spec p rfl rfl
  exact .of_parts hwf ⟨wf_resetRf p hm, below_resetRf hwf hb⟩ hdw (clockInRange_of_derivedClock rfl)

/-- Settles O50: both states are concrete data. -/
theorem resetStateIsAColdStart : Obligations.ResetStateIsAColdStart := by
  unfold Obligations.ResetStateIsAColdStart
  decide +kernel

/-- Settles O48: the state after reset is a cold start of P0. -/
theorem resetStateMeetsTheInvariant : Obligations.ResetStateMeetsTheInvariant := by
  have hwf : Profile.p0.wf = true := by decide +kernel
  have hcold := everyColdStartMeetsTheInvariant Profile.p0 [] [] hwf rfl rfl (fun _ => rfl)
  rw [resetStateIsAColdStart] at hcold
  exact hcold

end Sys2Proof.Machine
end

section
/-! PROOFS. The statements about one step: the decoded transaction, the model's own stops, and the order of the faults
(spec/60_exceptions.md R272). -/

namespace Sys2Proof.Machine

/-! ### A step at a transaction of the input -/

section
variable {s : State} {t : Transaction} {rest : List Transaction}

/-- A step does the transaction that the next word decodes to. -/
theorem step_of_decode_ok {i : Instr} (hwf : s.profile.wf = true) (hin : s.input = t :: rest) (hd : decode t = .ok i) :
    step s = exec i (s.withInput rest) := by
  simp only [step, hwf, if_true, fetch, hin, hd]

/-- A step at a word that does not decode stops in the decoder's fault. -/
theorem step_of_decode_error {e : DecodeError} (hwf : s.profile.wf = true) (hin : s.input = t :: rest)
    (hd : decode t = .error e) : step s = .fault (decodeFault e) := by
  simp only [step, hwf, if_true, fetch, hin, hd]

end

/-- Settles O1: the two answers of the decoder. -/
theorem stepRunsTheDecodedTransaction : Obligations.StepRunsTheDecodedTransaction := fun _ _ _ hwf hin =>
  ⟨fun _ hd => step_of_decode_ok hwf hin hd, fun _ hd => step_of_decode_error hwf hin hd,
    fun _ _ hd => step_of_decode_error hwf hin hd⟩

/-- Settles O2: the check of the profile, and then the empty input. -/
theorem stepRefusesIllFormedProfileAndEndedRun : Obligations.StepRefusesIllFormedProfileAndEndedRun := by
  intro s
  constructor
  · intro hwf
    simp [step, hwf]
  · intro hwf hin
    simp only [step, hwf, if_true, fetch, hin]

/-! ### Words that do not decode -/

/-- The illegal commands of 30_encoding.md R95 (a), (b), (c). -/
theorem decode_of_illegal {t : Transaction}
    (h : 9 ≤ cmdOp t.cmd ∨ cmdRsv t.cmd = true ∨ (2 ≤ cmdOp t.cmd ∧ (cmdWin t.cmd = true ∨ cmdSz t.cmd ≠ 0))) :
    decode t = .error (.illegalCommand t.cmd) := by
  by_cases hrsv : cmdRsv t.cmd = true
  · simp [decode, hrsv]
  have hop : 2 ≤ cmdOp t.cmd := by
    rcases h with h | h | ⟨h, -⟩
    · omega
    · exact absurd h hrsv
    · exact h
  by_cases hfields : cmdWin t.cmd = true ∨ cmdSz t.cmd ≠ 0
  · have h0 : cmdOp t.cmd ≠ 0 := by omega
    have h1 : cmdOp t.cmd ≠ 1 := by omega
    simp [decode, hrsv, h0, h1, hfields]
  · simp only [not_or, Bool.not_eq_true, ne_eq, Decidable.not_not] at hfields
    have hop9 : 9 ≤ cmdOp t.cmd := by
      rcases h with h | h | ⟨-, h | h⟩
      · exact h
      · exact absurd h hrsv
      · simp [hfields.1] at h
      · exact absurd hfields.2 h
    rw [decode_of_host rfl (Bool.eq_false_iff.2 hrsv) hop hfields.1 hfields.2, decodeHost_error hop9]

/-! ### What the checks of an access answer -/

/-- An outcome is that of a transaction with these checks: the fault that they give, or completion. -/
def AnswersCheck (o : Outcome) (check : Option Fault) : Prop :=
  (∀ f, check = some f → o = .fault f) ∧ (check = none → ∃ u, o = .next u)

theorem exec_read_answers (s : State) (w : Width) (a : Word) :
    AnswersCheck (exec (Instr.read w a) s) (periphFault s.profile (Instr.read w a).cmd a w) := by
  constructor
  · intro f hf
    rw [exec_read, periphRead, hf]
  · intro hf
    exact ⟨_, exec_read_next (periphFault_none_iff.1 hf)⟩

theorem exec_write_answers {s : State} (hwf : s.profile.wf = true) (w : Width) (a d : Word) :
    AnswersCheck (exec (Instr.write w a d) s) (periphFault s.profile (Instr.write w a d).cmd a w) := by
  constructor
  · intro f hf
    rw [exec_write, periphWrite, hf]
  · intro hf
    have hin := periphFault_none_iff.1 hf
    cases hl : s.profile.lookup a.toNat w with
    | none => exact ⟨_, exec_write_raw hin hl d⟩
    | some e =>
      obtain ⟨c, hcls, -⟩ := Profile.lookup_class hwf hl
      exact ⟨_, exec_write_doc hin hl hcls d⟩

theorem exec_drd32_answers (s : State) (a : Word) : AnswersCheck (exec (.drd32 a) s) (dmaFault s.profile 0x0A a) :=
  ⟨fun _ hf => exec_drd32_fault hf, fun hf => ⟨_, exec_drd32_next (dmaFault_none_iff.1 hf)⟩⟩

/-- A DWR32 that fails a check stops with that check's fault (43_dma.md R222). -/
theorem exec_dwr32_fault {s : State} {a : Word} {f : Fault} (h : dmaFault s.profile 0x1A a = some f) (d : Word) :
    exec (.dwr32 a d) s = .fault f := by
  simp only [exec, execDwr32, h]

theorem exec_dwr32_answers (s : State) (a d : Word) : AnswersCheck (exec (.dwr32 a d) s) (dmaFault s.profile 0x1A a) :=
  ⟨fun _ hf => exec_dwr32_fault hf d, fun hf => ⟨_, exec_dwr32_next (dmaFault_none_iff.1 hf) d⟩⟩

/-! ### The access commands by their bytes -/

/-- The bytes of an access by its SZ field (30_encoding.md R92). -/
def accessBytes (c : Byte) : Nat := if cmdSz c = 0 then 1 else if cmdSz c = 1 then 2 else 4

/-- The size of the window an access names by its WIN field (R91). -/
def accessSize (p : Profile) (c : Byte) : Nat := if cmdWin c then p.dmaSize else p.periphSize

/-- The checks of an access command of legal width: presence, alignment, bounds (60_exceptions.md R272). -/
def accessFault (p : Profile) (c : Byte) (a : Word) : Option Fault :=
  if cmdWin c = true ∧ p.hasDma = false then some (.noWindow c a)
  else contractFault c a (accessBytes c) (accessSize p c)

/-- In the DMA window these are the checks of 43_dma.md R222. -/
theorem accessFault_of_dma {p : Profile} {c : Byte} (a : Word) (hwin : cmdWin c = true) (hsz : cmdSz c = 2) :
    accessFault p c a = dmaFault p c a := by
  cases hd : p.hasDma <;> simp [accessFault, dmaFault, accessBytes, accessSize, hwin, hsz, hd]

/-- The access commands of legal width are eight bytes of the table (30_encoding.md R93). -/
theorem access_command_bytes : ∀ c : Byte, cmdRsv c = false → cmdOp c ≤ 1 →
    (cmdSz c = 2 ∨ (cmdWin c = false ∧ cmdSz c < 2)) →
    c = 0x00 ∨ c = 0x01 ∨ c = 0x02 ∨ c = 0x10 ∨ c = 0x11 ∨ c = 0x12 ∨ c = 0x0A ∨ c = 0x1A := by
  decide

/-- A transaction word is put together from its fields. -/
theorem transaction_eq (t : Transaction) {c : Byte} (hc : t.cmd = c) :
    t = { word := transactionWord c t.a t.d, image := t.image } := by
  subst hc
  have hword : t.word = transactionWord t.cmd t.a t.d := by
    apply BitVec.eq_of_toNat_eq
    have := t.word.isLt
    simp only [transactionWord_toNat, Transaction.cmd, Transaction.a, Transaction.d, BitVec.extractLsb'_toNat,
      Nat.shiftRight_eq_div_pow]
    omega
  rw [← hword]

/-- A step at an access command of legal width answers its checks. -/
theorem step_access_answers {s : State} {t : Transaction} {rest : List Transaction} (hwf : s.profile.wf = true)
    (hin : s.input = t :: rest) (hrsv : cmdRsv t.cmd = false) (hop : cmdOp t.cmd ≤ 1)
    (hsz : cmdSz t.cmd = 2 ∨ (cmdWin t.cmd = false ∧ cmdSz t.cmd < 2)) :
    AnswersCheck (step s) (accessFault s.profile t.cmd t.a) := by
  have hstep : ∀ {i}, decode { word := transactionWord t.cmd t.a t.d, image := t.image } = .ok i →
      step s = exec i (s.withInput rest) := fun hd =>
    step_of_decode_ok hwf hin ((congrArg decode (transaction_eq t rfl)).trans hd)
  have hread := exec_read_answers (s.withInput rest)
  have hwrite := exec_write_answers (s := s.withInput rest) hwf
  rcases access_command_bytes t.cmd hrsv hop hsz with hc | hc | hc | hc | hc | hc | hc | hc <;> rw [hc] at hstep ⊢
  · rw [hstep (decode_read _ _ _ .w8)]; exact hread .w8 t.a
  · rw [hstep (decode_read _ _ _ .w16)]; exact hread .w16 t.a
  · rw [hstep (decode_read _ _ _ .w32)]; exact hread .w32 t.a
  · rw [hstep (decode_write _ _ _ .w8)]; exact hwrite .w8 t.a t.d
  · rw [hstep (decode_write _ _ _ .w16)]; exact hwrite .w16 t.a t.d
  · rw [hstep (decode_write _ _ _ .w32)]; exact hwrite .w32 t.a t.d
  · rw [hstep (decode_drd32 _ _ _), accessFault_of_dma t.a rfl rfl]; exact exec_drd32_answers _ t.a
  · rw [hstep (decode_dwr32 _ _ _), accessFault_of_dma t.a rfl rfl]; exact exec_dwr32_answers _ t.a t.d

/-- A step at a host command that is no RESTORE completes. -/
theorem step_host_next {s : State} {t : Transaction} {rest : List Transaction} (hwf : s.profile.wf = true)
    (hin : s.input = t :: rest) (hrsv : cmdRsv t.cmd = false) (hlow : 2 ≤ cmdOp t.cmd) (hhigh : cmdOp t.cmd < 8)
    (hfields : cmdWin t.cmd = false ∧ cmdSz t.cmd = 0) : ∃ u, step s = .next u := by
  have hstep : ∀ {i}, decodeHost t (cmdOp t.cmd) = .ok i → step s = exec i (s.withInput rest) := fun hd =>
    step_of_decode_ok hwf hin ((decode_of_host rfl hrsv hlow hfields.1 hfields.2).trans hd)
  have hcases : cmdOp t.cmd = 2 ∨ cmdOp t.cmd = 3 ∨ cmdOp t.cmd = 4 ∨ cmdOp t.cmd = 5 ∨ cmdOp t.cmd = 6 ∨
    cmdOp t.cmd = 7 := by omega
  rcases hcases with h | h | h | h | h | h <;> rw [h] at hstep
  · rw [hstep rfl]
    cases hen : (s.withInput rest).rtcEnabled with
    | false => exact ⟨_, exec_tick_of_disabled hen⟩
    | true => exact ⟨_, exec_tick_of_enabled hen⟩
  all_goals exact ⟨_, hstep rfl⟩

/-- Settles O7: the decoder's two faults, then the checks of an access in their order; without a fault an access
completes by its checks, and a host command by its meaning. -/
theorem faultsComeInTheSpecsOrder : Obligations.FaultsComeInTheSpecsOrder := by
  intro s t rest hwf hin c access n size illegal badWidth noWindow misaligned outside
  have hlegal : ¬illegal → cmdRsv c = false ∧ cmdOp c < 9 ∧ (2 ≤ cmdOp c → cmdWin c = false ∧ cmdSz c = 0) := by
    intro h
    simp only [illegal, not_or, not_and, not_le, Bool.not_eq_true, ne_eq, Decidable.not_not] at h
    exact ⟨h.2.1, h.1, h.2.2⟩
  have hsz : access → ¬badWidth → cmdSz c = 2 ∨ (cmdWin c = false ∧ cmdSz c < 2) := by
    intro hop hbad
    have hlt : cmdSz c < 4 := by rw [cmdSz_eq]; omega
    cases hwin : cmdWin c <;> simp only [badWidth, hop, hwin, true_and] at hbad ⊢ <;> omega
  have hanswers : ¬illegal → ¬badWidth → access → AnswersCheck (step s) (accessFault s.profile c t.a) :=
    fun hill hbad hop => step_access_answers hwf hin (hlegal hill).1 hop (hsz hop hbad)
  have hpresent : access → ¬noWindow → accessFault s.profile c t.a = contractFault c t.a n size :=
    fun hop hno => if_neg (fun hw => hno ⟨hop, hw⟩)
  have haligned : access → ¬misaligned → t.a.toNat % n = 0 := fun hop hmis => not_not.1 (fun h => hmis ⟨hop, h⟩)
  refine ⟨fun hill => step_of_decode_error hwf hin (decode_of_illegal hill), fun hill hbad => ?badWidth,
    fun hill hbad hno => ?noWindow, fun hill hbad hno hmis => ?misaligned,
    fun hill hbad hno hmis hout => ?outside, fun hill hbad hno hmis hout hop8 => ?completes⟩
  case badWidth =>
    obtain ⟨hop, hbadsz⟩ := hbad
    have hnot : ¬(cmdSz c = 2 ∨ (cmdWin c = false ∧ cmdSz c < 2)) := by
      rintro (h | ⟨hw, h⟩) <;> rcases hbadsz with h' | ⟨hw', h'⟩
      · omega
      · exact h' h
      · omega
      · simp [hw] at hw'
    exact step_of_decode_error hwf hin ((decode_of_access rfl (hlegal hill).1 hop).trans (decodeAccess_error hnot))
  case noWindow => exact (hanswers hill hbad hno.1).1 _ (if_pos hno.2)
  case misaligned =>
    exact (hanswers hill hbad hmis.1).1 _ ((hpresent hmis.1 hno).trans (contractFault_of_misaligned hmis.2))
  case outside =>
    have hfault := contractFault_of_outside (cmd := c) (haligned hout.1 hmis) hout.2
    exact (hanswers hill hbad hout.1).1 _ ((hpresent hout.1 hno).trans hfault)
  case completes =>
    by_cases hop : access
    · have hinside : t.a.toNat + n ≤ size := not_lt.1 (fun h => hout ⟨hop, h⟩)
      have hnone := contractFault_none_iff (cmd := c).2 ⟨haligned hop hmis, hinside⟩
      exact (hanswers hill hbad hop).2 ((hpresent hop hno).trans hnone)
    · obtain ⟨hrsv, hop9, hfields⟩ := hlegal hill
      have hlow : 2 ≤ cmdOp c := not_le.1 hop
      exact step_host_next hwf hin hrsv hlow (lt_of_le_of_ne (Nat.le_of_lt_succ hop9) hop8) (hfields hlow)

end Sys2Proof.Machine
end

section
/-! PROOFS. The statements about runs (spec/44_host.md R252, R254). -/

namespace Sys2Proof.Machine

/-! ### Lists of instructions -/

/-- One outcome and then what follows it: only a next state goes on. -/
def thenRun (o : Outcome) (f : State → Outcome) : Outcome :=
  match o with
  | .next t => f t
  | .fault r => .fault r
  | .refused r => .refused r

theorem execAll_cons (i : Instr) (is : List Instr) (s : State) :
    execAll (i :: is) s = thenRun (exec i s) (execAll is) := by
  cases h : exec i s <;> simp only [execAll, thenRun, h]

/-- A run of two lists is the run of the first and then that of the second. -/
theorem execAll_append (before after : List Instr) (s : State) :
    execAll (before ++ after) s = thenRun (execAll before s) (execAll after) := by
  induction before generalizing s with
  | nil => rfl
  | cons i is ih =>
    rw [List.cons_append, execAll_cons, execAll_cons]
    cases exec i s with
    | next t => exact ih t
    | fault f => rfl
    | refused r => rfl

theorem execAll_singleton (i : Instr) (s : State) : execAll [i] s = exec i s := by
  rw [execAll_cons]
  cases exec i s <;> rfl

/-- Settles O46: the composition of runs, by the three outcomes of the first. -/
theorem runsGoInOrderAndStopAtTheFirstFault : Obligations.RunsGoInOrderAndStopAtTheFirstFault := by
  refine ⟨fun s => rfl, execAll_singleton, fun before after s => ⟨fun t h => ?_, fun f h => ?_, fun r h => ?_⟩⟩ <;>
    rw [execAll_append, h] <;> rfl

/-! ### Observed runs -/

section
variable {s u : State} {t : Transaction} {ts : List Transaction}

/-- A state whose input is the list already. -/
theorem observeRun_input (u : State) : u.observeRun u.input = u.run.observe := rfl

theorem input_of_step (h : step (s.withInput (t :: ts)) = .next u) : u.input = ts := by
  obtain ⟨-, t', hin⟩ := step_profile_input h
  exact (List.cons.inj hin).2.symm

/-- A transaction that completes hands over to the rest (44_host.md R254). -/
theorem run_cons_next (h : step (s.withInput (t :: ts)) = .next u) : (s.withInput (t :: ts)).run = u.run := by
  rw [State.run, State.withInput_input, List.length_cons, runSteps_next _ h, State.run, input_of_step h]

theorem observeRun_cons_next (h : step (s.withInput (t :: ts)) = .next u) :
    s.observeRun (t :: ts) = u.observeRun ts := by
  rw [State.observeRun, run_cons_next h, ← input_of_step h, observeRun_input]

/-- A transaction that faults shows the state it found (60_exceptions.md R270). -/
theorem observeRun_cons_fault {f : Fault} (h : step (s.withInput (t :: ts)) = .fault f) :
    s.observeRun (t :: ts) = RunResult.observe { final := s, ending := .faulted f } := by
  rw [State.observeRun, State.run, State.withInput_input, List.length_cons, runSteps_fault _ h]
  rfl

theorem observeRun_cons_refused {r : Refusal} (h : step (s.withInput (t :: ts)) = .refused r) :
    s.observeRun (t :: ts) = RunResult.observe { final := s, ending := .refused r } := by
  rw [State.observeRun, State.run, State.withInput_input, List.length_cons, runSteps_refused _ h]
  rfl

/-- Transactions added at the end do not change what the first one does. -/
theorem step_append (after : List Transaction) :
    step (s.withInput (t :: (ts ++ after))) =
      mapNext (State.reframe (ts ++ after) [] []) (step (s.withInput (t :: ts))) := step_rest s t ts (ts ++ after)

end

/-- A run that completes hands its last state over to the transactions after it; one that does not is the whole run. -/
theorem observeRun_append (before after : List Transaction) (s : State) :
    s.observeRun (before ++ after) =
      if (s.observeRun before).ending = .completed then (s.withInput before).run.final.observeRun after
      else s.observeRun before := by
  induction before generalizing s with
  | nil => rfl
  | cons t ts ih =>
    have happend := step_append (s := s) (t := t) (ts := ts) after
    rw [List.cons_append]
    cases h : step (s.withInput (t :: ts)) with
    | next u =>
      rw [h] at happend
      have hu : u.withInput ts = u := by rw [← input_of_step h]; rfl
      have hih := ih u
      rw [hu] at hih
      rw [observeRun_cons_next happend, observeRun_cons_next h, run_cons_next h, ← hih]
      rfl
    | fault f =>
      rw [h] at happend
      rw [observeRun_cons_fault happend, observeRun_cons_fault h]
      rfl
    | refused r =>
      rw [h] at happend
      rw [observeRun_cons_refused happend, observeRun_cons_refused h]
      rfl

/-- Settles O51: the equations of the observation, for the empty run, the first transaction, and a run cut in two. -/
theorem runsAreObservedToTheirEnd : Obligations.RunsAreObservedToTheirEnd := by
  intro s seen
  refine ⟨rfl, fun t ts u h => observeRun_cons_next h, fun t ts f h => observeRun_cons_fault h,
    fun before after h => ?_, fun before after h => ?_⟩
  · rw [observeRun_append, if_pos h]
  · rw [observeRun_append, if_neg h]

/-! ### Runs of encodings -/

/-- A step at an encoding does the instruction, whatever transactions come after it. -/
theorem step_encode {s : State} (hwf : s.profile.wf = true) (i : Instr) (rest : List Transaction) :
    step (s.withInput (encode i :: rest)) = mapNext (State.reframe rest [] []) (exec i s) :=
  (step_of_decode_ok (s := s.withInput (encode i :: rest)) hwf rfl (decodeOfEncodeIsTheInstruction i)).trans
    (exec_reframe rest [] [] i s)

/-- Settles O52: by induction on the list; each encoding decodes to its instruction. -/
theorem runsOfEncodingsAreTheirExecutions : Obligations.RunsOfEncodingsAreTheirExecutions := by
  intro s is hwf
  induction is generalizing s with
  | nil =>
    refine ⟨fun t h => ?_, fun f h => ?_, fun r h => ?_⟩ <;> cases h
    rfl
  | cons i is ih =>
    have hstep := step_encode hwf i (is.map encode)
    rw [List.map_cons, execAll_cons]
    cases hexec : exec i s with
    | next u =>
      rw [hexec] at hstep
      have hrest := ih u ((exec_profile_input hexec).1 ▸ hwf)
      rw [observeRun_cons_next hstep]
      exact hrest
    | fault f =>
      rw [hexec] at hstep
      rw [observeRun_cons_fault hstep]
      refine ⟨fun t h => ?_, fun f' h => ?_, fun r h => ?_⟩ <;> cases h
      rfl
    | refused r =>
      rw [hexec] at hstep
      rw [observeRun_cons_refused hstep]
      refine ⟨fun t h => ?_, fun f h => ?_, fun r' h => ?_⟩ <;> cases h
      rfl

/-! ### Runs after RESET -/

/-- A run does the same whatever outputs stand before its own. -/
theorem runSteps_reframe (es : List Event) (rs : List Response) (n : Nat) (s : State) :
    runSteps n (s.reframe s.input es rs) =
      { final := (runSteps n s).final.reframe (runSteps n s).final.input es rs, ending := (runSteps n s).ending } := by
  induction n generalizing s with
  | zero => rfl
  | succ n ih =>
    have hstep := step_reframe es rs s
    cases h : step s with
    | next u =>
      rw [h] at hstep
      rw [runSteps_next n hstep, runSteps_next n h, ih]
    | fault f =>
      rw [h] at hstep
      rw [runSteps_fault n hstep, runSteps_fault n h]
    | refused r =>
      rw [h] at hstep
      rw [runSteps_refused n hstep, runSteps_refused n h]

/-- The DMA window after RESET is the same for all states of a profile: the reset values, or no word. -/
theorem resetDw_congr {s s' : State} (hi : s.Inv) (hi' : s'.Inv) (hp : s.profile = s'.profile) :
    resetDw s.profile s.dw = resetDw s.profile s'.dw := by
  by_cases hd : s.profile.hasDma = true
  · simp only [resetDw, hd, if_true]
  · have hempty : ∀ u : State, u.Inv → u.profile = s.profile → u.dw = [] := by
      intro u hu hup
      refine Memory.ext hu.dwWf rfl (fun j => ?_)
      have hsize : dmaWords u.profile = 0 := by rw [dmaWords, hup, if_neg hd]
      exact Memory.read_eq_zero_of_below hu.dwBelow (hsize ▸ Nat.zero_le j)
    rw [hempty s hi rfl, hempty s' hi' hp.symm]

/-- The state after RESET with transactions to come, without the outputs from before. -/
def State.afterReset (s : State) (ts : List Transaction) : State :=
  { resetAll s with input := ts, events := [], responses := [Response.word 0] }

/-- It depends on the profile and the calendar bytes alone (70_reset_and_hazards.md R305). -/
theorem afterReset_congr {s s' : State} (hi : s.Inv) (hi' : s'.Inv) (hp : s.profile = s'.profile)
    (hcal : ∀ i, isCalendar s.profile i = true → Memory.read s.rf i = Memory.read s'.rf i) (ts : List Transaction) :
    s.afterReset ts = s'.afterReset ts := by
  have hrf : resetRf s.profile s.rf = resetRf s'.profile s'.rf :=
    hp ▸ resetRf_congr s.profile hi.rfWf hi'.rfWf hcal
  have hdw : resetDw s.profile s.dw = resetDw s'.profile s'.dw := (resetDw_congr hi hi' hp).trans (by rw [hp])
  have hclock : ((s.withRf (resetRf s.profile s.rf)).withDw (resetDw s.profile s.dw)).derivedClock =
      ((s'.withRf (resetRf s'.profile s'.rf)).withDw (resetDw s'.profile s'.dw)).derivedClock :=
    derivedClock_congr hp hrf
  simp only [State.afterReset, resetAll_profile, resetAll_rf, resetAll_dw, resetAll_freqHz, resetAll_refCyc]
  rw [hclock, hrf, hdw, hp]

/-- The observation of a run after RESET: that of the run from `afterReset`, behind the outputs from before. -/
theorem observeRun_reset {s : State} (hwf : s.profile.wf = true) (ts : List Transaction) :
    s.observeRun (encode .reset :: ts) =
      { (s.afterReset ts).run.observe with
        responses := s.responses ++ (s.afterReset ts).run.observe.responses
        events := s.events ++ (s.afterReset ts).run.observe.events } := by
  have hstep : step (s.withInput (encode .reset :: ts)) =
      .next ((s.afterReset ts).reframe ts s.events s.responses) := by
    rw [step_encode hwf, exec_reset]
    simp [mapNext, State.afterReset, State.reframe]
  rw [observeRun_cons_next hstep]
  exact congrArg RunResult.observe (runSteps_reframe s.events s.responses ts.length (s.afterReset ts))

/-- Settles O53: from equal calendar bytes RESET leaves the same state but for the outputs, which no run reads. -/
theorem runsAfterResetAreReproducible : Obligations.RunsAfterResetAreReproducible := by
  intro s s' ts hi hi' hp hcal o o'
  have ho : o = _ := observeRun_reset hi.profileWf ts
  have ho' : o' = _ := observeRun_reset hi'.profileWf ts
  rw [← afterReset_congr hi hi' hp hcal] at ho'
  rw [ho, ho']
  exact ⟨rfl, rfl, rfl, rfl, rfl, ⟨_, rfl, rfl⟩, ⟨_, rfl, rfl⟩⟩

end Sys2Proof.Machine
end

section
/-! PROOFS. The statements of spec/20_memory.md: mixed widths and the canonical form; and of spec/40_access.md: reads,
queries and the events they emit. -/

namespace Sys2Proof.Machine

/-! ### Memories -/

/-- The upper half of a word, as a number. -/
theorem toNat_memRead_w16_next (rf : Memory 8) (off : Nat) :
    (memRead rf (off + 2) .w16).toNat = (Memory.read rf (off + 2)).toNat * 2 ^ 8 + (Memory.read rf (off + 3)).toNat :=
  (memRead_toNat rf (off + 2)).2.1

/-- A word is its two halfwords, the first one above the second (20_memory.md R61). -/
theorem memRead_w32_eq_or (rf : Memory 8) (off : Nat) :
    memRead rf off .w32 = (memRead rf off .w16 <<< 16) ||| memRead rf (off + 2) .w16 := by
  obtain ⟨-, h16, h32⟩ := memRead_toNat rf off
  have hnext := toNat_memRead_w16_next rf off
  have hhigh : (memRead rf off .w16).toNat < 2 ^ 16 := toNat_memRead_lt rf off .w16
  have hlow : (memRead rf (off + 2) .w16).toNat < 2 ^ 16 := toNat_memRead_lt rf (off + 2) .w16
  have hshift : (memRead rf off .w16 <<< 16).toNat = (memRead rf off .w16).toNat <<< 16 := by
    rw [BitVec.toNat_shiftLeft, Nat.mod_eq_of_lt (by rw [Nat.shiftLeft_eq]; omega)]
  apply BitVec.eq_of_toNat_eq
  rw [BitVec.toNat_or, hshift, ← Nat.shiftLeft_add_eq_or_of_lt hlow, Nat.shiftLeft_eq, h32, h16, hnext]
  omega

/-- The bytes and the lower half of wider reads (R61). -/
theorem parts_of_memRead (rf : Memory 8) (off : Nat) :
    Memory.read rf off = (memRead rf off .w16).extractLsb' 8 8 ∧
      Memory.read rf off = (memRead rf off .w32).extractLsb' 24 8 ∧
      memRead rf (off + 2) .w16 = ((memRead rf off .w32).extractLsb' 0 16).setWidth 32 := by
  obtain ⟨-, h16, h32⟩ := memRead_toNat rf off
  have hnext := toNat_memRead_w16_next rf off
  have h0 := (Memory.read rf off).isLt
  have h1 := (Memory.read rf (off + 1)).isLt
  have h2 := (Memory.read rf (off + 2)).isLt
  have h3 := (Memory.read rf (off + 3)).isLt
  refine ⟨?_, ?_, ?_⟩ <;> apply BitVec.eq_of_toNat_eq
  · rw [BitVec.extractLsb'_toNat, Nat.shiftRight_eq_div_pow]; omega
  · rw [BitVec.extractLsb'_toNat, Nat.shiftRight_eq_div_pow]; omega
  · rw [BitVec.toNat_setWidth, BitVec.extractLsb'_toNat, Nat.shiftRight_zero]; omega

/-- The two byte reads of a halfword (R61). -/
theorem toNat_memRead_w8_of_w16 (rf : Memory 8) (off : Nat) :
    (memRead rf off .w8).toNat = (memRead rf off .w16).toNat / 2 ^ 8 ∧
      (memRead rf (off + 1) .w8).toNat = (memRead rf off .w16).toNat % 2 ^ 8 := by
  obtain ⟨h8, h16, -⟩ := memRead_toNat rf off
  obtain ⟨h8', -⟩ := memRead_toNat rf (off + 1)
  have h1 := (Memory.read rf (off + 1)).isLt
  omega

/-- Settles O9: the parts of wider reads; the example's halfword read back gives its two bytes and the upper half. -/
theorem mixedWidthsSeeTheSameBytes : Obligations.MixedWidthsSeeTheSameBytes := by
  refine ⟨fun rf o => ?parts, fun rf hm => ?atPllcr⟩
  case parts =>
    obtain ⟨h16, h32, hlow⟩ := parts_of_memRead rf o
    exact ⟨fun _ => h16, fun _ => h32, hlow⟩
  case atPllcr =>
    intro rf'
    have hhalf : memRead rf' 0x200 .w16 = 0x24B3 := memRead_memWrite_same hm 0x200 .w16 0x24B3
    obtain ⟨hhigh, hlow⟩ := toNat_memRead_w8_of_w16 rf' 0x200
    rw [hhalf] at hhigh hlow
    exact ⟨BitVec.eq_of_toNat_eq hhigh, BitVec.eq_of_toNat_eq hlow, by rw [memRead_w32_eq_or, hhalf]; rfl⟩

/-- Settles O10: extensionality, and the laws of a write. -/
theorem canonicalMemoriesAreDeterminedByTheirReads : Obligations.CanonicalMemoriesAreDeterminedByTheirReads :=
  ⟨fun _ _ _ hm hm' h => Memory.ext hm hm' h,
    fun _ _ a b v hm => ⟨Memory.wf_write hm a v, Memory.read_write hm a v b⟩⟩

/-! ### Reads and queries -/

section
variable {s : State} {off : Nat} {w : Width}

/-- A documented read answers the stored bytes and emits nothing (40_access.md R124). -/
theorem readAt_of_documented (h : (s.profile.lookup off w).isSome = true) :
    readAt off w s = s.respond (Response.word (memRead s.rf off w)) := by
  obtain ⟨e, he⟩ := Option.isSome_iff_exists.1 h
  simp only [readAt, he, State.load]

/-- An undocumented read answers them too, and emits one Diag (R123). -/
theorem readAt_of_undocumented (h : ¬(s.profile.lookup off w).isSome = true) :
    readAt off w s =
      (s.emit (.diag .periph off (memRead s.rf off w) w .read)).respond (Response.word (memRead s.rf off w)) := by
  simp only [readAt, Option.not_isSome_iff_eq_none.1 h, State.load]

end

/-- Settles O11: the two cases of the decoder. -/
theorem readsReturnTheStoredBytes : Obligations.ReadsReturnTheStoredBytes := by
  intro s w a hin
  rw [exec_read_next hin]
  exact ⟨fun hdoc => congrArg Host.Outcome.next (readAt_of_documented hdoc),
    fun hdoc => congrArg Host.Outcome.next (readAt_of_undocumented hdoc)⟩

/-- A read of the peripheral window is no DRD32 and no query. -/
theorem read_ne (w : Width) (a : Word) :
    (∀ b, Instr.read w a ≠ .drd32 b) ∧ Instr.read w a ≠ .qpwr ∧ Instr.read w a ≠ .qfreq := by
  cases w <;> simp [Instr.read]

/-- Settles O12: what each of the four kinds leaves, and the Diag of an undocumented read. -/
theorem readsAndQueriesChangeNoStorage : Obligations.ReadsAndQueriesChangeNoStorage := by
  intro s t i w a hi h
  obtain ⟨hdma, hpwr, hfreq⟩ := read_ne w a
  rcases hi with rfl | rfl | rfl | rfl
  · obtain ⟨-, rfl⟩ := exec_read_inv h
    refine ⟨readAt_rf _ _ _, readAt_dw _ _ _, readAt_freqHz _ _ _, readAt_refCyc _ _ _, readAt_profile _ _ _,
      readAt_input _ _ _, fun _ hdoc => ?_, fun _ hdoc => ?_, fun hi => absurd hi (hdma a),
      fun hi => absurd hi (hdma a), fun hi => ?_⟩
    · rw [readAt_of_documented hdoc]; rfl
    · exact ⟨_, isDiag_diag _ _ _ _ _, congrArg State.events (readAt_of_undocumented hdoc)⟩
    · exact hi.elim (absurd · hpwr) (absurd · hfreq)
  · obtain ⟨-, rfl⟩ := exec_drd32_inv h
    refine ⟨dmaReadAt_rf _ _, dmaReadAt_dw _ _, dmaReadAt_freqHz _ _, dmaReadAt_refCyc _ _, dmaReadAt_profile _ _,
      dmaReadAt_input _ _, fun hi => absurd hi.symm (hdma a), fun hi => absurd hi.symm (hdma a), fun _ hreg => ?_,
      fun _ hraw => ?_, fun hi => hi.elim nofun nofun⟩
    · rw [dmaReadAt_events, if_pos hreg]
    · exact ⟨_, isDiag_diag _ _ _ _ _, congrArg State.events (dmaReadAt_of_none hraw)⟩
  · cases h
    exact ⟨rfl, rfl, rfl, rfl, rfl, rfl, fun hi => absurd hi.symm hpwr, fun hi => absurd hi.symm hpwr, nofun, nofun,
      fun _ => rfl⟩
  · cases h
    exact ⟨rfl, rfl, rfl, rfl, rfl, rfl, fun hi => absurd hi.symm hfreq, fun hi => absurd hi.symm hfreq, nofun, nofun,
      fun _ => rfl⟩

/-! ### Events and responses -/

/-- The transaction is an access that its decoder finds no entry or register for (40_access.md R133; 43_dma.md R227). -/
def Undocumented (p : Profile) : Instr → Prop
  | .rd8 a => ¬documented p .w8 a
  | .rd16 a => ¬documented p .w16 a
  | .rd32 a => ¬documented p .w32 a
  | .wr8 a _ => ¬documented p .w8 a
  | .wr16 a _ => ¬documented p .w16 a
  | .wr32 a _ => ¬documented p .w32 a
  | .drd32 a => ddesc p a.toNat = none
  | .dwr32 a _ => ddesc p a.toNat = none
  | .tick => False
  | .clk32 => False
  | .setrtc _ _ _ _ => False
  | .reset => False
  | .qpwr => False
  | .qfreq => False
  | .restore _ => False

theorem Undocumented.read_iff (p : Profile) (w : Width) (a : Word) :
    Undocumented p (Instr.read w a) ↔ ¬documented p w a := by
  cases w <;> rfl

theorem Undocumented.write_iff (p : Profile) (w : Width) (a d : Word) :
    Undocumented p (Instr.write w a d) ↔ ¬documented p w a := by
  cases w <;> rfl

theorem Width.exists_iff {P : Width → Prop} : (∃ w, P w) ↔ P .w8 ∨ P .w16 ∨ P .w32 := by
  constructor
  · rintro ⟨w, h⟩
    cases w
    · exact .inl h
    · exact .inr (.inl h)
    · exact .inr (.inr h)
  · rintro (h | h | h) <;> exact ⟨_, h⟩

/-- The undocumented accesses by the form of the transaction. -/
theorem undocumented_iff (p : Profile) (i : Instr) :
    Undocumented p i ↔
      (∃ w a, i = Instr.read w a ∧ ¬documented p w a) ∨ (∃ w a d, i = Instr.write w a d ∧ ¬documented p w a) ∨
        (∃ a, i = .drd32 a ∧ ddesc p a.toNat = none) ∨ (∃ a d, i = .dwr32 a d ∧ ddesc p a.toNat = none) := by
  cases i <;> simp [Undocumented, Width.exists_iff, Instr.read, Instr.write]

/-- What a transaction that completes appends to the event stream. -/
inductive Emits (s : State) (i : Instr) (t : State) : Prop
  | diag (e : Event) (hu : Undocumented s.profile i) (he : isDiag e = true) (ht : t.events = s.events ++ [e])
  | nothing (hu : ¬Undocumented s.profile i) (ht : t.events = s.events)
  | endTimeslice (w : Width) (a d : Word) (e : Descriptor) (hi : i = Instr.write w a d)
      (hl : s.profile.lookup a.toNat w = some e) (hc : e.cls = SideEffect.power.code) (hd : t.dispLl = true)
      (ht : t.events = s.events ++ [.endTimeslice])
  | dmaCmd (ch : Nat) (v : Word) (hu : ¬Undocumented s.profile i) (ht : t.events = s.events ++ [.dmaCmd ch v])

theorem documented_of_lookup {p : Profile} {w : Width} {a : Word} {e : Descriptor} (hl : p.lookup a.toNat w = some e) :
    documented p w a := Option.isSome_iff_exists.2 ⟨e, hl⟩

/-- The events of a documented write. -/
theorem emits_of_docWrite {s : State} {w : Width} {a d : Word} {e : Descriptor} {c : SideEffect} (v : Word)
    (hl : s.profile.lookup a.toNat w = some e) (hcls : SideEffect.ofCode e.cls = some c) :
    Emits s (Instr.write w a d) ((sideEffect c e a.toNat w v s).respond (Response.word 0)) := by
  rcases sideEffect_events c e a.toNat w v s with hev | ⟨rfl, hdisp, hev⟩
  · exact .nothing (fun hu => (Undocumented.write_iff _ _ _ _).1 hu (documented_of_lookup hl)) hev
  · refine .endTimeslice w a d e rfl hl (SideEffect.code_of_ofCode hcls) ?_ hev
    rw [← hdisp, sideEffect, powerHandler_eq]
    rfl

/-- The event of every way to complete. -/
theorem emits_of_exec {s t : State} {i : Instr} (h : exec i s = .next t) : Emits s i t := by
  cases does_of_exec h with
  | read w a hi hc ht =>
    subst hi ht
    by_cases hdoc : documented s.profile w a
    · exact .nothing (fun hu => (Undocumented.read_iff _ _ _).1 hu hdoc) (by rw [readAt_of_documented hdoc]; rfl)
    · exact .diag _ ((Undocumented.read_iff _ _ _).2 hdoc) rfl (by rw [readAt_of_undocumented hdoc]; rfl)
  | rawWrite w a d hi hc hl ht =>
    subst hi ht
    exact .diag _ ((Undocumented.write_iff _ _ _ _).2 (Option.not_isSome_iff_eq_none.2 hl)) rfl rfl
  | docWrite w a d e c hi hc hl hcls ht =>
    subst hi ht
    exact emits_of_docWrite _ hl hcls
  | dmaRead a hi hc ht =>
    subst hi ht
    cases hr : ddesc s.profile a.toNat with
    | none => exact .diag _ hr rfl (by rw [dmaReadAt_of_none hr]; rfl)
    | some r => exact .nothing (by simp [Undocumented, hr]) (by rw [dmaReadAt_of_some hr]; rfl)
  | dmaWrite a d hi hc ht =>
    subst hi ht
    cases hr : ddesc s.profile a.toNat with
    | none => exact .diag _ hr rfl (dmaWriteAt_events_none hr d)
    | some r =>
      have hu : ¬Undocumented s.profile (.dwr32 a d) := by simp [Undocumented, hr]
      have hev := dmaWriteAt_events_some hr d
      by_cases hk : r.kind = .dcmd
      · exact .dmaCmd _ _ hu (hev.trans (if_pos hk))
      · exact .nothing hu (hev.trans (if_neg hk))
  | tickOff hi hen ht => subst hi ht; exact .nothing id rfl
  | tickOn hi hen ht => subst hi ht; exact .nothing id rfl
  | clk32 hi ht => subst hi ht; exact .nothing id rfl
  | setrtc days hours minutes seconds hi ht => subst hi ht; exact .nothing id rfl
  | reset hi ht => subst hi ht; exact .nothing id rfl
  | qpwr hi ht => subst hi ht; exact .nothing id rfl
  | qfreq hi ht => subst hi ht; exact .nothing id rfl
  | restore img hi hs ht => subst hi ht; exact .nothing id rfl

/-- Settles O15: by the event of each way to complete. -/
theorem onlyUndocumentedAccessesEmitDiag : Obligations.OnlyUndocumentedAccessesEmitDiag := by
  intro s t i h
  simp only [← undocumented_iff]
  cases emits_of_exec h with
  | diag e hu he ht => exact ⟨[e], ht, by simp [he], by simp [he, hu]⟩
  | nothing hu ht => exact ⟨[], by simp [ht], by simp, by simp [hu]⟩
  | endTimeslice w a d e hi hl hc hd ht =>
    have hu : ¬Undocumented s.profile i := by
      rw [hi, Undocumented.write_iff]
      exact not_not_intro (documented_of_lookup hl)
    exact ⟨_, ht, by simp, by simp [hu]⟩
  | dmaCmd ch v hu ht => exact ⟨_, ht, by simp, by simp [hu]⟩

/-- Settles O27: the only event that is an EndTimeslice is that of a POWER write. -/
theorem onlyPllcrWritesEndTheTimeslice : Obligations.OnlyPllcrWritesEndTheTimeslice := by
  intro s t i hwf h
  cases emits_of_exec h with
  | diag e hu he ht => exact ⟨[e], ht, fun hm => by rw [← List.mem_singleton.1 hm] at he; cases he⟩
  | nothing hu ht => exact ⟨[], by simp [ht], nofun⟩
  | endTimeslice w a d e hi hl hc hd ht =>
    obtain ⟨hoff, rfl⟩ := (Profile.power_iff hwf hl).1 hc
    exact ⟨_, ht, fun _ => ⟨rfl, by rw [State.isPowered, hd]; rfl, a, d, hi, hoff⟩⟩
  | dmaCmd ch v hu ht => exact ⟨_, ht, fun hm => by cases List.mem_singleton.1 hm⟩

end Sys2Proof.Machine
end

section
/-! PROOFS. The statements of spec/40_access.md about writes: their width, their frame, the read-back, the kept bits and
the chip identifier; and the responses. -/

namespace Sys2Proof.Machine

/-! ### Responses -/

/-- What is said of the response of a transaction (30_encoding.md R97). -/
def RespondsAsSpecified (s : State) (i : Instr) (t : State) : Prop :=
  ∃ r, t.responses = s.responses ++ [r] ∧
    (i ≠ .qfreq → r.q1 = none) ∧ (i = .qfreq → r.q1 ≠ none) ∧ (i = .qpwr → r.q0 = 0 ∨ r.q0 = 1) ∧
    ((∀ w a, i ≠ Instr.read w a) → (∀ a, i ≠ .drd32 a) → i ≠ .qpwr → i ≠ .qfreq → r.q0 = 0)

section
variable {s t : State} {i : Instr}

/-- A transaction that is no query may answer 0. -/
theorem responds_of_zero (hi : i ≠ .qfreq) (h : t.responses = s.responses ++ [Response.word 0]) :
    RespondsAsSpecified s i t :=
  ⟨_, h, fun _ => rfl, fun hq => absurd hq hi, fun _ => .inl rfl, fun _ _ _ _ => rfl⟩

/-- A read may answer any one word. -/
theorem responds_of_read {v : Word} (hi : (∃ w a, i = Instr.read w a) ∨ ∃ a, i = .drd32 a)
    (h : t.responses = s.responses ++ [Response.word v]) : RespondsAsSpecified s i t := by
  have hne : i ≠ .qpwr ∧ i ≠ .qfreq := by
    rcases hi with ⟨w, a, rfl⟩ | ⟨a, rfl⟩
    · exact (read_ne w a).2
    · exact ⟨nofun, nofun⟩
  refine ⟨_, h, fun _ => rfl, fun hq => absurd hq hne.2, fun hq => absurd hq hne.1, fun hread hdma _ _ => ?_⟩
  rcases hi with ⟨w, a, hi⟩ | ⟨a, hi⟩
  · exact absurd hi (hread w a)
  · exact absurd hi (hdma a)

theorem write_ne_qfreq (w : Width) (a d : Word) : Instr.write w a d ≠ .qfreq := by
  cases w <;> simp [Instr.write]

/-- The response of every way to complete. -/
theorem responds_of_exec (h : exec i s = .next t) : RespondsAsSpecified s i t := by
  cases does_of_exec h with
  | read w a hi hc ht => exact responds_of_read (.inl ⟨w, a, hi⟩) (by rw [ht, readAt_responses])
  | dmaRead a hi hc ht => exact responds_of_read (.inr ⟨a, hi⟩) (by rw [ht, dmaReadAt_responses])
  | rawWrite w a d hi hc hl ht => exact responds_of_zero (hi ▸ write_ne_qfreq w a d) (by rw [ht]; rfl)
  | docWrite w a d e c hi hc hl hcls ht =>
    exact responds_of_zero (hi ▸ write_ne_qfreq w a d) (by rw [ht, State.respond_responses, sideEffect_responses])
  | dmaWrite a d hi hc ht => exact responds_of_zero (hi ▸ nofun) (by rw [ht, dmaWriteAt_responses])
  | qpwr hi ht =>
    subst hi ht
    refine ⟨_, rfl, fun _ => rfl, nofun, fun _ => ?_, fun _ _ hne => absurd rfl hne⟩
    cases s.isPowered
    · exact .inl rfl
    · exact .inr rfl
  | qfreq hi ht =>
    subst hi ht
    exact ⟨_, rfl, fun hne => absurd rfl hne, fun _ => nofun, nofun, fun _ _ _ hne => absurd rfl hne⟩
  | tickOff hi hen ht => exact responds_of_zero (hi ▸ nofun) (by rw [ht]; rfl)
  | tickOn hi hen ht => exact responds_of_zero (hi ▸ nofun) (by rw [ht]; rfl)
  | clk32 hi ht => exact responds_of_zero (hi ▸ nofun) (by rw [ht]; rfl)
  | setrtc days hours minutes seconds hi ht => exact responds_of_zero (hi ▸ nofun) (by rw [ht]; rfl)
  | reset hi ht => exact responds_of_zero (hi ▸ nofun) (by rw [ht]; rfl)
  | restore img hi hs ht => exact responds_of_zero (hi ▸ nofun) (by rw [ht]; rfl)

/-- A transaction appends at most one event. -/
theorem events_append_of_exec (h : exec i s = .next t) : ∃ evs, t.events = s.events ++ evs ∧ evs.length ≤ 1 := by
  cases emits_of_exec h with
  | diag e hu he ht => exact ⟨_, ht, le_rfl⟩
  | nothing hu ht => exact ⟨[], by rw [ht, List.append_nil], Nat.zero_le 1⟩
  | endTimeslice w a d e hi hl hc hd ht => exact ⟨_, ht, le_rfl⟩
  | dmaCmd ch v hu ht => exact ⟨_, ht, le_rfl⟩

end

/-- Settles O45: profile and input, events and responses, each by its own lemma. -/
theorem outputsAreAppendOnly : Obligations.OutputsAreAppendOnly := fun _ _ _ h =>
  ⟨(exec_profile_input h).1, (exec_profile_input h).2, events_append_of_exec h, responds_of_exec h⟩

/-! ### The width and the frame of a write -/

theorem cmd_write (w : Width) (a d d' : Word) : (Instr.write w a d).cmd = (Instr.write w a d').cmd := by
  cases w <;> rfl

/-- Settles O16: a write takes only the truncation of D, which is D modulo 2^w. -/
theorem highDataBitsAreIgnored : Obligations.HighDataBitsAreIgnored := by
  intro s w a d d' h
  have htrunc : truncTo w d = truncTo w d' := by rw [truncTo_eq_ofNat, truncTo_eq_ofNat, h]
  rw [exec_write, exec_write, cmd_write w a d d', periphWrite, periphWrite, htrunc]

/-- A write that meets neither CLOCK nor POWER leaves the clock state. -/
theorem clock_of_write {s t : State} {w : Width} {a d : Word} (h : exec (Instr.write w a d) s = .next t)
    (hcls : ∀ e, s.profile.lookup a.toNat w = some e → e.cls ≠ 1 ∧ e.cls ≠ 2) :
    t.freqHz = s.freqHz ∧ t.refCyc = s.refCyc := by
  obtain ⟨-, ⟨-, rfl⟩ | ⟨e, c, hl, hc, rfl⟩⟩ := exec_write_inv h
  · exact ⟨rfl, rfl⟩
  · obtain ⟨hclock, hpower⟩ := hcls e hl
    have hcode := SideEffect.code_of_ofCode hc
    refine (sideEffect_clock c e _ w _ s).1 ?_ ?_
    · rintro rfl
      exact hpower hcode
    · rintro rfl
      exact absurd hcode hclock

/-- A write answers 0, and leaves DW, the profile and the input. -/
theorem write_leaves {s t : State} {w : Width} {a d : Word} (h : exec (Instr.write w a d) s = .next t) :
    t.dw = s.dw ∧ t.profile = s.profile ∧ t.input = s.input ∧ t.responses = s.responses ++ [Response.word 0] := by
  obtain ⟨-, ⟨-, rfl⟩ | ⟨e, c, -, -, rfl⟩⟩ := exec_write_inv h
  · exact ⟨rfl, rfl, rfl, rfl⟩
  · exact ⟨sideEffect_dw .., sideEffect_profile .., sideEffect_input .., by
      rw [State.respond_responses, sideEffect_responses]⟩

/-- Settles O17: the bytes by `write_rf`, the other fields and the clock state by their own lemmas. -/
theorem writeFrame : Obligations.WriteFrame := by
  intro s t w a d hi h
  obtain ⟨-, -, hframe⟩ := write_rf hi h
  obtain ⟨hdw, hprofile, hinput, hresp⟩ := write_leaves h
  exact ⟨hframe, hdw, hprofile, hinput, hresp, clock_of_write h⟩

/-! ### What a documented write reads back -/

section
variable {s : State} {e : Descriptor} {c : SideEffect} {off : Nat} {w : Width}

/-- The classes that store, CLOCK with PROT clear among them. -/
theorem sideEffect_rf_of_storing (hwf : s.profile.wf = true) (hl : s.profile.lookup off w = some e)
    (hc : e.cls = c.code) (hstore : c ≠ .fixed ∧ (c = .clock → s.prot = false)) (v : Word) :
    (sideEffect c e off w v s).rf = (s.maskedStore off w v e).rf := by
  cases c with
  | none => rfl
  | rtc => rfl
  | fixed => exact absurd rfl hstore.1
  | clock => rw [sideEffect_clock_of_not_prot hwf hl hc (hstore.2 rfl), recompute_rf]
  | power => rw [sideEffect_power hwf hl hc]; split <;> rfl

/-- The classes that store nothing: FIXED, and CLOCK with PROT set. -/
theorem sideEffect_rf_of_ignoring (hignore : c = .fixed ∨ (c = .clock ∧ s.prot = true)) (v : Word) :
    (sideEffect c e off w v s).rf = s.rf := by
  rcases hignore with rfl | ⟨rfl, hp⟩
  · rfl
  · rw [sideEffect_clock_of_prot hp]

/-- All-ones through a mask of the width is the mask. -/
theorem ms_ones {W K old : Word} (hW : W.toNat < 2 ^ w.bits) :
    ms old (truncTo w (BitVec.ofNat 32 (2 ^ w.bits - 1))) W K = W ||| (old &&& K) := by
  have hones : truncTo w (BitVec.ofNat 32 (2 ^ w.bits - 1)) &&& W = W := by
    apply BitVec.eq_of_toNat_eq
    rw [BitVec.toNat_and, truncTo_toNat, Nat.and_comm]
    have : (BitVec.ofNat 32 (2 ^ w.bits - 1)).toNat % 2 ^ w.bits = 2 ^ w.bits - 1 := by cases w <;> rfl
    rw [this, Nat.and_two_pow_sub_one_of_lt_two_pow hW]
  rw [ms, hones]

end

/-- A documented write and then a read at the same place: the read answers the bytes that the write left. -/
theorem exec_write_read {s : State} {w : Width} {a d : Word} {e : Descriptor} {c : SideEffect}
    (hin : inContract s.profile w a) (hl : s.profile.lookup a.toNat w = some e) (hc : e.cls = c.code) :
    ∃ t, execAll [Instr.write w a d, Instr.read w a] s = .next t ∧
      t.responses = s.responses ++
        [Response.word 0, Response.word (memRead (sideEffect c e a.toNat w (truncTo w d) s).rf a.toNat w)] := by
  have hcode : SideEffect.ofCode e.cls = some c := by rw [hc, SideEffect.ofCode_code]
  have hwrite := exec_write_doc hin hl hcode d
  have hread := exec_read_next ((exec_profile_input hwrite).1.symm ▸ hin)
  refine ⟨_, by rw [execAll_cons, hwrite]; exact (execAll_singleton _ _).trans hread, ?_⟩
  rw [readAt_responses, State.respond_responses, sideEffect_responses, List.append_assoc]
  rfl

/-- Settles O18: the classes that store give the mask and the kept bits, the others the bytes from before. -/
theorem allOnesReadback : Obligations.AllOnesReadback := by
  intro s w a e hi hin hl old ones
  obtain ⟨c, -, hc⟩ := Profile.lookup_class hi.profileWf hl
  obtain ⟨-, hW, -⟩ := Profile.lookup_masks hi.profileWf hl
  obtain ⟨t, hexec, hresp⟩ := exec_write_read (d := ones) hin hl hc
  refine ⟨t, hexec, fun hstore => ?_, fun hignore => ?_⟩
  · have hclass : c ≠ .fixed ∧ (c = .clock → s.prot = false) := by
      rw [hc] at hstore
      cases c <;> simp_all [SideEffect.code]
    have hread : memRead (sideEffect c e a.toNat w (truncTo w ones) s).rf a.toNat w = e.W ||| (old &&& e.K) := by
      rw [sideEffect_rf_of_storing hi.profileWf hl hc hclass]
      exact (State.load_maskedStore_same hi hl _).trans (ms_ones hW)
    rw [hresp, hread]
    rfl
  · have hclass : c = .fixed ∨ (c = .clock ∧ s.prot = true) := by
      rw [hc] at hignore
      cases c <;> simp_all [SideEffect.code]
    rw [hresp, sideEffect_rf_of_ignoring hclass]
    rfl

end Sys2Proof.Machine
end

section
/-! PROOFS. The statements about single registers: the 32 kHz status bit, the chip identifier and PROT. -/

namespace Sys2Proof.Machine

/-! ### The bytes a transaction can change -/

/-- Byte `k` of RF is one that the transaction can change (10_state.md R20; RESET and RESTORE can change every byte). -/
def Touches (p : Profile) : Instr → Nat → Prop
  | .rd8 _, _ => False
  | .rd16 _, _ => False
  | .rd32 _, _ => False
  | .wr8 a _, k => covers .w8 a k
  | .wr16 a _, k => covers .w16 a k
  | .wr32 a _, k => covers .w32 a k
  | .drd32 _, _ => False
  | .dwr32 _ _, _ => False
  | .tick, k => isCalendar p k = true
  | .clk32, k => p.clk32Off ≤ k ∧ k < p.clk32Off + 2
  | .setrtc _ _ _ _, k => isCalendar p k = true
  | .reset, _ => True
  | .qpwr, _ => False
  | .qfreq, _ => False
  | .restore _, _ => True

theorem Touches.write_iff (p : Profile) (w : Width) (a d : Word) (k : Nat) :
    Touches p (Instr.write w a d) k ↔ covers w a k := by
  cases w <;> rfl

section
variable {s t : State} {i : Instr}

/-- The frame of every transaction in RF. -/
theorem read_of_not_touches (hi : s.Inv) (h : exec i s = .next t) {k : Nat} (hk : ¬Touches s.profile i k) :
    Memory.read t.rf k = Memory.read s.rf k := by
  have hwrite : ∀ {w a d}, i = Instr.write w a d → Memory.read t.rf k = Memory.read s.rf k := by
    rintro w a d rfl
    obtain ⟨-, -, hframe⟩ := write_rf hi h
    exact hframe k (mt (Touches.write_iff _ _ _ _ _).2 hk)
  cases does_of_exec h with
  | read w a hii hc ht => rw [ht, readAt_rf]
  | rawWrite w a d hii hc hl ht => exact hwrite hii
  | docWrite w a d e c hii hc hl hcls ht => exact hwrite hii
  | dmaRead a hii hc ht => rw [ht, dmaReadAt_rf]
  | dmaWrite a d hii hc ht => rw [ht, dmaWriteAt_rf]
  | tickOff hii hen ht => rw [ht]; rfl
  | tickOn hii hen ht => subst hii; rw [ht]; exact read_pack hi.rfWf _ k (Bool.eq_false_iff.2 hk)
  | clk32 hii ht => subst hii; rw [ht]; exact read_memWrite_of_outside (w := .w16) hi.rfWf _ hk
  | setrtc days hours minutes seconds hii ht =>
    subst hii; rw [ht]; exact read_pack hi.rfWf _ k (Bool.eq_false_iff.2 hk)
  | reset hii ht => subst hii; exact absurd trivial hk
  | qpwr hii ht => rw [ht]; rfl
  | qfreq hii ht => rw [ht]; rfl
  | restore img hii hs ht => subst hii; exact absurd trivial hk

/-- A register none of whose bytes the transaction can change. -/
theorem load_of_not_touches (hi : s.Inv) (h : exec i s = .next t) {off : Nat} {w : Width}
    (hn : ∀ k, off ≤ k → k < off + w.bytes → ¬Touches s.profile i k) : t.load off w = s.load off w :=
  memRead_congr (fun k hlow hhigh => read_of_not_touches hi h (hn k hlow hhigh))

end

/-! ### The 32 kHz status bit -/

/-- Settles O19: a 16-bit write at the host finds its entry, and stores nothing or the masked value, which keeps the
bit. -/
theorem writesKeepTheClk32Bit : Obligations.WritesKeepTheClk32Bit := by
  intro s t a d hi ha h
  obtain ⟨e, hl, -⟩ := Profile.clk32_entry hi.profileWf
  rw [← ha] at hl
  obtain ⟨-, ⟨hraw, -⟩ | ⟨e', c, hl', hcls, rfl⟩⟩ := exec_write_inv (w := .w16) h
  · rw [hl] at hraw
    cases hraw
  · have hstatus : ∀ {u : State}, u.profile = s.profile →
        (sideEffect c e' a.toNat .w16 (truncTo .w16 d) s).rf = u.rf →
        ((sideEffect c e' a.toNat .w16 (truncTo .w16 d) s).respond (Response.word 0)).clk32Status = u.clk32Status := by
      intro u hp hrf
      simp only [State.clk32Status, State.load, State.respond_rf, State.respond_profile, sideEffect_profile, hrf, hp]
    rcases sideEffect_rf c e' a.toNat .w16 (truncTo .w16 d) s hi.profileWf hl' hcls with hrf | hrf
    · exact hstatus rfl hrf
    · exact (hstatus (u := s.maskedStore a.toNat .w16 (truncTo .w16 d) e') rfl hrf).trans
        (clk32Status_maskedStore hi ha.symm hl' _)

section
variable {s : State}

/-- CLK32 flips its bit of the host and no other (42_rtc.md R198). -/
theorem getLsbD_load_clk32 {t : State} (hi : s.Inv) (h : exec .clk32 s = .next t) {k : Nat} (hk : k < 16) :
    (t.load s.profile.clk32Off .w16).getLsbD k =
      ((s.load s.profile.clk32Off .w16).getLsbD k ^^ decide (s.profile.bitClk32 = k)) := by
  obtain ⟨-, -, -, -, hbit⟩ := Profile.clk32_entry hi.profileWf
  have hbit32 : s.profile.bitClk32 < 32 := by omega
  cases h
  have hsame := memRead_memWrite_same hi.rfWf s.profile.clk32Off .w16
    (s.load s.profile.clk32Off .w16 ^^^ BitVec.twoPow 32 s.profile.bitClk32)
  refine (congrArg (·.getLsbD k) hsame).trans ?_
  simp only [getLsbD_truncTo, BitVec.getLsbD_xor, BitVec.getLsbD_twoPow, Width.bits, hk, hbit32, decide_true,
    Bool.true_and]

/-- The CLK32 bit is not writable, so a writable bit of PLLFSR is not the one CLK32 flips, where PLLFSR is the host. -/
theorem pllfsr_writable_of_clk32 {t : State} {e : Descriptor} {k : Nat} (hi : s.Inv) (h : exec .clk32 s = .next t)
    (hl : s.profile.lookup s.profile.offPllfsr .w16 = some e) (hk : e.W.getLsbD k = true) :
    (t.load s.profile.offPllfsr .w16).getLsbD k = (s.load s.profile.offPllfsr .w16).getLsbD k := by
  rcases (Profile.clk32_host hi.profileWf).1 with hhost | ⟨-, hapart⟩
  · obtain ⟨e', hl', hW, -⟩ := Profile.clk32_entry hi.profileWf
    rw [hhost, hl] at hl'
    cases hl'
    have hne : s.profile.bitClk32 ≠ k := by
      rintro rfl
      rw [hW] at hk
      cases hk
    have hlt : k < 16 := lt_bits_of_mask (Profile.lookup_masks hi.profileWf hl).2.1 hk
    have hflip := getLsbD_load_clk32 hi h hlt
    rw [hhost, decide_eq_false hne, Bool.xor_false] at hflip
    exact hflip
  · rw [load_of_not_touches hi h]
    intro j hlow hhigh htouch
    have hj : s.profile.clk32Off ≤ j ∧ j < s.profile.clk32Off + 2 := htouch
    simp only [Width.bytes] at hhigh
    omega

/-- The low 12 bits of PLLFSR are writable (00_scope.md R9 e). -/
theorem low_bits_writable {W : Word} (hW : W &&& 0xFFF = 0xFFF) {k : Nat} (hk : k < 12) : W.getLsbD k = true := by
  have h := congrArg (fun x : Word => x.getLsbD k) hW
  have hmask : (0xFFF : Word).getLsbD k = true := by
    rw [BitVec.getLsbD, show (0xFFF : Word).toNat = 2 ^ 12 - 1 from rfl, Nat.testBit_two_pow_sub_one,
      decide_eq_true hk]
  simpa only [BitVec.getLsbD_and, hmask, Bool.and_true] using h

/-- Halfwords with equal low bits. -/
theorem toNat_mod_of_getLsbD {x y : Half} {n : Nat} (h : ∀ k, k < n → x.getLsbD k = y.getLsbD k) :
    x.toNat % 2 ^ n = y.toNat % 2 ^ n := by
  apply Nat.eq_of_testBit_eq
  intro k
  rw [Nat.testBit_mod_two_pow, Nat.testBit_mod_two_pow]
  by_cases hk : k < n
  · have := h k hk
    rw [BitVec.getLsbD, BitVec.getLsbD] at this
    rw [this]
  · simp [hk]

/-- p and q are the low 12 bits of PLLFSR (41_clock_power.md R160), which are writable. -/
theorem pllfsr_low_of_writable {t : State} {e : Descriptor} (hp : t.profile = s.profile) (hW : e.W &&& 0xFFF = 0xFFF)
    (h : ∀ k, k < 12 → e.W.getLsbD k = true →
      (t.load s.profile.offPllfsr .w16).getLsbD k = (s.load s.profile.offPllfsr .w16).getLsbD k) :
    t.pllfsr.toNat % 2 ^ 12 = s.pllfsr.toNat % 2 ^ 12 := by
  refine toNat_mod_of_getLsbD (fun k hk => ?_)
  rw [State.pllfsr, State.pllfsr, State.load, State.load, getLsbD_half, getLsbD_half, hp]
  exact h k hk (low_bits_writable hW hk)

/-- CLK32 leaves the clock state that the registers give (42_rtc.md R198). -/
theorem derivedClock_of_clk32 {t : State} (hi : s.Inv) (h : exec .clk32 s = .next t) :
    t.derivedClock = s.derivedClock := by
  have hp : t.profile = s.profile := (exec_profile_input h).1
  obtain ⟨e, hl, -, -, hlow, -⟩ := Profile.pllfsr_entry hi.profileWf
  have hpllfsr := pllfsr_low_of_writable hp hlow (fun k _ hk => pllfsr_writable_of_clk32 hi h hl hk)
  have hpllcr : t.pllcr = s.pllcr := by
    rw [State.pllcr, State.pllcr, hp, load_of_not_touches hi h]
    intro j hlow hhigh htouch
    have hj : s.profile.clk32Off ≤ j ∧ j < s.profile.clk32Off + 2 := htouch
    have hhost := (Profile.clk32_host hi.profileWf).1
    have happart := (Profile.named_apart hi.profileWf).1
    simp only [Width.bytes] at hhigh
    omega
  rw [State.derivedClock, State.derivedClock, hp]
  exact computeFrequency_congr (by rw [hpllcr]) hpllfsr

/-- A halfword is its 16 bits. -/
theorem memRead_w16_ext {m m' : Memory 8} {off : Nat}
    (h : ∀ k, k < 16 → (memRead m off .w16).getLsbD k = (memRead m' off .w16).getLsbD k) :
    memRead m off .w16 = memRead m' off .w16 := by
  apply BitVec.eq_of_getLsbD_eq
  intro k _
  by_cases hk : k < 16
  · exact h k hk
  · rw [← truncTo_memRead m, ← truncTo_memRead m', getLsbD_truncTo, getLsbD_truncTo, Width.bits,
      decide_eq_false hk, Bool.false_and, Bool.false_and]

/-- The bytes of equal halfwords are equal. -/
theorem read_of_memRead_w16 {m m' : Memory 8} {off : Nat} (h : memRead m off .w16 = memRead m' off .w16) {k : Nat}
    (hk : off ≤ k ∧ k < off + 2) : Memory.read m k = Memory.read m' k := by
  obtain ⟨h8, h8'⟩ := toNat_memRead_w8_of_w16 m off
  obtain ⟨g8, g8'⟩ := toNat_memRead_w8_of_w16 m' off
  rw [h] at h8 h8'
  apply BitVec.eq_of_toNat_eq
  rcases (by omega : k = off ∨ k = off + 1) with rfl | rfl
  · rw [← (memRead_toNat m k).1, ← (memRead_toNat m' k).1, h8, g8]
  · rw [← (memRead_toNat m (off + 1)).1, ← (memRead_toNat m' (off + 1)).1, h8', g8']

/-- Two CLK32 restore every byte: those of the host bit by bit, the others by the frame. -/
theorem rf_of_clk32_twice {t u : State} (hi : s.Inv) (h : exec .clk32 s = .next t) (h' : exec .clk32 t = .next u) :
    u.rf = s.rf := by
  have hp : t.profile = s.profile := (exec_profile_input h).1
  have hit := inv_of_exec hi h
  have hhost : memRead u.rf s.profile.clk32Off .w16 = memRead s.rf s.profile.clk32Off .w16 := by
    refine memRead_w16_ext (fun k hk => ?_)
    have hback := getLsbD_load_clk32 hit h' hk
    rw [hp, getLsbD_load_clk32 hi h hk, Bool.xor_assoc, Bool.xor_self, Bool.xor_false] at hback
    exact hback
  refine Memory.ext (inv_of_exec hit h').rfWf hi.rfWf (fun k => ?_)
  by_cases hk : s.profile.clk32Off ≤ k ∧ k < s.profile.clk32Off + 2
  · exact read_of_memRead_w16 hhost hk
  · have hk' : ¬Touches t.profile .clk32 k := by
      rw [hp]
      exact hk
    rw [read_of_not_touches hit h' hk', read_of_not_touches hi h hk]

end

/-- Settles O34: the flipped bit, the frame of the host's two bytes, and two flips. -/
theorem clk32FlipsOneBit : Obligations.Clk32FlipsOneBit := by
  refine ⟨decode_clk32, fun s hi => ?_⟩
  obtain ⟨-, -, -, -, hbit⟩ := Profile.clk32_entry hi.profileWf
  have h : exec .clk32 s = .next _ := rfl
  have hflip := fun k hk => getLsbD_load_clk32 hi h (k := k) hk
  refine ⟨_, h, ?status, fun k hk hne => ?others, fun k hfirst hsecond => ?frame, rfl, rfl, rfl,
    derivedClock_of_clk32 hi h, rfl, rfl, rfl, rfl, _, rfl, rf_of_clk32_twice hi h rfl⟩
  case status =>
    have hown := hflip _ hbit
    rw [decide_eq_true rfl, Bool.xor_true] at hown
    exact hown
  case others =>
    have hother := hflip k hk
    rw [decide_eq_false (Ne.symm hne), Bool.xor_false] at hother
    exact hother
  case frame =>
    refine read_of_not_touches hi h (fun htouch => ?_)
    have hk : s.profile.clk32Off ≤ k ∧ k < s.profile.clk32Off + 2 := htouch
    omega

/-! ### The chip identifier -/

section
variable {s t : State} {i : Instr}

/-- A write leaves the chip identifier: an aligned access that meets it finds a FIXED entry (10_state.md R32). -/
theorem idr_of_write {w : Width} {a d : Word} (hi : s.Inv) (h : exec (Instr.write w a d) s = .next t) :
    t.load s.profile.offIdr .w32 = s.load s.profile.offIdr .w32 := by
  obtain ⟨-, -, hfixed⟩ := Profile.idr_fixed hi.profileWf
  by_cases happart : a.toNat + w.bytes ≤ s.profile.offIdr ∨ s.profile.offIdr + 4 ≤ a.toNat
  · refine load_of_not_touches hi h (fun k hlow hhigh htouch => ?_)
    have hcovers : covers w a k := (Touches.write_iff _ _ _ _ _).1 htouch
    simp only [Width.bytes] at hhigh
    omega
  · obtain ⟨hin, hcase⟩ := exec_write_inv h
    obtain ⟨e, hl, hcode⟩ := hfixed a.toNat w hin.1 (fun h => happart (.inl h)) (fun h => happart (.inr h))
    rw [exec_write_of_class hin hl hcode] at h
    cases h
    rfl

/-- Every transaction but RESET and RESTORE leaves the chip identifier (10_state.md R32). -/
theorem idr_of_exec (hi : s.Inv) (h : exec i s = .next t) (hreset : i ≠ .reset) (hrestore : ∀ img, i ≠ .restore img) :
    t.load s.profile.offIdr .w32 = s.load s.profile.offIdr .w32 := by
  obtain ⟨-, -, -, -, -, -, -, htime, hday, -⟩ := Profile.named_apart hi.profileWf
  have hcal : ∀ k, s.profile.offIdr ≤ k → k < s.profile.offIdr + 4 → ¬isCalendar s.profile k = true := by
    intro k hlow hhigh
    rw [isCalendar_iff]
    omega
  have hhost : ∀ k, s.profile.offIdr ≤ k → k < s.profile.offIdr + 4 →
      ¬(s.profile.clk32Off ≤ k ∧ k < s.profile.clk32Off + 2) := by
    have := (Profile.clk32_host hi.profileWf).2
    omega
  cases i with
  | wr8 a d => exact idr_of_write (w := .w8) hi h
  | wr16 a d => exact idr_of_write (w := .w16) hi h
  | wr32 a d => exact idr_of_write (w := .w32) hi h
  | tick => exact load_of_not_touches hi h hcal
  | setrtc days hours minutes seconds => exact load_of_not_touches hi h hcal
  | clk32 => exact load_of_not_touches hi h hhost
  | reset => exact absurd rfl hreset
  | restore img => exact absurd rfl (hrestore img)
  | rd8 a => exact load_of_not_touches hi h (fun _ _ _ => id)
  | rd16 a => exact load_of_not_touches hi h (fun _ _ _ => id)
  | rd32 a => exact load_of_not_touches hi h (fun _ _ _ => id)
  | drd32 a => exact load_of_not_touches hi h (fun _ _ _ => id)
  | dwr32 a d => exact load_of_not_touches hi h (fun _ _ _ => id)
  | qpwr => exact load_of_not_touches hi h (fun _ _ _ => id)
  | qfreq => exact load_of_not_touches hi h (fun _ _ _ => id)

/-- RESET sets the chip identifier (70_reset_and_hazards.md R302). -/
theorem load_idr_resetAll (hi : s.Inv) : (resetAll s).load s.profile.offIdr .w32 = s.profile.chipId :=
  memRead_resetRf hi.profileWf hi.rfWf (Profile.resetTable_normative hi.profileWf).2.2

end

/-- Settles O20: the reset table, and every other transaction by its bytes. -/
theorem chipIdChangesOnlyByRestoreAndReset : Obligations.ChipIdChangesOnlyByRestoreAndReset := by
  intro s t i hi h
  have hp : t.profile = s.profile := (exec_profile_input h).1
  constructor
  · rintro rfl
    cases h
    exact load_idr_resetAll hi
  · intro hreset hrestore
    rw [State.idr, hp]
    exact idr_of_exec hi h hreset hrestore

/-! ### PROT -/

/-- A bit of a halfword is a bit of its first byte from 8 up, and of its second below (20_memory.md R60). -/
theorem getLsbD_memRead_w16 (m : Memory 8) (off k : Nat) :
    (memRead m off .w16).getLsbD k =
      if k < 8 then (Memory.read m (off + 1)).getLsbD k else (Memory.read m off).getLsbD (k - 8) := by
  rw [memRead, BitVec.getLsbD_setWidth, BitVec.getLsbD_append]
  by_cases hk : k < 32
  · rw [decide_eq_true hk, Bool.true_and]
  · have hhigh : (Memory.read m off).getLsbD (k - 8) = false := BitVec.getLsbD_of_ge _ _ (by omega)
    rw [decide_eq_false hk, Bool.false_and, if_neg (by omega), hhigh]

/-- The transactions that R170 lets change bit `k` of PLLFSR while PROT is set: RESET, RESTORE, and a raw write over the
byte that holds the bit. -/
def OverridesProt (p : Profile) (i : Instr) (k : Nat) : Prop :=
  i = .reset ∨ (∃ img, i = .restore img) ∨
    ∃ w a d, i = Instr.write w a d ∧ ¬documented p w a ∧
      (covers w a p.offPllfsr ∨ (k < 8 ∧ covers w a (p.offPllfsr + 1)))

section
variable {s t : State} {i : Instr}

/-- While PROT is set a documented write leaves PLLFSR: one to PLLFSR is ignored, one elsewhere does not meet it
(41_clock_power.md R163, R170). -/
theorem pllfsr_of_documented_write {w : Width} {a d : Word} {e : Descriptor} (hi : s.Inv) (hprot : s.prot = true)
    (hl : s.profile.lookup a.toNat w = some e) (h : exec (Instr.write w a d) s = .next t) :
    t.load s.profile.offPllfsr .w16 = s.load s.profile.offPllfsr .w16 := by
  have hwf := hi.profileWf
  have hframe : a.toNat + w.bytes ≤ s.profile.offPllfsr ∨ s.profile.offPllfsr + 2 ≤ a.toNat →
      t.load s.profile.offPllfsr .w16 = s.load s.profile.offPllfsr .w16 := by
    refine fun happart => load_of_not_touches hi h (fun k hlow hhigh htouch => ?_)
    have hcovers : covers w a k := (Touches.write_iff _ _ _ _ _).1 htouch
    simp only [Width.bytes] at hhigh
    omega
  rcases Profile.pll_or_disjoint hwf hl with ⟨rfl, hpllcr | hpllfsr⟩ | ⟨-, happart⟩
  · exact hframe (hpllcr ▸ (Profile.named_apart hwf).1)
  · have hcode := (Profile.clock_iff hwf hl).2 ⟨hpllfsr, rfl⟩
    rw [exec_write_of_class (exec_write_inv h).1 hl hcode, sideEffect_clock_of_prot hprot] at h
    cases h
    rfl
  · exact hframe happart

/-- While PROT is set a write that does not override it leaves every bit of PLLFSR. -/
theorem pllfsr_bit_of_write {w : Width} {a d : Word} {k : Nat} (hi : s.Inv) (hprot : s.prot = true)
    (h : exec (Instr.write w a d) s = .next t) (hover : ¬OverridesProt s.profile (Instr.write w a d) k) :
    (t.load s.profile.offPllfsr .w16).getLsbD k = (s.load s.profile.offPllfsr .w16).getLsbD k := by
  by_cases hdoc : documented s.profile w a
  · obtain ⟨e, hl⟩ := Option.isSome_iff_exists.1 hdoc
    rw [pllfsr_of_documented_write hi hprot hl h]
  · have hbyte : ∀ j, (j = s.profile.offPllfsr ∨ (k < 8 ∧ j = s.profile.offPllfsr + 1)) →
        Memory.read t.rf j = Memory.read s.rf j := by
      refine fun j hj => read_of_not_touches hi h (fun htouch => hover (.inr (.inr ⟨w, a, d, rfl, hdoc, ?_⟩)))
      have hcovers : covers w a j := (Touches.write_iff _ _ _ _ _).1 htouch
      rcases hj with rfl | ⟨hk, rfl⟩
      · exact .inl hcovers
      · exact .inr ⟨hk, hcovers⟩
    rw [State.load, State.load, getLsbD_memRead_w16, getLsbD_memRead_w16]
    split
    next hk => rw [hbyte _ (.inr ⟨hk, rfl⟩)]
    next => rw [hbyte _ (.inl rfl)]

/-- While PROT is set every writable bit of PLLFSR is frozen but for the transactions that override it
(41_clock_power.md R170). -/
theorem pllfsr_bit_frozen {e : Descriptor} {k : Nat} (hi : s.Inv) (hprot : s.prot = true) (h : exec i s = .next t)
    (hl : s.profile.lookup s.profile.offPllfsr .w16 = some e) (hk : e.W.getLsbD k = true)
    (hover : ¬OverridesProt s.profile i k) :
    (t.load s.profile.offPllfsr .w16).getLsbD k = (s.load s.profile.offPllfsr .w16).getLsbD k := by
  have hframe : (∀ j, s.profile.offPllfsr ≤ j → j < s.profile.offPllfsr + 2 → ¬Touches s.profile i j) →
      (t.load s.profile.offPllfsr .w16).getLsbD k = (s.load s.profile.offPllfsr .w16).getLsbD k :=
    fun hn => congrArg (·.getLsbD k) (load_of_not_touches hi h hn)
  have hcal : ∀ j, s.profile.offPllfsr ≤ j → j < s.profile.offPllfsr + 2 → ¬isCalendar s.profile j = true := by
    obtain ⟨-, -, -, -, -, htime, hday, -⟩ := Profile.named_apart hi.profileWf
    intro j hlow hhigh
    rw [isCalendar_iff]
    omega
  cases i with
  | wr8 a d => exact pllfsr_bit_of_write (w := .w8) hi hprot h hover
  | wr16 a d => exact pllfsr_bit_of_write (w := .w16) hi hprot h hover
  | wr32 a d => exact pllfsr_bit_of_write (w := .w32) hi hprot h hover
  | tick => exact hframe hcal
  | setrtc days hours minutes seconds => exact hframe hcal
  | clk32 => exact pllfsr_writable_of_clk32 hi h hl hk
  | reset => exact absurd (.inl rfl) hover
  | restore img => exact absurd (.inr (.inl ⟨img, rfl⟩)) hover
  | rd8 a => exact hframe (fun _ _ _ => id)
  | rd16 a => exact hframe (fun _ _ _ => id)
  | rd32 a => exact hframe (fun _ _ _ => id)
  | drd32 a => exact hframe (fun _ _ _ => id)
  | dwr32 a d => exact hframe (fun _ _ _ => id)
  | qpwr => exact hframe (fun _ _ _ => id)
  | qfreq => exact hframe (fun _ _ _ => id)

end

/-- Settles O26: PROT and the bits of p and q are writable bits of PLLFSR; PROT is in the first byte. -/
theorem protIsSticky : Obligations.ProtIsSticky := by
  intro s t i hi hprot h
  have hp : t.profile = s.profile := (exec_profile_input h).1
  obtain ⟨e, hl, -, hprotW, hlowW, hbit, -⟩ := Profile.pllfsr_entry hi.profileWf
  constructor
  · intro hclear
    have hover : OverridesProt s.profile i s.profile.bitProt := by
      by_contra hover
      have hkept := pllfsr_bit_frozen hi hprot h hl hprotW hover
      rw [State.prot_eq, hp] at hclear
      rw [State.prot_eq] at hprot
      rw [hclear, hprot] at hkept
      cases hkept
    rcases hover with hreset | hrestore | ⟨w, a, d, hw, hdoc, hcovers | ⟨hk, -⟩⟩
    · exact .inl hreset
    · exact .inr (.inl hrestore)
    · exact .inr (.inr ⟨w, a, d, hw, hdoc, hcovers⟩)
    · omega
  · intro hchanged
    have hover : ∃ k, OverridesProt s.profile i k := by
      by_contra hnone
      refine hchanged (pllfsr_low_of_writable hp hlowW (fun k _ hk => ?_))
      exact pllfsr_bit_frozen hi hprot h hl hk (fun hover => hnone ⟨k, hover⟩)
    obtain ⟨k, hreset | hrestore | ⟨w, a, d, hw, hdoc, hcovers⟩⟩ := hover
    · exact .inl hreset
    · exact .inr (.inl hrestore)
    · exact .inr (.inr ⟨w, a, d, hw, hdoc, hcovers.imp_right And.right⟩)

end Sys2Proof.Machine
end

section
/-! PROOFS. The statements of spec/41_clock_power.md and spec/42_rtc.md: the frequency formula and the queries, the
calendar of a tick, of many ticks, and of SETRTC. -/

namespace Sys2Proof.Machine

/-! ### Clock and power -/

/-- The quotient of an even number by 1 or 2 is exact. -/
theorem two_mul_div_mul (n presc : Nat) (h : presc = 1 ∨ presc = 2) : 2 * n / presc * presc = 2 * n := by
  rcases h with rfl | rfl <;> omega

/-- Settles O21: p and q are fields of the second halfword and the prescaler is a bit of the first, so the pair depends
on these alone; the numerator is even. -/
theorem frequencyFormula : Obligations.FrequencyFormula := by
  intro bitPresc crystalHz cr fsr r presc num
  have hpresc : (if cr.getLsbD bitPresc then 2 else 1) = presc := by
    rw [BitVec.getLsbD, Nat.testBit_eq_decide_div_mod_eq]
    simp [presc]
  have hp : (fsr.extractLsb' 0 8).toNat = fsr.toNat % 2 ^ 8 := by
    rw [BitVec.extractLsb'_toNat, Nat.shiftRight_zero]
  have hq : (fsr.extractLsb' 8 4).toNat = fsr.toNat / 2 ^ 8 % 2 ^ 4 := by
    rw [BitVec.extractLsb'_toNat, Nat.shiftRight_eq_div_pow]
  have href : r.2 = num / presc := by
    simp only [r, computeFrequency, hpresc, hp, hq, num]
  have hcases : presc = 1 ∨ presc = 2 := by
    simp only [presc]
    split
    · exact .inr rfl
    · exact .inl rfl
  have hnum : 30 ≤ num ∧ num ≤ 7200 := by omega
  refine ⟨href, rfl, href ▸ two_mul_div_mul _ presc hcases, fun h1 => ?_, fun h2 => ?_,
    fun cr' fsr' => computeFrequency_congr⟩
  · rw [href, h1, Nat.div_one]
    exact hnum
  · rw [href, h2]
    omega

/-- Settles O22: two concrete pairs. -/
theorem resetDefaultsGiveTheOraclePair : Obligations.ResetDefaultsGiveTheOraclePair := by
  unfold Obligations.ResetDefaultsGiveTheOraclePair
  decide

/-- Settles O28: DISPLL is a bit of the stored halfword. -/
theorem qpwrSamplesThePowerLevel : Obligations.QpwrSamplesThePowerLevel := by
  intro s
  have hpower : s.isPowered = !(memRead s.rf s.profile.offPllcr .w16).getLsbD s.profile.bitDispll :=
    congrArg Bool.not (State.dispLl_eq s)
  rw [exec, execQpwr, hpower]
  cases (memRead s.rf s.profile.offPllcr .w16).getLsbD s.profile.bitDispll <;> rfl

/-- A clock value below 2^32 is answered as it is (30_encoding.md R97). -/
theorem toNat_clockWord {n : Nat} (h : n < 2 ^ 32) : (clockWord n).toNat = n := by
  rw [clockWord, if_pos h, BitVec.toNat_ofNat, Nat.mod_eq_of_lt h]

/-- Settles O29: QFREQ answers the two stored numbers as words. -/
theorem qfreqSamplesTheClockState : Obligations.QfreqSamplesTheClockState := fun _ =>
  ⟨_, _, rfl, toNat_clockWord, toNat_clockWord⟩

/-! ### One tick -/

/-- Settles O31: the fields after the tick as O30 gives them, and arithmetic. -/
theorem tickNormalisesEveryField : Obligations.TickNormalisesEveryField := by
  intro s t hi hen h c u
  have hfits : c.fits := calendar_fits s
  obtain ⟨hsec, hmin, hhr, hday⟩ := hfits
  have hu : u = c.advance := by
    rw [exec_tick_of_enabled hen] at h
    cases h
    exact calendar_pack hi.profileWf hi.rfWf (advance_fits (calendar_fits s))
  rw [hu]
  simp only [Calendar.advance]
  refine ⟨⟨?_, ?_, ?_, ?_⟩, ⟨?_, ?_, ?_, ?_⟩, fun hs => ?_, fun hm => ?_, fun hh => ?_⟩ <;> split_ifs <;> omega

/-! ### Many ticks -/

/-- The calendar `n` seconds after 0:0:0:0 (42_rtc.md R196 d). -/
def calendarAt (n : Nat) : Calendar where
  sec := n % 60
  min := n / 60 % 60
  hr := n / 3600 % 24
  day := n / 86400 % 512

/-- One second later. -/
theorem advance_calendarAt (n : Nat) : (calendarAt n).advance = calendarAt (n + 1) := by
  rw [calendarAt, calendarAt]
  generalize hsec : n % 60 = sec
  generalize hmin : n / 60 % 60 = min
  generalize hhr : n / 3600 % 24 = hr
  generalize hday : n / 86400 % 512 = day
  simp only [Calendar.advance, Calendar.mk.injEq]
  refine ⟨?_, ?_, ?_, ?_⟩ <;> split_ifs <;> omega

/-- An enabled tick keeps RTCEN: RTCCTL is no calendar register (10_state.md R31). -/
theorem rtcEnabled_of_tick {s t : State} (hi : s.Inv) (h : exec .tick s = .next t) : t.rtcEnabled = s.rtcEnabled := by
  have hp : t.profile = s.profile := (exec_profile_input h).1
  obtain ⟨-, -, -, -, -, -, -, -, -, -, htime, hday⟩ := Profile.named_apart hi.profileWf
  have hload : t.load s.profile.offRtcctl s.profile.rtcctlWidth = s.load s.profile.offRtcctl s.profile.rtcctlWidth := by
    refine load_of_not_touches hi h (fun k hlow hhigh htouch => ?_)
    have hcal := (isCalendar_iff s.profile k).1 htouch
    omega
  rw [State.rtcEnabled, State.rtcEnabled, State.rtcctl, State.rtcctl, hp, hload]

/-- Ticks from any second of the count (R196 d). -/
theorem execAll_ticks (n k : Nat) {s : State} (hi : s.Inv) (hen : s.rtcEnabled = true)
    (hcal : s.calendar = calendarAt k) :
    ∃ t, execAll (List.replicate n .tick) s = .next t ∧ t.calendar = calendarAt (k + n) := by
  induction n generalizing s k with
  | zero => exact ⟨s, rfl, hcal⟩
  | succ n ih =>
    have htick := exec_tick_of_enabled hen
    have hnext : (s.pack s.calendar.advance).calendar = calendarAt (k + 1) := by
      rw [calendar_pack hi.profileWf hi.rfWf (advance_fits (calendar_fits s)), hcal, advance_calendarAt]
    obtain ⟨t, hrun, ht⟩ := ih (k + 1) (inv_of_exec hi htick) ((rtcEnabled_of_tick hi htick).trans hen) hnext
    refine ⟨t, ?_, by rw [ht, Nat.add_right_comm, Nat.add_assoc]⟩
    rw [List.replicate_succ, execAll_cons, htick]
    exact hrun

/-- Settles O32: the ticks from second 0 of the count. -/
theorem ticksFromZeroCountTheCalendar : Obligations.TicksFromZeroCountTheCalendar := by
  intro s n hi hen hcal
  obtain ⟨t, hrun, ht⟩ := execAll_ticks n 0 hi hen hcal
  exact ⟨t, hrun, by rw [ht, Nat.zero_add]; rfl⟩

/-! ### SETRTC -/

/-- The operands of SETRTC as numbers, each at its field's width (42_rtc.md R197). -/
theorem ofOperands_eq (days : Word) (hours minutes seconds : Byte) :
    Calendar.ofOperands days hours minutes seconds =
      { sec := seconds.toNat % 64, min := minutes.toNat % 64, hr := hours.toNat % 32, day := days.toNat % 512 } := by
  simp only [Calendar.ofOperands, BitVec.extractLsb'_toNat, Nat.shiftRight_zero]

/-- Settles O33: SETRTC packs its masked operands, which fit the fields and so unpack to themselves. -/
theorem setrtcSetsTheCalendar : Obligations.SetrtcSetsTheCalendar := by
  refine ⟨decode_setrtc, fun s days hours minutes seconds hi => ?_⟩
  have hfits := ofOperands_fits days hours minutes seconds
  have hcal := (calendar_pack hi.profileWf hi.rfWf hfits).trans (ofOperands_eq days hours minutes seconds)
  have hnonfield : (s.pack (Calendar.ofOperands days hours minutes seconds)).rtctime &&& ~~~s.profile.rtcMask = 0 := by
    rw [(pack_registers hi.profileWf hi.rfWf _).1, packTime_nonfield hfits]
  exact ⟨_, rfl, hcal, hnonfield, dayr_pack_lt hi.profileWf hi.rfWf hfits, read_pack hi.rfWf _, rfl, rfl, rfl, rfl, rfl,
    rfl, rfl⟩

end Sys2Proof.Machine
end

section
/-! PROOFS. The statements of spec/43_dma.md about the writes and the layout of the DMA window, of
spec/70_reset_and_hazards.md about the registers after RESET, and of spec/44_host.md about RESTORE. -/

namespace Sys2Proof.Machine

/-! ### Writes of the DMA window -/

theorem dmaStored_of_some {p : Profile} {off : Nat} {r : DmaReg} (h : ddesc p off = some r) (d : Word) :
    dmaStored p off d = d &&& p.dmaMask.at r.kind := by
  simp only [dmaStored, h, dmaMaskOf]

theorem dmaStored_of_none {p : Profile} {off : Nat} (h : ddesc p off = none) (d : Word) : dmaStored p off d = d := by
  simp only [dmaStored, h]

/-- Settles O36: the stored word by the two cases of the DMA decoder, the frame of one word, and the checks in their
order. -/
theorem dmaWriteStoresTheMaskedWord : Obligations.DmaWriteStoresTheMaskedWord := by
  refine ⟨decode_dwr32, fun s a d hi hin => ?written,
    fun s a d => ⟨fun hd => ?absent, fun hd hmis => ?misaligned, fun hd halign hout => ?outside⟩⟩
  case written =>
    have hword : Memory.read (dmaWriteAt a.toNat d s).dw (a.toNat / 4) = dmaStored s.profile a.toNat d := by
      rw [dmaWriteAt_dw, Memory.read_write_same hi.dwWf]
    refine ⟨_, exec_dwr32_next hin d, fun r hr => ⟨?_, fun hk => ?_, fun hk => ?_, fun hk => ?_⟩,
      fun hr => ⟨?_, dmaWriteAt_events_none hr d⟩, fun j hj => ?_, dmaWriteAt_rf .., dmaWriteAt_freqHz ..,
      dmaWriteAt_refCyc .., dmaWriteAt_responses .., dmaWriteAt_profile .., dmaWriteAt_input ..⟩
    · rw [hword, dmaStored_of_some hr]
    · obtain ⟨-, -, -, hmask⟩ := Profile.dma_facts hi.profileWf hin.1
      rw [hword, dmaStored_of_some hr, hk, DmaTable.at, hmask]
    · rw [dmaWriteAt_events_some hr, if_pos hk, hk]
      rfl
    · rw [dmaWriteAt_events_some hr, if_neg hk]
    · rw [hword, dmaStored_of_none hr]
    · rw [dmaWriteAt_dw, Memory.read_write_ne hi.dwWf hj]
  case absent => exact exec_dwr32_fault (dmaFault_of_absent hd) d
  case misaligned => exact exec_dwr32_fault ((dmaFault_of_present hd).trans (contractFault_of_misaligned hmis)) d
  case outside => exact exec_dwr32_fault ((dmaFault_of_present hd).trans (contractFault_of_outside halign hout)) d

/-! ### The layout -/

section
variable {p : Profile}

/-- The layout places every register, at an aligned word inside the window (43_dma.md R221). -/
theorem exists_dmaOffset (hwf : p.wf = true) (hd : p.hasDma = true) {r : DmaReg} (hr : r.index < r.kind.count) :
    ∃ o, dmaOffset p r = some o ∧ o % 4 = 0 ∧ o + 4 ≤ p.dmaSize := by
  obtain ⟨-, hwindow, hcounts, -⟩ := Profile.dma_facts hwf hd
  have hlt : r.index < (p.dmaLayout.offsets r.kind).length := by rw [hcounts]; exact hr
  have ho : dmaOffset p r = some _ := List.getElem?_eq_getElem hlt
  exact ⟨_, ho, hwindow _ (dmaOffset_mem ho)⟩

/-- A register that the layout places is one of its kind's (R223). -/
theorem index_lt_of_dmaOffset (hwf : p.wf = true) (hd : p.hasDma = true) {r : DmaReg} {o : Nat}
    (h : dmaOffset p r = some o) : r.index < r.kind.count := by
  obtain ⟨-, -, hcounts, -⟩ := Profile.dma_facts hwf hd
  obtain ⟨hlt, -⟩ := List.getElem?_eq_some_iff.1 h
  rw [← hcounts]
  exact hlt

end

/-- Settles O38: every register has its offset, the decoder inverts it, and no two offsets share a word. -/
theorem dmaLayoutIsInjective : Obligations.DmaLayoutIsInjective := by
  intro p hwf hd
  refine ⟨fun r hr => ?_, fun o r hr => ?_, fun r r' o o' h h' => dmaOffset_inj hwf hd h h'⟩
  · obtain ⟨o, ho, halign, hbound⟩ := exists_dmaOffset hwf hd hr
    exact ⟨o, ho, halign, hbound, ddesc_of_dmaOffset hwf hd ho⟩
  · have ho := dmaOffset_of_ddesc hr
    exact ⟨index_lt_of_dmaOffset hwf hd ho, ho⟩

/-! ### The channel map -/

/-- The words of the channel-map entries are bytes (43_dma.md R224, R225). -/
def State.mapBytes (s : State) : Prop :=
  ∀ m v, s.dmaReg { kind := .drcmr, index := m } = some v → v.toNat < 2 ^ 8

section
variable {s t : State}

/-- The channel map is in the words of the DMA window at its entries' offsets. -/
theorem mapBytes_iff : s.mapBytes ↔
    ∀ m o, dmaOffset s.profile { kind := .drcmr, index := m } = some o → (Memory.read s.dw (o / 4)).toNat < 2 ^ 8 := by
  constructor
  · intro h m o ho
    exact h m _ (by rw [State.dmaReg, ho]; rfl)
  · intro h m v hv
    obtain ⟨o, ho, rfl⟩ := Option.map_eq_some_iff.1 hv
    exact h m o ho

/-- Every transaction keeps the map's words bytes, if their reset value is one. -/
theorem mapBytes_of_exec {i : Instr} (hi : s.Inv) (hd : s.profile.hasDma = true)
    (hreset : s.profile.dmaReset.drcmr.toNat < 2 ^ 8) (hmap : s.mapBytes) (h : exec i s = .next t) : t.mapBytes := by
  have hwf := hi.profileWf
  rw [mapBytes_iff] at hmap ⊢
  rw [(exec_profile_input h).1]
  intro m o ho
  obtain ⟨halign, hbound⟩ := (Profile.dma_facts hwf hd).2.1 o (dmaOffset_mem ho)
  have hreg := ddesc_of_dmaOffset hwf hd ho
  by_cases hdwr : ∃ a d, i = .dwr32 a d
  · obtain ⟨a, d, rfl⟩ := hdwr
    obtain ⟨hin, rfl⟩ := exec_dwr32_inv h
    rw [dmaWriteAt_dw, Memory.read_write hi.dwWf]
    split
    next hsame =>
      have haligned := hin.2.1
      obtain rfl : o = a.toNat := by omega
      exact dmaStored_drcmr_lt hwf hd hreg rfl d
    next => exact hmap m o ho
  · by_cases hr : i = .reset
    · subst hr
      cases h
      have hword : 4 * (o / 4) = o := by omega
      have hread : Memory.read (resetDw s.profile s.dw) (o / 4) = s.profile.dmaReset.drcmr :=
        (read_resetDw hd s.dw (by omega)).trans (dmaResetOf_of_some (hword.symm ▸ hreg))
      exact hread ▸ hreset
    · rw [dw_of_exec h (fun a d hii => hdwr ⟨a, d, hii⟩) hr]
      exact hmap m o ho

end

/-- Settles O39: a step is a transaction, done with its word taken from the input. -/
theorem channelMapEntriesStayBytes : Obligations.ChannelMapEntriesStayBytes := by
  intro s t hi hd hreset hmap h
  obtain ⟨-, -, rest, i, -, -, hexec⟩ := step_next_inv h
  exact mapBytes_of_exec (hi.withInput rest) hd hreset hmap hexec

/-! ### RESET -/

section
variable {s : State}

/-- RESET loads PLLCR with 0x24B3 (70_reset_and_hazards.md R302). -/
theorem load_pllcr_resetAll (hi : s.Inv) : (resetAll s).load s.profile.offPllcr .w16 = 0x24B3 :=
  memRead_resetRf hi.profileWf hi.rfWf (Profile.resetTable_normative hi.profileWf).1

/-- RESET leaves the registers that lie in the calendar bytes (R301). -/
theorem load_calendar_resetAll (hi : s.Inv) {off : Nat} {w : Width}
    (hcal : ∀ k, off ≤ k → k < off + w.bytes → isCalendar s.profile k = true) :
    (resetAll s).load off w = s.load off w :=
  memRead_congr (fun k hlow hhigh => read_resetRf_calendar hi.profileWf hi.rfWf (hcal k hlow hhigh))

/-- The chip is powered after RESET: DISPLL is clear in PLLCR's reset value (00_scope.md R9 c). -/
theorem isPowered_resetAll (hi : s.Inv) : (resetAll s).isPowered = true := by
  have hdisp : (resetAll s).dispLl = false := by
    rw [State.dispLl_eq, resetAll_profile, load_pllcr_resetAll hi, Profile.dispLl_reset hi.profileWf]
  rw [State.isPowered, hdisp]
  rfl

end

/-- Settles O41: the reset table's values in PLLCR, PLLFSR and IDR, and the calendar bytes kept. -/
theorem namedRegistersAfterReset : Obligations.NamedRegistersAfterReset := by
  intro s t hi h
  cases h
  have hcal := isCalendar_iff s.profile
  exact ⟨congrArg (BitVec.setWidth 16) (load_pllcr_resetAll hi),
    congrArg (BitVec.setWidth 16) (load_pllfsr_resetAll hi), load_idr_resetAll hi, load_calendar_resetAll hi (fun k hlow hhigh => (hcal k).2 (.inl ⟨hlow, hhigh⟩)),
    congrArg (BitVec.setWidth 16)
      (load_calendar_resetAll hi (w := .w16) (fun k hlow hhigh => (hcal k).2 (.inr ⟨hlow, hhigh⟩))),
    prot_resetAll hi, isPowered_resetAll hi⟩

/-- Settles O42: RESET leaves the bytes and words that a RESET gives, and the clock state is that of the registers. -/
theorem resetIsIdempotentAndDeterministic : Obligations.ResetIsIdempotentAndDeterministic := by
  refine ⟨fun s t u hi h h' => ?idempotent, fun s s' t t' hi hi' hp hcal h h' => ?deterministic⟩
  case idempotent =>
    cases h
    cases h'
    have hrf : (resetAll ((resetAll s).respond (Response.word 0))).rf = (resetAll s).rf :=
      resetRf_idem hi.profileWf hi.rfWf
    have hdw : (resetAll ((resetAll s).respond (Response.word 0))).dw = (resetAll s).dw := resetDw_idem _ _
    have hclock : (resetAll ((resetAll s).respond (Response.word 0))).derivedClock = (resetAll s).derivedClock :=
      derivedClock_congr rfl hrf
    exact ⟨hrf, hdw, congrArg Prod.fst hclock, congrArg Prod.snd hclock, rfl⟩
  case deterministic =>
    cases h
    cases h'
    have hrf : resetRf s.profile s.rf = resetRf s.profile s'.rf := resetRf_congr s.profile hi.rfWf hi'.rfWf hcal
    rw [State.respond_rf, State.respond_rf, resetAll_rf, resetAll_rf, ← hp, hrf]

/-! ### RESTORE -/

/-- RESTORE of an image of the right length (44_host.md R251). -/
theorem exec_restore_next {s : State} {img : Image} (h : img.size = s.profile.periphSize) :
    exec (.restore img) s = .next ((recompute (s.withRf (imageMemory img))).respond (Response.word 0)) := if_pos h

/-- RESTORE of an image of a wrong length (R251). -/
theorem exec_restore_fault {s : State} {img : Image} (h : img.size ≠ s.profile.periphSize) :
    exec (.restore img) s = .fault (.badImage img.size) := if_neg h

/-- Settles O43: the image's bytes, which the window's size bounds, and the recomputation. -/
theorem restoreLoadsTheImage : Obligations.RestoreLoadsTheImage := by
  refine ⟨decode_restore, fun s img => ⟨exec_restore_fault, fun hsize => ?_⟩⟩
  obtain ⟨hm, hb, hbyte⟩ := imageMemory_spec img
  rw [hsize] at hb
  refine ⟨_, exec_restore_next hsize, fun i hlt => ?_, fun i hge => Memory.read_eq_zero_of_below hb hge, hm, rfl, rfl,
    rfl, rfl, rfl, rfl⟩
  exact (hbyte i).trans (if_pos (hsize ▸ hlt))

/-- A snapshot restored to any state of its profile gives its register file and that file's clock state (R251, R252). -/
theorem exec_restore_snapshot {s u : State} (hi : s.Inv) (hp : u.profile = s.profile) :
    exec (.restore s.snapshot) u = .next ((recompute (u.withRf s.rf)).respond (Response.word 0)) := by
  have hrf : imageMemory s.snapshot = s.rf := imageMemory_of_wf hi.rfWf hi.rfBelow
  have hsize : s.snapshot.size = u.profile.periphSize := congrArg Profile.periphSize hp.symm
  rw [exec_restore_next hsize, hrf]

/-- Settles O44: the snapshot's image is the register file; after RESET the clock state is that of the registers. -/
theorem restoredSnapshotIsTheState : Obligations.RestoredSnapshotIsTheState := by
  refine ⟨fun s u hi hp => ?any, fun s s' u t hi hreset hp h => ?afterReset⟩
  case any => exact ⟨_, exec_restore_snapshot hi hp, rfl, derivedClock_congr hp rfl, rfl⟩
  case afterReset =>
    have hp' : u.profile = s'.profile := hp.trans (exec_profile_input hreset).1.symm
    rw [exec_restore_snapshot (inv_of_exec hi hreset) hp'] at h
    cases h
    have hrestored : (u.withRf s'.rf).derivedClock = s'.derivedClock := derivedClock_congr hp' rfl
    have hclock : (s'.freqHz, s'.refCyc) = s'.derivedClock := by
      cases hreset
      rfl
    rw [← hclock] at hrestored
    exact ⟨rfl, congrArg Prod.fst hrestored, congrArg Prod.snd hrestored, rfl⟩

end Sys2Proof.Machine
end
